-- ==== Sys2Proof/Config.lean ====
section
/-! DEFINITION. The fixed parameters of 00_scope.md R10, one named constant each, and the parameters
of R11, computed from them. The definitions of the model name these constants and repeat none of
their values, so that a correction of an unaudited literal changes one place (R12;
92_eei_decisions.md D26; log 1). Nothing is left to the implementation but the latency, which the
untimed model leaves out (log 23). -/

namespace Sys2Proof.Config

/-! ### The parameters of R10 -/

/-- WORD_BITS: the width of a stream word, and so of a code (R10). -/
@[simp] abbrev wordBits : Nat := 14

/-- LITERAL_LIMIT: codes below it are the literal bytes (R10). -/
abbrev literalLimit : Nat := 0x100

/-- FIRST_DYN: the first dynamically assigned code (R10). -/
abbrev firstDyn : BitVec wordBits := 0x100#wordBits

/-- LAST_DYN: the last dynamically assigned code (R10). -/
abbrev lastDyn : BitVec wordBits := 0x3FFD#wordBits

/-- RESET_CODE: the control code Reset (R10). NEXT_FREE equal to it means that the code space is
exhausted (10_state.md R39). -/
abbrev resetCode : BitVec wordBits := 0x3FFE#wordBits

/-- EOS_CODE: the control code EndOfStream (R10). -/
abbrev eosCode : BitVec wordBits := 0x3FFF#wordBits

/-- SAT_LIMIT: Reset is emitted when ENC_SAT exceeds it (R10; 90_conflicts.md C1; log 5). Its width
is ENC_SAT's (10_state.md R41). -/
abbrev satLimit : BitVec 10 := 1000#10

/-- SENTINEL: the byte that close writes last (R10). -/
abbrev sentinel : BitVec 8 := 0x00#8

/-! ### The parameters of R11, which follow from those of R10 -/

/-- DYN_COUNT = LAST_DYN - FIRST_DYN + 1: the number of dynamic codes (R11). -/
abbrev dynCount : Nat := lastDyn.toNat - firstDyn.toNat + 1

/-- MAX_DEPTH = 1 + DYN_COUNT: the length of the longest phrase in bytes (R11; 41_trie.md R136). -/
abbrev maxDepth : Nat := 1 + dynCount

/-- NODE_COUNT: the number of node slots, codes 0x0000 to LAST_DYN (R11). -/
abbrev nodeCount : Nat := lastDyn.toNat + 1

/-! ### Values other rules fix once -/

/-- ROOT: the code of the trie's root, the Reset code (41_trie.md R130; the spec's own decision,
92_eei_decisions.md D10; log 3). The same value in DEC_PREV means "no previous code"
(10_state.md R42). -/
abbrev rootCode : BitVec wordBits := resetCode

/-- The width of a node's DEPTH field, which counts bytes and is no code (10_state.md R44). -/
@[simp] abbrev depthBits : Nat := 14

/-- The highest index of the register map (10_state.md R47; 30_encoding.md R90). -/
abbrev lastRegister : BitVec wordBits := 6#wordBits

end Sys2Proof.Config
end

