-- ==== Sys2Proof/Word.lean ====
section
/-! DEFINITION. The word types of the codec core. Every value of the spec is an unsigned bit
field (00_scope.md R14), so each is a bit vector of the width its file gives. -/

namespace Sys2Proof

/-- A byte of IN, OUTW, OUTD, UP_BUF or a node (20_memory.md R68). -/
abbrev Byte := BitVec 8

/-- A stream word of WORD_BITS bits, which is also a dictionary code (30_encoding.md R80;
00_scope.md R10). -/
abbrev Code := BitVec Config.wordBits

/-- A command word on CMD (30_encoding.md R88). -/
abbrev CmdWord := BitVec 32

/-- A response word on RESP (30_encoding.md R95). -/
abbrev RespWord := BitVec 32

end Sys2Proof
end

