-- ==== Sys2Proof/Syntax.lean ====
section
/-! DEFINITION. The two instruction sets of the codec core: the 32-bit commands the host sends on
CMD and the 14-bit stream words DEC_STEP executes (30_encoding.md). One constructor per row of
spec/opcode_table.json, in the table's order. -/

namespace Sys2Proof

/-- The instructions: the four classes of stream words (30_encoding.md R81), then the thirteen
commands (R89). -/
inductive Instr where
  /-- LIT: the single byte of a literal word (R81; 43_decoder.md R174). -/
  | lit (b : Byte)
  /-- RESET: reinitialise the dictionary (R81; 43_decoder.md R173). -/
  | reset
  /-- EOS: end of the stream (R81; 43_decoder.md R172). -/
  | eos
  /-- DICT: the phrase of a dynamic code, 0x0100 to 0x3FFD (R81; 43_decoder.md R174). -/
  | dict (c : Code)
  /-- NOP (44_control.md R190). -/
  | nop
  /-- PK_INIT: open the packer (40_packer.md R110). -/
  | pkInit
  /-- PK_WRITE w: pack one word (40_packer.md R116). -/
  | pkWrite (w : Code)
  /-- PK_CLOSE: flush and write the sentinel (40_packer.md R117). -/
  | pkClose
  /-- UP_INIT: empty the unpacker's buffer (40_packer.md R113). -/
  | upInit
  /-- UP_READ: read one word from IN (40_packer.md R118). -/
  | upRead
  /-- ENC_START: open a compression session (42_encoder.md R151). -/
  | encStart
  /-- ENC_BYTE b: compress one byte (42_encoder.md R152). -/
  | encByte (b : Byte)
  /-- ENC_CLOSE: end the compression session (42_encoder.md R154). -/
  | encClose
  /-- DEC_START: open a decompression session (43_decoder.md R170). -/
  | decStart
  /-- DEC_STEP: read one word from IN and execute it (43_decoder.md R171). -/
  | decStep
  /-- RD_REG idx: read a register of the map (44_control.md R191). -/
  | rdReg (idx : Code)
  /-- CLR_ERR: clear STICKY_ERR (44_control.md R192). -/
  | clrErr
  deriving DecidableEq, Repr

/-- The class of a stream word (30_encoding.md R81). -/
inductive WordClass where
  | lit | dict | reset | eos
  deriving DecidableEq, Repr

/-- The bits of an instruction: a stream word or a command word, the codec core's two encodings
(30_encoding.md, opening). -/
inductive Encoded where
  | stream (w : Code)
  | command (w : CmdWord)
  deriving DecidableEq, Repr

/-- Why a command word is illegal, in the order of the checks of 30_encoding.md R92. Each of them
ends in the error response ILLEGAL (R91): safe, the response and the state change are the spec's. -/
inductive IllegalWord where
  /-- OPC is not in the table of R89. -/
  | unknownOpcode
  /-- RSV is not 0. -/
  | reservedBits
  /-- ENC_BYTE with OPERAND[13:8] not 0. -/
  | byteOperand
  /-- RD_REG with an index above 6. -/
  | indexOperand
  /-- A command without an operand, with OPERAND not 0. -/
  | operandNotZero
  deriving DecidableEq, Repr

end Sys2Proof
end

