-- ==== Sys2Proof/WellFormed.lean ====
section
/-! DEFINITION. Which terms of Instr the encodings can spell: the operand ranges of
30_encoding.md R81 and R90. -/

namespace Sys2Proof

/-- A DICT word's code is a dynamic code (R81); RD_REG's index is at most 6 (R90; 10_state.md R47).
Every other operand fills its field. -/
def Instr.wf : Instr → Bool
  | .dict c => decide (Config.firstDyn ≤ c) && decide (c ≤ Config.lastDyn)
  | .rdReg idx => decide (idx ≤ Config.lastRegister)
  | .lit _ | .reset | .eos | .nop | .pkInit | .pkWrite _ | .pkClose | .upInit | .upRead
  | .encStart | .encByte _ | .encClose | .decStart | .decStep | .clrErr => true

end Sys2Proof
end

