-- ==== Sys2Proof/Decode.lean ====
section
/-! DEFINITION. The decoder and the encoder of both instruction sets (30_encoding.md sections 1
and 2), and the host's reading of an opcode-table row. -/

namespace Sys2Proof

/-- The class of a stream word. The classes are tested in the order of R81's table, first match
wins: LIT, the codes below LITERAL_LIMIT (match 0, mask 0x3F00), RESET, EOS, and DICT for any other
value. -/
def classify (w : Code) : WordClass :=
  if w.toNat < Config.literalLimit then .lit
  else if w = Config.resetCode then .reset
  else if w = Config.eosCode then .eos
  else .dict

/-- The instruction a stream word stands for; total, since every 14-bit value belongs to exactly
one class (R82). -/
def decodeStream (w : Code) : Instr :=
  match classify w with
  | .lit => .lit (w.setWidth 8)
  | .reset => .reset
  | .eos => .eos
  | .dict => .dict w

/-- OPC, bits [31:24] of a command word (R88). -/
def opcField (w : CmdWord) : BitVec 8 := w.extractLsb' 24 8

/-- RSV, bits [23:14] of a command word (R88). -/
def rsvField (w : CmdWord) : BitVec (24 - Config.wordBits) :=
  w.extractLsb' Config.wordBits (24 - Config.wordBits)

/-- OPERAND, bits [13:0] of a command word (R88). -/
def operandField (w : CmdWord) : Code := w.extractLsb' 0 Config.wordBits

/-- The operand field of a command without an operand: 0 (R90). -/
abbrev noOperand : Code := 0#Config.wordBits

/-- A command without an operand requires OPERAND = 0 (R90, the last check of R92). -/
def plainCommand (op : Code) (i : Instr) : Except IllegalWord Instr :=
  if op = noOperand then .ok i else .error .operandNotZero

/-- The opcode map of R89 with the operand checks of R92 that belong to each opcode. ENC_BYTE's
check, OPERAND[13:8] = 0, is that the operand fits a byte (R90). -/
def decodeOpcode (opc : BitVec 8) (op : Code) : Except IllegalWord Instr :=
  match opc.toNat with
  | 0x00 => plainCommand op .nop
  | 0x01 => plainCommand op .pkInit
  | 0x02 => .ok (.pkWrite op)
  | 0x03 => plainCommand op .pkClose
  | 0x04 => plainCommand op .upInit
  | 0x05 => plainCommand op .upRead
  | 0x10 => plainCommand op .encStart
  | 0x11 => if op.toNat < 2 ^ 8 then .ok (.encByte (op.setWidth 8)) else .error .byteOperand
  | 0x12 => plainCommand op .encClose
  | 0x20 => plainCommand op .decStart
  | 0x21 => plainCommand op .decStep
  | 0x30 => if op ≤ Config.lastRegister then .ok (.rdReg op) else .error .indexOperand
  | 0x31 => plainCommand op .clrErr
  | _ => .error .unknownOpcode

/-- The command a command word stands for, or why it is illegal (R91, R92). RSV is checked with the
opcode, before any operand; a word that fails both checks is ILLEGAL either way. -/
def decodeCommand (w : CmdWord) : Except IllegalWord Instr :=
  if rsvField w = 0#(24 - Config.wordBits) then decodeOpcode (opcField w) (operandField w)
  else .error .reservedBits

/-- The decoder of both instruction sets. -/
def decode : Encoded → Except IllegalWord Instr
  | .stream w => .ok (decodeStream w)
  | .command w => decodeCommand w

/-- A command word from its opcode and its operand: {OPC, RSV of zeros, OPERAND} (R88, R98). -/
def commandWord (opc : BitVec 8) (op : Code) : CmdWord :=
  opc ++ 0#(24 - Config.wordBits) ++ op

/-- The encoder: the stream word or command word of an instruction (R81, R88, R89, R90). -/
def encode : Instr → Encoded
  | .lit b => .stream (b.setWidth Config.wordBits)
  | .reset => .stream Config.resetCode
  | .eos => .stream Config.eosCode
  | .dict c => .stream c
  | .nop => .command (commandWord 0x00#8 noOperand)
  | .pkInit => .command (commandWord 0x01#8 noOperand)
  | .pkWrite w => .command (commandWord 0x02#8 w)
  | .pkClose => .command (commandWord 0x03#8 noOperand)
  | .upInit => .command (commandWord 0x04#8 noOperand)
  | .upRead => .command (commandWord 0x05#8 noOperand)
  | .encStart => .command (commandWord 0x10#8 noOperand)
  | .encByte b => .command (commandWord 0x11#8 (b.setWidth Config.wordBits))
  | .encClose => .command (commandWord 0x12#8 noOperand)
  | .decStart => .command (commandWord 0x20#8 noOperand)
  | .decStep => .command (commandWord 0x21#8 noOperand)
  | .rdReg idx => .command (commandWord 0x30#8 idx)
  | .clrErr => .command (commandWord 0x31#8 noOperand)

/-- A row of spec/opcode_table.json: its width in bits, its match and its mask. -/
structure TableRow where
  width : Nat
  pattern : Nat
  mask : Nat
  deriving DecidableEq, Repr

/-- The row of spec/opcode_table.json an instruction belongs to, transcribed from the table: what the
encoder is held against. -/
def Instr.tableRow : Instr → TableRow
  | .lit _ => ⟨14, 0x0000, 0x3F00⟩
  | .reset => ⟨14, 0x3FFE, 0x3FFF⟩
  | .eos => ⟨14, 0x3FFF, 0x3FFF⟩
  | .dict _ => ⟨14, 0x0000, 0x0000⟩
  | .nop => ⟨32, 0x00000000, 0xFFFFFFFF⟩
  | .pkInit => ⟨32, 0x01000000, 0xFFFFFFFF⟩
  | .pkWrite _ => ⟨32, 0x02000000, 0xFFFFC000⟩
  | .pkClose => ⟨32, 0x03000000, 0xFFFFFFFF⟩
  | .upInit => ⟨32, 0x04000000, 0xFFFFFFFF⟩
  | .upRead => ⟨32, 0x05000000, 0xFFFFFFFF⟩
  | .encStart => ⟨32, 0x10000000, 0xFFFFFFFF⟩
  | .encByte _ => ⟨32, 0x11000000, 0xFFFFFF00⟩
  | .encClose => ⟨32, 0x12000000, 0xFFFFFFFF⟩
  | .decStart => ⟨32, 0x20000000, 0xFFFFFFFF⟩
  | .decStep => ⟨32, 0x21000000, 0xFFFFFFFF⟩
  | .rdReg _ => ⟨32, 0x30000000, 0xFFFFC000⟩
  | .clrErr => ⟨32, 0x31000000, 0xFFFFFFFF⟩

/-- Width and value of an encoding, as the opcode table writes them. -/
def Encoded.bits : Encoded → Nat × Nat
  | .stream w => (Config.wordBits, w.toNat)
  | .command w => (32, w.toNat)

/-- The encoding that nbits bits of value w are, for an opcode-table row of nbits bits in whole
bytes: a 14-bit row (2 bytes, the two bits above the word zero) is a stream word, a 32-bit row is a
command word, which arrives whole on CMD and has no byte order (R88). A value that does not fit is
no instruction (log 26). -/
def tableEncoding (nbits w : Nat) : Option Encoded :=
  if nbits ≤ 16 then
    if w < 2 ^ Config.wordBits then some (.stream (BitVec.ofNat Config.wordBits w)) else none
  else if w < 2 ^ 32 then some (.command (BitVec.ofNat 32 w))
  else none

/-- The instruction the decoder reads from an opcode-table row's bits; none where it refuses. -/
def decodeTableWord (nbits w : Nat) : Option Instr :=
  match tableEncoding nbits w with
  | none => none
  | some e =>
    match decode e with
    | .ok i => some i
    | .error _ => none

end Sys2Proof
end

