-- ==== Sys2Proof/Machine/State.lean ====
section
/-! DEFINITION. The state of the codec core: everything 10_state.md R30 lists, the histories of its
output ports, and the two inputs the model holds as data (the command in execution and the host's
coming actions). Plain data throughout. -/

namespace Sys2Proof.Machine

/-- MODE, the session state (10_state.md R33). The values 5, 6 and 7 are never written, so the type
leaves them out (93_implementation_defined.md I11; log 16). -/
inductive Mode where
  /-- 0: no session. -/
  | idle
  /-- 1: a compression session is open. -/
  | enc
  /-- 2: a decompression session is open. -/
  | dec
  /-- 3: the decompressor has decoded EndOfStream. -/
  | decDone
  /-- 4: the decompressor stopped at a decode error. -/
  | decErr
  deriving DecidableEq, Repr

/-- A node of the dictionary (10_state.md R44). Its code is its index in the arena. -/
structure Node where
  /-- PARENT: code of the parent, or the root's code. -/
  parent : Code
  /-- DEPTH: length of the phrase in bytes. -/
  depth : BitVec Config.depthBits
  /-- VALUE: last byte of the phrase. -/
  value : Byte
  /-- FIRST: first byte of the phrase. -/
  first : Byte
  deriving DecidableEq, Repr

/-- The node arena, the core's only addressed memory (20_memory.md R60): (code, node) pairs in one
canonical form (Memory.wf; log 14). -/
abbrev Memory := List (Nat × Node)

/-- The host's actions (70_reset_and_hazards.md R236). -/
inductive HostAction where
  /-- CMD(word): issue a command word. -/
  | cmd (w : CmdWord)
  /-- IN_PUSH(b): append a byte to IN. -/
  | inPush (b : Byte)
  /-- IN_FINISH: set IN_END. -/
  | inFinish
  /-- IN_CLEAR: empty IN and clear IN_END. -/
  | inClear
  /-- Take bytes of OUTW or OUTD: no effect on the core. -/
  | takeOutput
  /-- RST: reset (R230). -/
  | rst
  deriving DecidableEq, Repr

/-- The errors of 60_exceptions.md R200. Codes 7 to 15 are never produced. -/
inductive Err where
  /-- 1: malformed command word. -/
  | illegal
  /-- 2: the packer is closed. -/
  | closed
  /-- 3: the session in MODE owns the unit. -/
  | busy
  /-- 4: the session the command belongs to is not open. -/
  | notActive
  /-- 5: a DICT word with no known phrase. -/
  | invalidCode
  /-- 6: IN ended inside a word. -/
  | truncated
  deriving DecidableEq, Repr

/-- The state of the machine. -/
structure State where
  /-- MODE (10_state.md R33). -/
  mode : Mode
  /-- PK_ACC: the packer's pending bits (R34). -/
  pkAcc : BitVec 7
  /-- PK_NBITS: how many bits are pending (R35). -/
  pkNbits : BitVec 3
  /-- PK_CLOSED (R36). -/
  pkClosed : Bool
  /-- UP_BUF: the last byte taken from IN (R37). -/
  upBuf : Byte
  /-- UP_AVAIL: the number of low bits of UP_BUF not yet consumed (R38). -/
  upAvail : BitVec 4
  /-- NEXT_FREE: the code the next registered node gets (R39). -/
  nextFree : Code
  /-- NODE: the dictionary's arena (R44). -/
  nodes : Memory
  /-- ENC_CUR: the compressor's trie position (R40). -/
  encCur : Code
  /-- ENC_SAT: the saturation counter (R41). -/
  encSat : BitVec 10
  /-- DEC_PREV: the decompressor's previous code (R42). -/
  decPrev : Code
  /-- STICKY_ERR: the first error since reset or CLR_ERR (R43). -/
  stickyErr : BitVec 4
  /-- IN: input bytes, oldest first (20_memory.md R63). -/
  inq : List Byte
  /-- IN_END: the end mark of IN (20_memory.md R63). -/
  inEnd : Bool
  /-- OUTW: every packed byte appended since power-on, first byte first (20_memory.md R64; log 12). -/
  outw : List Byte
  /-- OUTD: every decoded byte appended since power-on (20_memory.md R64; log 12). -/
  outd : List Byte
  /-- RESP: every response word delivered since power-on (30_encoding.md R95; log 12). -/
  resp : List RespWord
  /-- CMD: the command word that has no response yet. The model's own field: the spec calls the
  command in execution an input (10_state.md R30; log 8). -/
  cmd : Option CmdWord
  /-- The host's coming actions, in their total order. The model's own field (70_reset_and_hazards.md
  R236; DESIGN CHOICE, log 7). -/
  host : List HostAction
  deriving DecidableEq, Repr

/-- Why a step can stop with a fault. -/
inductive Fault where
  /-- The host issues a command while an earlier one has no response: a host error, which
  93_implementation_defined.md I13 asks to treat as a fault. Raised by the host's CMD action. Safe
  (log 11). -/
  | commandWhilePending
  /-- A phrase walk or a registration meets a slot that is not defined, does not exist or lies on a
  cycle: outside the preconditions of 41_trie.md R133 and R134. Raised by ENC_BYTE, LIT, DICT and
  DEC_STEP, in no state a run from reset reaches. Safe (log 15). -/
  | brokenTrie
  deriving DecidableEq, Repr

/-- Why a step can be refused. -/
inductive Refusal where
  /-- An instruction without a meaning. Raised by a refused arm of exec; no arm is refused. Safe. -/
  | notModelled (mnemonic : String)
  deriving DecidableEq, Repr

/-- What a meaning answers. -/
abbrev Result := Host.Outcome State Fault Refusal

/-- The machine right after reset (10_state.md R54; 70_reset_and_hazards.md R230, R231). The arena
lists nothing: an unlisted literal slot reads as its literal node (Memory.blank), and a dynamic slot
is undefined. Power-on acts as a reset with nothing delivered yet and no host action scheduled
(log 7, 22). -/
def State.reset : State where
  mode := .idle
  pkAcc := 0#7
  pkNbits := 0#3
  pkClosed := false
  upBuf := 0#8
  upAvail := 0#4
  nextFree := Config.firstDyn
  nodes := []
  encCur := Config.rootCode
  encSat := 0#10
  decPrev := Config.rootCode
  stickyErr := 0#4
  inq := []
  inEnd := false
  outw := []
  outd := []
  resp := []
  cmd := none
  host := []

end Sys2Proof.Machine
end

