-- ==== Sys2Proof/Machine/Flags.lean ====
section
/-! DEFINITION. The flags and status fields of the codec core: MODE's value, the error codes, the
KIND of a word, STATUS, the sticky error and the mode checks (10_state.md R48, R49;
30_encoding.md R96; 60_exceptions.md R200, R202, R205). -/

namespace Sys2Proof.Machine

/-- MODE's value in three bits (10_state.md R33). -/
def Mode.bits : Mode → BitVec 3
  | .idle => 0#3
  | .enc => 1#3
  | .dec => 2#3
  | .decDone => 3#3
  | .decErr => 4#3

/-- The code of an error in RESP.ERR and STICKY_ERR (60_exceptions.md R200). -/
def Err.code : Err → BitVec 4
  | .illegal => 1#4
  | .closed => 2#4
  | .busy => 3#4
  | .notActive => 4#4
  | .invalidCode => 5#4
  | .truncated => 6#4

/-- KIND, the code of a word's class in a response (30_encoding.md R96). -/
def kindOf : WordClass → BitVec 4
  | .lit => 0#4
  | .dict => 1#4
  | .reset => 2#4
  | .eos => 3#4

/-- KIND of an error response: 1 for INVALID_CODE and 0 otherwise (60_exceptions.md R201). -/
def errKind : Err → BitVec 4
  | .invalidCode => kindOf .dict
  | .illegal | .closed | .busy | .notActive | .truncated => 0#4

/-- IN_EMPTY: 1 if IN holds no byte (10_state.md R48). -/
def State.inEmpty (s : State) : Bool := s.inq.isEmpty

/-- STATUS: {0000, STICKY_ERR, 00, IN_EMPTY, IN_END, PK_CLOSED, MODE} (10_state.md R48;
44_control.md R191). -/
def State.status (s : State) : BitVec 16 :=
  0#4 ++ s.stickyErr ++ 0#2 ++ BitVec.ofBool s.inEmpty ++ BitVec.ofBool s.inEnd ++
    BitVec.ofBool s.pkClosed ++ s.mode.bits

/-- STICKY_ERR after an error response: the first error is kept (60_exceptions.md R202). -/
def stickyAfter (old : BitVec 4) (e : Err) : BitVec 4 := if old = 0#4 then e.code else old

/-- The compressor owns the packer: PK_INIT, PK_WRITE and PK_CLOSE fail with BUSY
(60_exceptions.md R205). -/
def State.packerOwned (s : State) : Bool := decide (s.mode = .enc)

/-- The decompressor owns the unpacker: UP_INIT and UP_READ fail with BUSY (60_exceptions.md R205). -/
def State.unpackerOwned (s : State) : Bool := decide (s.mode = .dec)

end Sys2Proof.Machine
end

