-- ==== Sys2Proof/Machine/Operands.lean ====
section
/-! DEFINITION. The operand forms of the codec core. A command's operand is a word, a byte or a
register index, taken as it stands, with no extension, scaling or shift (30_encoding.md R90); the
only operand that names state is RD_REG's index, whose register map stands here (10_state.md R47). -/

namespace Sys2Proof.Machine

/-- PK_STATE: [6:0] PK_ACC, [10:8] PK_NBITS (10_state.md R47; 44_control.md R191). -/
def State.packerState (s : State) : BitVec 16 := 0#5 ++ s.pkNbits ++ 0#1 ++ s.pkAcc

/-- UP_STATE: [7:0] UP_BUF, [11:8] UP_AVAIL (10_state.md R47; 44_control.md R191). -/
def State.unpackerState (s : State) : BitVec 16 := 0#4 ++ s.upAvail ++ s.upBuf

/-- The register map: the value RD_REG reads at an index, none for the reserved indices 7 to 0x3FFF
(10_state.md R47). -/
def State.readRegister (s : State) (idx : Code) : Option (BitVec 16) :=
  match idx.toNat with
  | 0 => some s.status
  | 1 => some (s.nextFree.setWidth 16)
  | 2 => some (s.encCur.setWidth 16)
  | 3 => some (s.encSat.setWidth 16)
  | 4 => some (s.decPrev.setWidth 16)
  | 5 => some s.packerState
  | 6 => some s.unpackerState
  | _ => none

end Sys2Proof.Machine
end

