-- ==== Sys2Proof/Machine/Ops.lean ====
section
/-! DEFINITION. The named operations every meaning is written over: the response and the error
response, the node arena, the trie primitives of 41_trie.md, and the packer and unpacker primitives
of 40_packer.md. -/

namespace Sys2Proof.Machine

/-! ### Responses (30_encoding.md R95; 60_exceptions.md R201, R202) -/

/-- A response word: {err[3:0], kind[3:0], 0x00, value[15:0]} (30_encoding.md R95). -/
def respWord (err kind : BitVec 4) (value : BitVec 16) : RespWord := err ++ kind ++ 0x00#8 ++ value

/-- Complete the command with a response: the word is delivered on RESP and CMD has no command
without a response any more (00_scope.md R15, R16). -/
def State.respond (s : State) (err kind : BitVec 4) (value : BitVec 16) : State :=
  { s with resp := s.resp ++ [respWord err kind value], cmd := none }

/-- Complete the command with an error response, the codec core's one way to report an error: the
first error is kept in STICKY_ERR, and nothing else changes beyond what the command changed before
(60_exceptions.md R201, R202, R208). -/
def State.raise (s : State) (e : Err) (info : BitVec 16) : State :=
  { s with stickyErr := stickyAfter s.stickyErr e }.respond e.code (errKind e) info

/-! ### The node arena (20_memory.md R60 to R62) -/

/-- The literal node of byte value b (41_trie.md R131). -/
def literalNode (b : Nat) : Node where
  parent := Config.rootCode
  depth := 1#Config.depthBits
  value := BitVec.ofNat 8 b
  first := BitVec.ofNat 8 b

/-- What an unlisted slot reads as: the reset contents, which are the literal node for a literal
slot and nothing for any other (10_state.md R54; log 13, 14). -/
def Memory.blank (c : Nat) : Option Node :=
  if c < Config.literalLimit then some (literalNode c) else none

/-- The content of slot c. -/
def Memory.read (m : Memory) (c : Nat) : Option Node :=
  match m with
  | [] => Memory.blank c
  | (k, n) :: rest => if k = c then some n else Memory.read rest c

/-- Take slot c out of the list, so that it reads as unlisted. -/
def Memory.erase (m : Memory) (c : Nat) : Memory :=
  match m with
  | [] => []
  | (k, n) :: rest => if k = c then rest else (k, n) :: Memory.erase rest c

/-- List slot c with node n, in code order. -/
def Memory.insert (m : Memory) (c : Nat) (n : Node) : Memory :=
  match m with
  | [] => [(c, n)]
  | (k, n') :: rest =>
    if c < k then (c, n) :: (k, n') :: rest
    else if c = k then (c, n) :: rest
    else (k, n') :: Memory.insert rest c n

/-- NodeWrite(c, n) (20_memory.md R62), keeping the canonical form: a slot that holds what it reads
as when unlisted is not listed. -/
def Memory.write (m : Memory) (c : Nat) (n : Node) : Memory :=
  if Memory.blank c = some n then m.erase c else m.insert c n

/-- The canonical form of the arena from a lower bound on: codes strictly rising and below NODE_COUNT,
and no entry equal to what its slot reads as when unlisted. -/
def Memory.wfFrom (lo : Nat) : Memory → Bool
  | [] => true
  | (k, n) :: rest =>
    decide (lo ≤ k) && decide (k < Config.nodeCount) && decide (Memory.blank k ≠ some n) &&
      Memory.wfFrom (k + 1) rest

/-- The canonical form of the arena. -/
def Memory.wf (m : Memory) : Bool := Memory.wfFrom 0 m

/-- NodeRead(c): the node of a defined code. A code at or above NEXT_FREE is undefined, and its slot
is absent to every reader (20_memory.md R61; log 13). -/
def State.nodeRead (s : State) (c : Code) : Option Node :=
  if c < s.nextFree then s.nodes.read c.toNat else none

/-! ### The trie (41_trie.md) -/

/-- depth(c), for a code that is the root or defined (41_trie.md R130). -/
def State.depthOf (s : State) (c : Code) : Option (BitVec Config.depthBits) :=
  if c = Config.rootCode then some 0#Config.depthBits else (s.nodeRead c).map Node.depth

/-- The arena with the 256 literal nodes written again (41_trie.md R131). -/
def Memory.restoreLiterals (m : Memory) : Memory :=
  (List.range Config.literalLimit).foldl (fun acc b => acc.write b (literalNode b)) m

/-- TrieReset(): the 256-literal trie (41_trie.md R131; 90_conflicts.md C2). No dynamic slot is
written: all of them become undefined (20_memory.md R62). -/
def State.trieReset (s : State) : State :=
  { s with nodes := s.nodes.restoreLiterals, nextFree := Config.firstDyn }

/-- Is code c a child of node p for byte b? -/
def State.isChild (s : State) (p : Code) (b : Byte) (c : Nat) : Bool :=
  match s.nodeRead (BitVec.ofNat Config.wordBits c) with
  | some n => decide (n.parent = p) && decide (n.value = b)
  | none => false

/-- Child(p, b): the least defined code with parent p and value b (41_trie.md R132; log 19). -/
def State.child (s : State) (p : Code) (b : Byte) : Option Code :=
  ((List.range s.nextFree.toNat).find? (s.isChild p b)).map (BitVec.ofNat Config.wordBits)

/-- Register(p, b): the node of phrase(p) ++ [b] at the next free code (41_trie.md R133). Answers
none outside the rule's precondition (log 15). -/
def State.register (s : State) (p : Code) (b : Byte) : Option State :=
  if s.nextFree < Config.resetCode ∧ p ≠ Config.rootCode then
    match s.nodeRead p with
    | none => none
    | some n =>
      some { s with
        nodes := s.nodes.write s.nextFree.toNat
          { parent := p, depth := n.depth + 1#Config.depthBits, value := b, first := n.first }
        nextFree := s.nextFree + 1#Config.wordBits }
  else none

/-- The walk of Phrase from code c to the root: `acc` holds the bytes already collected, in phrase
order. The fuel bounds the number of slots visited; only a walk on a cycle uses it up (log 15). -/
def State.phraseWalk (s : State) : Nat → Code → List Byte → Option (List Byte)
  | 0, _, _ => none
  | fuel + 1, c, acc =>
    if c = Config.rootCode then some acc
    else
      match s.nodeRead c with
      | none => none
      | some n => s.phraseWalk fuel n.parent (n.value :: acc)

/-- Phrase(c): the byte sequence of a defined code, first byte first (41_trie.md R134). There are
NODE_COUNT slots, so a walk that visits none twice ends within that many steps. -/
def State.phrase (s : State) (c : Code) : Option (List Byte) :=
  s.phraseWalk (Config.nodeCount + 1) c []

/-! ### The packer (40_packer.md R111, R112) -/

/-- The whole bytes of the n low bits of t, oldest bits first: the loop of PackWord
(40_packer.md R111). -/
def emitBytes (t : Nat) : Nat → List Byte
  | n + 8 => BitVec.ofNat 8 (t >>> n) :: emitBytes t n
  | _ => []

/-- PackWord's t: the pending bits followed by the word's WORD_BITS bits (40_packer.md R111). -/
def State.packTotal (s : State) (w : Code) : Nat :=
  s.pkAcc.toNat * 2 ^ Config.wordBits + w.toNat

/-- The bytes PackWord(w) appends to OUTW (40_packer.md R111; 20_memory.md R66). -/
def State.packedBytes (s : State) (w : Code) : List Byte :=
  emitBytes (s.packTotal w) (s.pkNbits.toNat + Config.wordBits)

/-- PackWord(w): append a word to the packer and emit every complete byte (40_packer.md R111). -/
def State.packWord (s : State) (w : Code) : State :=
  { s with
    outw := s.outw ++ s.packedBytes w
    pkAcc := BitVec.ofNat 7 (s.packTotal w % 2 ^ ((s.pkNbits.toNat + Config.wordBits) % 8))
    pkNbits := BitVec.ofNat 3 ((s.pkNbits.toNat + Config.wordBits) % 8) }

/-- The bytes PackClose() appends to OUTW: the pending bits, if any, in the high bits of a byte with
0 below (the spec's own decision, 92_eei_decisions.md D7; log 4), then the sentinel
(40_packer.md R112). -/
def State.closeBytes (s : State) : List Byte :=
  if 0#3 < s.pkNbits then
    [BitVec.ofNat 8 (s.pkAcc.toNat <<< (8 - s.pkNbits.toNat)), Config.sentinel]
  else [Config.sentinel]

/-- PackClose(): flush the pending bits and write the sentinel (40_packer.md R112). -/
def State.packClose (s : State) : State :=
  { s with outw := s.outw ++ s.closeBytes, pkAcc := 0#7, pkNbits := 0#3, pkClosed := true }

/-- A fresh bit writer (40_packer.md R110; 42_encoder.md R151). -/
def State.packFresh (s : State) : State :=
  { s with pkAcc := 0#7, pkNbits := 0#3, pkClosed := false }

/-! ### The unpacker (40_packer.md R114, R115) -/

/-- need_bytes: ceil((WORD_BITS - UP_AVAIL) / 8) (40_packer.md R114). -/
def State.needBytes (s : State) : Nat := (Config.wordBits - s.upAvail.toNat + 7) / 8

/-- IN holds fewer bytes than the next word needs. -/
def State.inShort (s : State) : Bool := decide (s.inq.length < s.needBytes)

/-- UnpackWord would hold: IN is too short and not finished (40_packer.md R114; 20_memory.md R65). -/
def State.wordHeld (s : State) : Bool := s.inShort && !s.inEnd

/-- The loop of UnpackWord: take `need` bits from the `avail` low bits of `buf`, then from IN,
popping a byte only when the buffer is empty and bits are still needed (40_packer.md R114). Answers
the value with what is left of UP_BUF, UP_AVAIL and IN. -/
def takeBits (need v : Nat) (buf : Byte) (avail : Nat) : List Byte → Nat × Byte × Nat × List Byte
  | [] =>
    let t := min need avail
    ((v <<< t) ||| ((buf.toNat >>> (avail - t)) % 2 ^ t), buf, avail - t, [])
  | b :: rest =>
    let t := min need avail
    let v' := (v <<< t) ||| ((buf.toNat >>> (avail - t)) % 2 ^ t)
    if need - t = 0 then (v', buf, avail - t, b :: rest)
    else takeBits (need - t) v' b 8 rest

/-- The word UnpackWord returns when IN holds enough bytes (40_packer.md R114). -/
def State.nextWord (s : State) : Code :=
  BitVec.ofNat Config.wordBits (takeBits Config.wordBits 0 s.upBuf s.upAvail.toNat s.inq).1

/-- The state after UnpackWord has returned a word (40_packer.md R114). -/
def State.wordTaken (s : State) : State :=
  let r := takeBits Config.wordBits 0 s.upBuf s.upAvail.toNat s.inq
  { s with upBuf := r.2.1, upAvail := BitVec.ofNat 4 r.2.2.1, inq := r.2.2.2 }

/-- TruncateWord's `got`: the bits that were available (40_packer.md R115). -/
def State.truncatedBits (s : State) : Nat := s.upAvail.toNat + 8 * s.inq.length

/-- The state TruncateWord leaves: every remaining byte taken, the partial word discarded
(40_packer.md R115). -/
def State.wordTruncated (s : State) : State :=
  { s with upBuf := s.inq.getLast?.getD s.upBuf, upAvail := 0#4, inq := [] }

/-- A fresh word reader (40_packer.md R113; 43_decoder.md R170). -/
def State.unpackFresh (s : State) : State := { s with upBuf := 0#8, upAvail := 0#4 }

/-! ### The decoded output (20_memory.md R64) -/

/-- OutD of each byte of a phrase, first to last (20_memory.md R64, R70). -/
def State.outD (s : State) (bytes : List Byte) : State := { s with outd := s.outd ++ bytes }

end Sys2Proof.Machine
end

