-- ==== Sys2Proof/Machine/Compressor.lean ====
section
/-! DEFINITION. The compressor's state machine (42_encoder.md R150 to R157). To emit a word is to
call packWord (R150). -/

namespace Sys2Proof.Machine

/-- Saturate(): the debounced reset of a miss while the code space is exhausted. Answers the number
of extra words emitted and the state (42_encoder.md R153; 90_conflicts.md C1; log 5). -/
def State.saturate (s : State) : Nat × State :=
  let s1 := { s with encSat := s.encSat + 1#10 }
  if Config.satLimit < s1.encSat then
    (1, { (s1.packWord Config.resetCode).trieReset with encSat := 0#10 })
  else (0, s1)

/-- ENC_START opens a compression session, in every mode (42_encoder.md R151). -/
def execEncStart (s : State) : Result :=
  .next ({ s.trieReset.packFresh with
    encCur := Config.rootCode, encSat := 0#10, mode := .enc }.respond 0#4 0#4 0#16)

/-- The end of a missing ENC_BYTE: move to the root's child for b and report k words
(42_encoder.md R152). -/
def encMoveToRootChild (b : Byte) (k : Nat) (s : State) : Result :=
  match s.child Config.rootCode b with
  | some c => .next ({ s with encCur := c }.respond 0#4 0#4 (BitVec.ofNat 16 k))
  | none => .fault .brokenTrie

/-- ENC_BYTE's miss: emit the code of the current position, register a node or saturate, and move to
the root's child for b (42_encoder.md R152). -/
def encMiss (b : Byte) (s : State) : Result :=
  let s1 := s.packWord s.encCur
  if s1.nextFree < Config.resetCode then
    match s1.register s1.encCur b with
    | some s2 => encMoveToRootChild b 1 s2
    | none => .fault .brokenTrie
  else
    encMoveToRootChild b (1 + s1.saturate.1) s1.saturate.2

/-- ENC_BYTE b takes one input byte into the compressor; VALUE is the number of words emitted
(42_encoder.md R152; 30_encoding.md R97). -/
def execEncByte (b : Byte) (s : State) : Result :=
  if s.mode ≠ .enc then .next (s.raise .notActive 0#16)
  else
    match s.child s.encCur b with
    | some c => .next ({ s with encCur := c }.respond 0#4 0#4 0#16)
    | none => encMiss b s

/-- ENC_CLOSE ends the compression session: the final code, EOS, pad and sentinel
(42_encoder.md R154). -/
def execEncClose (s : State) : Result :=
  if s.mode ≠ .enc then .next (s.raise .notActive 0#16)
  else
    .next ({ ((s.packWord s.encCur).packWord Config.eosCode).packClose with
      mode := .idle }.respond 0#4 0#4 2#16)

end Sys2Proof.Machine
end

