-- ==== Sys2Proof/Machine/Control.lean ====
section
/-! DEFINITION. The control and status commands (44_control.md R190 to R192). They are allowed in
every mode and never hold. -/

namespace Sys2Proof.Machine

/-- NOP does nothing but respond (44_control.md R190). -/
def execNop (s : State) : Result := .next (s.respond 0#4 0#4 0#16)

/-- RD_REG idx reads a register of the map and writes none; a reserved index is ILLEGAL
(44_control.md R191; 10_state.md R47; 30_encoding.md R92; log 18). -/
def execRdReg (idx : Code) (s : State) : Result :=
  match s.readRegister idx with
  | some v => .next (s.respond 0#4 0#4 v)
  | none => .next (s.raise .illegal 0#16)

/-- CLR_ERR clears STICKY_ERR; MODE is not changed (44_control.md R192). -/
def execClrErr (s : State) : Result :=
  .next ({ s with stickyErr := 0#4 }.respond 0#4 0#4 0#16)

end Sys2Proof.Machine
end

