-- ==== Sys2Proof/Machine/Decompressor.lean ====
section
/-! DEFINITION. The decompressor's state machine (43_decoder.md R170 to R176). The meanings of the
four stream words are what DEC_STEP does after it has checked MODE and taken the word from IN; each
of them completes the DEC_STEP with its response (log 17). -/

namespace Sys2Proof.Machine

/-- InvalidCode(w): the session stops at the first invalid code (43_decoder.md R175). -/
def State.invalidCode (s : State) (w : Code) : State :=
  { s with mode := .decErr }.raise .invalidCode (w.setWidth 16)

/-- The phrase an unknown code w = NEXT_FREE stands for: the last phrase and its own first byte
(43_decoder.md R174). -/
def State.selfPhrase (s : State) : Option (List Byte) :=
  match s.phrase s.decPrev with
  | some (x :: rest) => some ((x :: rest) ++ [x])
  | some [] => none
  | none => none

/-- ExecCode's registration: the previous phrase and the first byte of this one, if there is a
previous code and a free code (43_decoder.md R174). -/
def State.learn (s : State) (b : Byte) : Option State :=
  if s.decPrev ≠ Config.rootCode ∧ s.nextFree < Config.resetCode then s.register s.decPrev b
  else some s

/-- ExecCode after the phrase is known: register, append the phrase to OUTD, remember the code and
respond with the number of bytes (43_decoder.md R174; 30_encoding.md R97). -/
def emitPhrase (w : Code) (ph : Option (List Byte)) (s : State) : Result :=
  match ph with
  | none => .fault .brokenTrie
  | some [] => .fault .brokenTrie
  | some (x :: rest) =>
    match s.learn x with
    | none => .fault .brokenTrie
    | some s1 =>
      .next ({ s1.outD (x :: rest) with decPrev := w }.respond 0#4
        (kindOf (if w.toNat < Config.literalLimit then .lit else .dict))
        (BitVec.ofNat 16 (x :: rest).length))

/-- ExecCode(w): execute a literal or DICT word (43_decoder.md R174). -/
def execCode (w : Code) (s : State) : Result :=
  if w < s.nextFree then emitPhrase w (s.phrase w) s
  else if w = s.nextFree ∧ s.decPrev ≠ Config.rootCode then emitPhrase w s.selfPhrase s
  else .next (s.invalidCode w)

/-- LIT: ExecCode of the byte's code (30_encoding.md R81; 43_decoder.md R174). -/
def execLit (b : Byte) (s : State) : Result := execCode (b.setWidth Config.wordBits) s

/-- DICT: ExecCode of a dynamic code (30_encoding.md R81; 43_decoder.md R174). -/
def execDict (c : Code) (s : State) : Result := execCode c s

/-- RESET: ExecReset, the 256-literal trie and no previous code (43_decoder.md R173). -/
def execReset (s : State) : Result :=
  .next ({ s.trieReset with decPrev := Config.rootCode }.respond 0#4 (kindOf .reset) 0#16)

/-- EOS: ExecEOS, the end of the session (43_decoder.md R172). -/
def execEos (s : State) : Result :=
  .next ({ s with mode := .decDone }.respond 0#4 (kindOf .eos) 0#16)

/-- The execution of a stream word by its class (43_decoder.md, opening; R171). -/
def execStreamWord (w : Code) (s : State) : Result :=
  match classify w with
  | .lit => execLit (w.setWidth 8) s
  | .reset => execReset s
  | .eos => execEos s
  | .dict => execDict w s

/-- DEC_START opens a decompression session, in every mode; IN and the packer are not touched
(43_decoder.md R170; log 29). -/
def execDecStart (s : State) : Result :=
  .next ({ s.trieReset.unpackFresh with
    decPrev := Config.rootCode, mode := .dec }.respond 0#4 0#4 0#16)

/-- DEC_STEP reads one word from IN and executes it by its class (43_decoder.md R171). A truncated
word ends the session in DEC_ERR (R176). While the command holds, no state changes and no response
is delivered (20_memory.md R65; log 9). -/
def execDecStep (s : State) : Result :=
  if s.mode ≠ .dec then .next (s.raise .notActive 0#16)
  else if s.wordHeld then .next s
  else if s.inShort then
    .next ({ s.wordTruncated with mode := .decErr }.raise .truncated
      (BitVec.ofNat 16 s.truncatedBits))
  else execStreamWord s.nextWord s.wordTaken

end Sys2Proof.Machine
end

