-- ==== Sys2Proof/Machine/Packer.lean ====
section
/-! DEFINITION. The commands of the word packer (40_packer.md R110, R116, R117). The checks come in
the order BUSY, CLOSED (60_exceptions.md R206). -/

namespace Sys2Proof.Machine

/-- PK_INIT opens the packer with no pending bits; BUSY in MODE ENC (40_packer.md R110). -/
def execPkInit (s : State) : Result :=
  if s.packerOwned then .next (s.raise .busy 0#16)
  else .next (s.packFresh.respond 0#4 0#4 0#16)

/-- PK_WRITE w appends a word; VALUE is the number of bytes appended to OUTW (40_packer.md R116;
30_encoding.md R97). -/
def execPkWrite (w : Code) (s : State) : Result :=
  if s.packerOwned then .next (s.raise .busy 0#16)
  else if s.pkClosed then .next (s.raise .closed 0#16)
  else .next ((s.packWord w).respond 0#4 0#4 (BitVec.ofNat 16 (s.packedBytes w).length))

/-- PK_CLOSE flushes the pending bits and writes the sentinel; VALUE is the number of bytes appended
to OUTW (40_packer.md R117; 30_encoding.md R97). -/
def execPkClose (s : State) : Result :=
  if s.packerOwned then .next (s.raise .busy 0#16)
  else if s.pkClosed then .next (s.raise .closed 0#16)
  else .next (s.packClose.respond 0#4 0#4 (BitVec.ofNat 16 s.closeBytes.length))

end Sys2Proof.Machine
end

