-- ==== Sys2Proof/Machine/Unpacker.lean ====
section
/-! DEFINITION. The commands of the word unpacker (40_packer.md R113, R118). The checks come in the
order BUSY, hold, TRUNCATED (60_exceptions.md R206). -/

namespace Sys2Proof.Machine

/-- UP_INIT empties the unpacker's buffer; BUSY in MODE DEC. IN and IN_END are not touched
(40_packer.md R113). -/
def execUpInit (s : State) : Result :=
  if s.unpackerOwned then .next (s.raise .busy 0#16)
  else .next (s.unpackFresh.respond 0#4 0#4 0#16)

/-- UP_READ reads the next word from IN; KIND is its class and VALUE the word (40_packer.md R118;
30_encoding.md R96, R97). While the command holds, no state changes and no response is delivered
(20_memory.md R65; log 9). -/
def execUpRead (s : State) : Result :=
  if s.unpackerOwned then .next (s.raise .busy 0#16)
  else if s.wordHeld then .next s
  else if s.inShort then
    .next (s.wordTruncated.raise .truncated (BitVec.ofNat 16 s.truncatedBits))
  else
    .next (s.wordTaken.respond 0#4 (kindOf (classify s.nextWord)) (s.nextWord.setWidth 16))

end Sys2Proof.Machine
end

