-- ==== Sys2Proof/Machine/Dispatch.lean ====
section
/-! DEFINITION. One arm per instruction of spec/opcode_table.json, each a call of its meaning. -/

namespace Sys2Proof.Machine

-- The meaning of each instruction: 30_encoding.md R81 (stream words) and R89 (commands).
def exec (i : Instr) (s : State) : Host.Outcome State Fault Refusal :=
  match i with
  | .lit b => Sys2Proof.Machine.execLit b s
  | .reset => Sys2Proof.Machine.execReset s
  | .eos => Sys2Proof.Machine.execEos s
  | .dict c => Sys2Proof.Machine.execDict c s
  | .nop => Sys2Proof.Machine.execNop s
  | .pkInit => Sys2Proof.Machine.execPkInit s
  | .pkWrite w => Sys2Proof.Machine.execPkWrite w s
  | .pkClose => Sys2Proof.Machine.execPkClose s
  | .upInit => Sys2Proof.Machine.execUpInit s
  | .upRead => Sys2Proof.Machine.execUpRead s
  | .encStart => Sys2Proof.Machine.execEncStart s
  | .encByte b => Sys2Proof.Machine.execEncByte b s
  | .encClose => Sys2Proof.Machine.execEncClose s
  | .decStart => Sys2Proof.Machine.execDecStart s
  | .decStep => Sys2Proof.Machine.execDecStep s
  | .rdReg idx => Sys2Proof.Machine.execRdReg idx s
  | .clrErr => Sys2Proof.Machine.execClrErr s

end Sys2Proof.Machine
end

