-- ==== Sys2Proof/Machine/HostPort.lean ====
section
/-! DEFINITION. The host's side of the interface: its actions (70_reset_and_hazards.md R230, R236),
when a command holds (20_memory.md R65), and where the next instruction is placed. -/

namespace Sys2Proof.Machine

/-- RST: every register to its reset value with TrieReset, IN empty, IN_END clear, a holding command
abandoned with no response; what OUTW, OUTD and RESP have delivered stays delivered
(70_reset_and_hazards.md R230; log 21). -/
def State.applyReset (s : State) : State :=
  { State.reset with
    nodes := s.trieReset.nodes
    outw := s.outw
    outd := s.outd
    resp := s.resp
    host := s.host }

/-- IN_PUSH(b): ignored after IN_FINISH (20_memory.md R63; 70_reset_and_hazards.md R236). -/
def State.pushIn (s : State) (b : Byte) : State :=
  if s.inEnd then s else { s with inq := s.inq ++ [b] }

/-- One action of the host (70_reset_and_hazards.md R236). A CMD while an earlier command has no
response is a host error (93_implementation_defined.md I13; log 11). Taking output bytes changes
nothing, since OUTW and OUTD are histories (20_memory.md R64; log 12). -/
def hostAction (a : HostAction) (s : State) : Result :=
  match a with
  | .cmd w =>
    match s.cmd with
    | none => .next { s with cmd := some w }
    | some _ => .fault .commandWhilePending
  | .inPush b => .next (s.pushIn b)
  | .inFinish => .next { s with inEnd := true }
  | .inClear => .next { s with inq := [], inEnd := false }
  | .takeOutput => .next s
  | .rst => .next s.applyReset

/-- The next action of the host, if it has one: otherwise the core waits and nothing changes
(70_reset_and_hazards.md R231, R240; 93_implementation_defined.md I12; log 9). -/
def hostStep (s : State) : Result :=
  match s.host with
  | [] => .next s
  | a :: rest => hostAction a { s with host := rest }

/-- An instruction holds in a state: only UP_READ and DEC_STEP, when their mode check passes and IN
is too short and not finished (20_memory.md R65; 40_packer.md R114, R118; 43_decoder.md R171;
60_exceptions.md R206). -/
def holds (i : Instr) (s : State) : Bool :=
  match i with
  | .upRead => !s.unpackerOwned && s.wordHeld
  | .decStep => decide (s.mode = .dec) && s.wordHeld
  | .lit _ | .reset | .eos | .dict _ | .nop | .pkInit | .pkWrite _ | .pkClose | .upInit
  | .encStart | .encByte _ | .encClose | .decStart | .rdReg _ | .clrErr => false

/-- A command word holds in a state: it is legal and its instruction holds. -/
def wordHolds (w : CmdWord) (s : State) : Bool :=
  match decodeCommand w with
  | .ok i => holds i s
  | .error _ => false

/-- The two bytes a stream word fills from a byte boundary, MSB first, with zero bits after it
(20_memory.md R66). -/
def streamBytes (w : Code) : List Byte :=
  [w.extractLsb' (Config.wordBits - 8) 8,
    w.extractLsb' 0 (Config.wordBits - 8) ++ 0#(16 - Config.wordBits)]

/-- s with an encoded instruction where the next step takes it from: a command word on CMD; a stream
word at the front of IN, on a byte boundary, with a DEC_STEP on CMD and a decompression session open
to execute it (43_decoder.md R171; log 25). -/
def State.placeEncoded (s : State) (e : Encoded) : State :=
  match e with
  | .command w => { s with cmd := some w }
  | .stream w =>
    { s with
      mode := .dec
      upAvail := 0#4
      inq := streamBytes w ++ s.inq
      cmd := some (commandWord 0x21#8 noOperand) }

/-- An opcode-table row's bits as the encoding they are, truncated to the row's width. -/
def fetchEncoding (nbits w : Nat) : Encoded :=
  if nbits ≤ 16 then .stream (BitVec.ofNat Config.wordBits w) else .command (BitVec.ofNat 32 w)

end Sys2Proof.Machine
end

