-- ==== Sys2Proof/Machine/Step.lean ====
section
/-! DEFINITION. One step of the machine: the command on CMD completes, or, when there is none or it
holds, the host acts (00_scope.md R16; 20_memory.md R65, R70; log 7 to 10). -/

namespace Sys2Proof.Machine

/-- Run a command word: its instruction's meaning, or ILLEGAL for a malformed word, before any mode
check (30_encoding.md R91, R92; 60_exceptions.md R204). -/
def runCommand (w : CmdWord) (s : State) : Host.Outcome State Fault Refusal :=
  match decodeCommand w with
  | .ok i => exec i s
  | .error _ => .next (s.raise .illegal 0#16)

/-- One step. A command on CMD that does not hold completes, as one atomic step, before the host acts
again; a held command waits for the host (20_memory.md R65; 93_implementation_defined.md I12). -/
def step (s : State) : Host.Outcome State Fault Refusal :=
  match s.cmd with
  | none => hostStep s
  | some w => if wordHolds w s then hostStep s else runCommand w s

/-- s with an opcode-table row's instruction stored where step fetches its next instruction
(log 25). -/
def State.withFetchWord (s : State) (nbits w : Nat) : State :=
  s.placeEncoded (fetchEncoding nbits w)

end Sys2Proof.Machine
end

