-- ==== Sys2Proof/Machine/Assembler.lean ====
section
/-! DEFINITION. The assembler of 30_encoding.md R98 and R99: a program's lines, the pseudo-instructions
and the host actions they stand for. What the core runs is the list of host actions; the text is a
convenience of the spec (log 28, 30). -/

namespace Sys2Proof.Machine

/-- A line of a program: a command, a host action, a pseudo-instruction or nothing (R98, R99). -/
inductive AsmLine where
  /-- `MNEMONIC [operand]`. -/
  | command (opc : BitVec 8) (operand : Code)
  /-- `@IN_PUSH b1, b2, ...`. -/
  | inPush (bytes : List Byte)
  /-- `@IN_FINISH`. -/
  | inFinish
  /-- `@IN_CLEAR`. -/
  | inClear
  /-- `PK_WORDS w1, ..., wn`. -/
  | pkWords (operands : List Code)
  /-- `ENC_BYTES b1, ..., bn`. -/
  | encBytes (operands : List Code)
  /-- `COMPRESS b1, ..., bn`. -/
  | compress (operands : List Code)
  /-- `DEC_STEPS n`. -/
  | decSteps (n : Nat)
  /-- `RD_STATUS`. -/
  | rdStatus
  /-- An empty line or a comment. -/
  | empty
  deriving DecidableEq, Repr

/-- The command word of an opcode and an operand, issued on CMD (R98). -/
def issue (opc : BitVec 8) (operand : Code) : HostAction := .cmd (commandWord opc operand)

/-- The host actions a line assembles to, pseudo-instructions expanded in order (R98, R99). -/
def AsmLine.expand : AsmLine → List HostAction
  | .command opc op => [issue opc op]
  | .inPush bs => bs.map .inPush
  | .inFinish => [.inFinish]
  | .inClear => [.inClear]
  | .pkWords ws => ws.map (issue 0x02#8)
  | .encBytes bs => bs.map (issue 0x11#8)
  | .compress bs => issue 0x10#8 noOperand :: (bs.map (issue 0x11#8) ++ [issue 0x12#8 noOperand])
  | .decSteps n => List.replicate n (issue 0x21#8 noOperand)
  | .rdStatus => [issue 0x30#8 noOperand]
  | .empty => []

/-- The host actions of a program, line by line (R98). -/
def assemble (lines : List AsmLine) : List HostAction := lines.flatMap AsmLine.expand

/-- The mnemonics of R89 with their opcodes, and whether they take an operand. -/
def mnemonicTable : List (String × BitVec 8 × Bool) :=
  [("NOP", 0x00#8, false), ("PK_INIT", 0x01#8, false), ("PK_WRITE", 0x02#8, true),
   ("PK_CLOSE", 0x03#8, false), ("UP_INIT", 0x04#8, false), ("UP_READ", 0x05#8, false),
   ("ENC_START", 0x10#8, false), ("ENC_BYTE", 0x11#8, true), ("ENC_CLOSE", 0x12#8, false),
   ("DEC_START", 0x20#8, false), ("DEC_STEP", 0x21#8, false), ("RD_REG", 0x30#8, true),
   ("CLR_ERR", 0x31#8, false)]

/-- The value of one digit, hexadecimal in either case (DESIGN CHOICE; log 30). -/
def digitValue (c : Char) : Option Nat :=
  if '0' ≤ c ∧ c ≤ '9' then some (c.toNat - '0'.toNat)
  else if 'a' ≤ c ∧ c ≤ 'f' then some (c.toNat - 'a'.toNat + 10)
  else if 'A' ≤ c ∧ c ≤ 'F' then some (c.toNat - 'A'.toNat + 10)
  else none

/-- A digit string in a base, continued from `acc`. -/
def readDigits (base acc : Nat) : List Char → Option Nat
  | [] => some acc
  | c :: rest =>
    match digitValue c with
    | some d => if d < base then readDigits base (acc * base + d) rest else none
    | none => none

/-- A number: hexadecimal after `0x`, else in the base given: decimal for operands (R98), hexadecimal
for the bytes of @IN_PUSH, as 95_test_vectors.md writes them (DEDUCED; log 28). -/
def readNumber (base : Nat) : List Char → Option Nat
  | '0' :: 'x' :: d :: rest => readDigits 16 0 (d :: rest)
  | d :: rest => readDigits base 0 (d :: rest)
  | [] => none

/-- Cut a character list at every separator. -/
def splitAtChar (sep : Char) : List Char → List (List Char)
  | [] => [[]]
  | c :: rest =>
    if c = sep then [] :: splitAtChar sep rest
    else
      match splitAtChar sep rest with
      | [] => [[c]]
      | part :: parts => (c :: part) :: parts

/-- A blank: space, tab or carriage return. R98 does not say what separates the parts of a line
(DESIGN CHOICE; log 30). -/
def isBlank (c : Char) : Bool := c = ' ' || c = '\t' || c = '\r'

/-- A character list without blanks at its ends. -/
def trimBlanks (cs : List Char) : List Char :=
  ((cs.dropWhile isBlank).reverse.dropWhile isBlank).reverse

/-- A comma-separated operand list, blanks around its commas allowed. An empty text is the empty list
(DESIGN CHOICE; log 30). -/
def readOperands (base : Nat) (cs : List Char) : Option (List Nat) :=
  if trimBlanks cs = [] then some []
  else (splitAtChar ',' cs).mapM fun part => readNumber base (trimBlanks part)

/-- Operands that fit a number of bits. -/
def fitOperands (width : Nat) (ns : List Nat) : Option (List (BitVec width)) :=
  ns.mapM fun n => if n < 2 ^ width then some (BitVec.ofNat width n) else none

/-- A command line from its mnemonic and operands (R98): exactly one operand where the command takes
one, none otherwise. -/
def readCommand (name : List Char) (ns : List Nat) : Option AsmLine :=
  match mnemonicTable.find? (fun row => row.1.toList = name) with
  | none => none
  | some (_, opc, takesOperand) =>
    match takesOperand, fitOperands Config.wordBits ns with
    | true, some [op] => some (.command opc op)
    | false, some [] => some (.command opc noOperand)
    | _, _ => none

/-- A line from its first word and the text after it (R98, R99). The lists of @IN_PUSH, PK_WORDS,
ENC_BYTES and COMPRESS may be empty, and n of DEC_STEPS may be 0: R98 and R99 do not say
(DESIGN CHOICE; log 30). -/
def readStatement (name rest : List Char) : Option AsmLine :=
  if name = "@IN_PUSH".toList then
    ((readOperands 16 rest).bind (fitOperands 8)).map .inPush
  else
    match readOperands 10 rest with
    | none => none
    | some ns =>
      if name = "@IN_FINISH".toList then (if ns = [] then some .inFinish else none)
      else if name = "@IN_CLEAR".toList then (if ns = [] then some .inClear else none)
      else if name = "PK_WORDS".toList then (fitOperands Config.wordBits ns).map .pkWords
      else if name = "ENC_BYTES".toList then (fitOperands Config.wordBits ns).map .encBytes
      else if name = "COMPRESS".toList then (fitOperands Config.wordBits ns).map .compress
      else if name = "DEC_STEPS".toList then
        match ns with
        | [n] => some (.decSteps n)
        | [] | _ :: _ :: _ => none
      else if name = "RD_STATUS".toList then (if ns = [] then some .rdStatus else none)
      else readCommand name ns

/-- One line of text: text after `;` is a comment, an empty line is a line; none for a line that is
none of R98's (R98, R99). One blank or more separate the first word from the rest, and blanks at the
ends of a line count for nothing (DESIGN CHOICE; log 30). -/
def readLine (line : List Char) : Option AsmLine :=
  let text := trimBlanks (line.takeWhile (fun c => decide (c ≠ ';')))
  if text = [] then some .empty
  else readStatement (text.takeWhile (fun c => !isBlank c)) (text.dropWhile (fun c => !isBlank c))

/-- A program text to its host actions (R98); none where any line is malformed (DESIGN CHOICE;
log 30). -/
def assembleText (text : String) : Option (List HostAction) :=
  ((splitAtChar '\n' text.toList).mapM readLine).map assemble

end Sys2Proof.Machine
end

