-- ==== Sys2Proof/Safety.lean ====
section
/-! DEFINITION. What the statements speak of: the invariants of 10_state.md R55, the outcomes that
count as safe, and runs of instructions. -/

namespace Sys2Proof.Machine

/-- R55 (a): PK_ACC < 2^PK_NBITS and PK_NBITS is 0, 2, 4 or 6. -/
def State.PackerInv (s : State) : Prop :=
  s.pkAcc.toNat < 2 ^ s.pkNbits.toNat ∧ s.pkNbits.toNat % 2 = 0

/-- R55 (b): UP_AVAIL is 0, 2, 4 or 6. -/
def State.UnpackerInv (s : State) : Prop := s.upAvail.toNat ≤ 6 ∧ s.upAvail.toNat % 2 = 0

/-- R55 (c): NEXT_FREE is between 0x100 and 0x3FFE. -/
def State.NextFreeInv (s : State) : Prop :=
  Config.firstDyn ≤ s.nextFree ∧ s.nextFree ≤ Config.resetCode

/-- R55 (d) while a compression session is open, and R41's range of ENC_SAT. The spec says (d) of
every state, which its own commands contradict (log 20). -/
def State.SaturationInv (s : State) : Prop :=
  s.encSat ≤ Config.satLimit ∧
    (s.mode = .enc → s.nextFree < Config.resetCode → s.encSat = 0#10)

/-- R55 (e) while a compression session is open (log 20). -/
def State.EncCurInv (s : State) : Prop :=
  s.mode = .enc → s.encCur = Config.rootCode ∨ s.encCur < s.nextFree

/-- R55 (f) while a decompression session is open (log 20). -/
def State.DecPrevInv (s : State) : Prop :=
  s.mode = .dec → s.decPrev = Config.rootCode ∨ s.decPrev < s.nextFree

/-- The literal slots hold the literal nodes (41_trie.md R131). -/
def State.LiteralInv (s : State) : Prop :=
  ∀ c, c < Config.literalLimit → s.nodes.read c = some (literalNode c)

/-- R55 (g): a defined dynamic node's parent has a lower code, it is one byte deeper than its parent
and has its first byte. -/
def State.DynamicInv (s : State) : Prop :=
  ∀ c : Code, Config.firstDyn ≤ c → c < s.nextFree →
    ∃ n m, s.nodeRead c = some n ∧ n.parent < c ∧ s.nodeRead n.parent = some m ∧
      n.depth.toNat = m.depth.toNat + 1 ∧ n.first = m.first

/-- R55 (h): the packer is open while a compression session is. -/
def State.OpenInv (s : State) : Prop := s.mode = .enc → s.pkClosed = false

/-- STICKY_ERR holds an error code of 60_exceptions.md R200. -/
def State.StickyInv (s : State) : Prop := s.stickyErr ≤ 6#4

/-- The invariant of the machine: R55 with (d), (e) and (f) for the session they belong to, the
literal nodes, the arena's canonical form and the range of STICKY_ERR. -/
structure State.Inv (s : State) : Prop where
  packer : s.PackerInv
  unpacker : s.UnpackerInv
  nextFree : s.NextFreeInv
  saturation : s.SaturationInv
  encCur : s.EncCurInv
  decPrev : s.DecPrevInv
  literals : s.LiteralInv
  dynamics : s.DynamicInv
  packerOpen : s.OpenInv
  sticky : s.StickyInv
  arena : s.nodes.wf = true

/-- R137: no two defined nodes share parent and last byte, in a trie only the compressor built. -/
def State.ChildrenUnique (s : State) : Prop :=
  ∀ c d : Code, ∀ n m, s.nodeRead c = some n → s.nodeRead d = some m →
    n.parent = m.parent → n.value = m.value → c = d

/-- An outcome without the fault of a broken trie. -/
def TrieSafe (r : Result) : Prop := r ≠ .fault .brokenTrie

/-- Two states of which one can stand for the other: both arenas in canonical form, NEXT_FREE in its
range, and no difference but in arena slots that are not defined (10_state.md R44, R56;
20_memory.md R61; 93_implementation_defined.md I3). -/
def State.SameButStale (s t : State) : Prop :=
  { s with nodes := [] } = { t with nodes := [] } ∧ s.nodes.wf = true ∧ t.nodes.wf = true ∧
    s.NextFreeInv ∧ ∀ c : Code, s.nodeRead c = t.nodeRead c

/-- 10_state.md R55 (d), (e) and (f) as the rule words them, of every state and not only of the
session they belong to. The commands' own rules contradict this reading (log 20). -/
def State.SessionInvAsWorded (s : State) : Prop :=
  (s.nextFree < Config.resetCode → s.encSat = 0#10) ∧
    (s.encCur = Config.rootCode ∨ s.encCur < s.nextFree) ∧
    (s.decPrev = Config.rootCode ∨ s.decPrev < s.nextFree)

/-- The n low bits of v, most significant first (20_memory.md R66). -/
def msbBits : Nat → Nat → List Bool
  | 0, _ => []
  | n + 1, v => v.testBit n :: msbBits n v

/-- The bits of a byte sequence in stream order (20_memory.md R66). -/
def streamBits (bytes : List Byte) : List Bool := bytes.flatMap fun b => msbBits 8 b.toNat

/-- The bits of a word sequence in stream order (20_memory.md R66). -/
def wordStreamBits (ws : List Code) : List Bool :=
  ws.flatMap fun w => msbBits Config.wordBits w.toNat

/-- The opcodes of 30_encoding.md R89. -/
def legalOpcodes : List (BitVec 8) :=
  [0x00#8, 0x01#8, 0x02#8, 0x03#8, 0x04#8, 0x05#8, 0x10#8, 0x11#8, 0x12#8, 0x20#8, 0x21#8,
   0x30#8, 0x31#8]

/-- A command word is illegal: an unknown OPC, RSV not 0, or a broken operand constraint
(30_encoding.md R90, R91), each field read at its bits (R88). -/
def IllegalCommandWord (w : CmdWord) : Prop :=
  let opc := w.extractLsb' 24 8
  let rsv := w.extractLsb' 14 10
  let op := w.extractLsb' 0 14
  opc ∉ legalOpcodes ∨ rsv ≠ 0#10 ∨ (opc = 0x11#8 ∧ op.extractLsb' 8 6 ≠ 0#6) ∨
    (opc = 0x30#8 ∧ 6#14 < op) ∨ (opc ∉ [0x02#8, 0x11#8, 0x30#8] ∧ op ≠ 0#14)

/-- s with a response word delivered and no command left without a response (00_scope.md R16). -/
def State.delivered (s : State) (r : RespWord) : State :=
  { s with resp := s.resp ++ [r], cmd := none }

/-- s after an error response that changed nothing else: ERR e, the first error kept in STICKY_ERR
(60_exceptions.md R201, R202). -/
def State.failed (s : State) (e : BitVec 4) (r : RespWord) : State :=
  { s with stickyErr := if s.stickyErr = 0#4 then e else s.stickyErr }.delivered r

/-- RESP.ERR, bits [31:28] of a response (30_encoding.md R95). -/
def errField (r : RespWord) : BitVec 4 := r.extractLsb' 28 4

/-- RESP.KIND, bits [27:24] of a response (30_encoding.md R95). -/
def kindField (r : RespWord) : BitVec 4 := r.extractLsb' 24 4

/-- RESP.VALUE, bits [15:0] of a response (30_encoding.md R95). -/
def valueField (r : RespWord) : BitVec 16 := r.extractLsb' 0 16

/-- IN holds enough bytes for the next 14-bit word: the unconsumed bits of UP_BUF and eight a byte
(40_packer.md R114). -/
def State.wordReady (s : State) : Prop :=
  Config.wordBits ≤ s.upAvail.toNat + 8 * s.inq.length

/-- The bits the unpacker still has to give, first one first: the low UP_AVAIL bits of UP_BUF, then
the bytes of IN (40_packer.md R114; 20_memory.md R66). -/
def State.pendingInput (s : State) : List Bool :=
  (msbBits 8 s.upBuf.toNat).drop (8 - s.upAvail.toNat) ++ streamBits s.inq

/-- The registration of ExecCode (43_decoder.md R174): with a previous code and a free code, arena m
and next free code nf are s's with the node (previous phrase) ++ [x] at NEXT_FREE; otherwise they are
s's. -/
def State.Learned (s : State) (x : Byte) (m : Memory) (nf : Code) : Prop :=
  if s.decPrev ≠ Config.rootCode ∧ s.nextFree < Config.resetCode then
    nf = s.nextFree + 1#Config.wordBits ∧ ∃ p, s.nodeRead s.decPrev = some p ∧
      ∀ k, Memory.read m k =
        if k = s.nextFree.toNat then
          some { parent := s.decPrev, depth := p.depth + 1#Config.depthBits, value := x,
                 first := p.first }
        else s.nodes.read k
  else nf = s.nextFree ∧ m = s.nodes

/-- A stream word that the decompressor can execute: a control code, a code with a known phrase, or
the phrase about to be created (43_decoder.md R174, R175). -/
def State.decodable (s : State) (w : Code) : Prop :=
  Config.resetCode ≤ w ∨ w < s.nextFree ∨ (w = s.nextFree ∧ s.decPrev ≠ Config.rootCode)

/-- Instructions run one after another, stopping at the first outcome that is no next state. -/
def execAll : List Instr → State → Result
  | [], s => .next s
  | i :: rest, s =>
    match exec i s with
    | .next s' => execAll rest s'
    | .fault r => .fault r
    | .refused r => .refused r

/-- A held command that the host will not release: a hang (70_reset_and_hazards.md R240). -/
def State.hung (s : State) : Bool :=
  match s.cmd with
  | none => false
  | some w => wordHolds w s && s.host.isEmpty

end Sys2Proof.Machine
end

