-- ==== Sys2Proof/Certificates/Slice0/Obligations.lean ====
section
/-! DEFINITION. The statements about the codec core, for the provers. Each docstring names the rule
of spec/ it formalises; OBLIGATIONS.json lists them in this order. -/

open Sys2Proof Sys2Proof.Machine

/-! ### Encodings (30_encoding.md) -/

/-- Decode inverts encode for every well-formed instruction of both instruction sets
(30_encoding.md R81, R88 to R92). -/
def Obligations.DecodeInvertsEncode : Prop :=
  ∀ i : Instr, i.wf = true → decode (encode i) = .ok i

/-- Encode inverts decode: what decodes is well-formed and has one encoding only (30_encoding.md R82,
R91). -/
def Obligations.EncodeInvertsDecode : Prop :=
  ∀ (e : Encoded) (i : Instr), decode e = .ok i → i.wf = true ∧ encode i = e

/-- The class of a word is that of R81's value ranges, and KIND codes it as R96 says. -/
def Obligations.WordClassFollowsValue : Prop :=
  ∀ w : Code,
    (classify w = .lit ↔ w.toNat ≤ 0xFF) ∧
    (classify w = .reset ↔ w.toNat = 0x3FFE) ∧
    (classify w = .eos ↔ w.toNat = 0x3FFF) ∧
    (classify w = .dict ↔ 0x100 ≤ w.toNat ∧ w.toNat ≤ 0x3FFD) ∧
    kindOf .lit = 0#4 ∧ kindOf .dict = 1#4 ∧ kindOf .reset = 2#4 ∧ kindOf .eos = 3#4

/-- A few words of 95_test_vectors.md 2.6 and R81 decode to the instruction they stand for. -/
def Obligations.SpecWordsDecode : Prop :=
  decode (.command 0x00000000#32) = .ok .nop ∧
  decode (.command 0x11000041#32) = .ok (.encByte 0x41#8) ∧
  decode (.command 0x02003FFF#32) = .ok (.pkWrite 0x3FFF#14) ∧
  decode (.command 0x30000006#32) = .ok (.rdReg 6#14) ∧
  decode (.command 0x21000000#32) = .ok .decStep ∧
  decode (.command 0x02004000#32) = .error .reservedBits ∧
  decode (.command 0x30000007#32) = .error .indexOperand ∧
  decode (.stream 0x0001#14) = .ok (.lit 0x01#8) ∧
  decode (.stream 0x0101#14) = .ok (.dict 0x0101#14) ∧
  decode (.stream 0x3FFE#14) = .ok .reset ∧
  decode (.stream 0x3FFF#14) = .ok .eos

/-- A response word is {ERR, KIND, 0x00, VALUE} (R95). -/
def Obligations.ResponseWordLayout : Prop :=
  ∀ (e k : BitVec 4) (v : BitVec 16),
    (respWord e k v).toNat = e.toNat * 2 ^ 28 + k.toNat * 2 ^ 24 + v.toNat

/-- The pseudo-instructions expand as R99 says, to the command words of R88 (PK_WORDS, ENC_BYTES,
COMPRESS, DEC_STEPS, RD_STATUS). -/
def Obligations.PseudoInstructionsExpand : Prop :=
  ∀ (ops : List Code) (n : Nat),
    (AsmLine.pkWords ops).expand =
      ops.map (fun w => .cmd (0x02000000#32 + w.setWidth 32)) ∧
    (AsmLine.encBytes ops).expand =
      ops.map (fun b => .cmd (0x11000000#32 + b.setWidth 32)) ∧
    (AsmLine.compress ops).expand =
      [.cmd 0x10000000#32] ++ ops.map (fun b => .cmd (0x11000000#32 + b.setWidth 32)) ++
        [.cmd 0x12000000#32] ∧
    (AsmLine.decSteps n).expand = List.replicate n (.cmd 0x21000000#32) ∧
    AsmLine.rdStatus.expand = [.cmd 0x30000000#32]

/-! ### Steps: commands and the host (20_memory.md, 70_reset_and_hazards.md) -/

/-- A step runs the decoded command: if the word on CMD decodes to i and i does not hold, the step
is exec of i at that state. If i holds, exec of i changes nothing and the step is the host's. -/
def Obligations.StepRunsDecodedCommand : Prop :=
  ∀ (s : State) (w : CmdWord) (i : Instr), s.cmd = some w → decode (.command w) = .ok i →
    (holds i s = false → step s = exec i s) ∧
    (holds i s = true → exec i s = .next s ∧ step s = hostStep s)

/-- An instruction placed where the machine fetches is the instruction the next step runs: a command
from CMD, or a stream word from a byte boundary of IN under DEC_STEP, which leaves the second byte
in UP_BUF with two bits (43_decoder.md R171; 20_memory.md R66). The placing is the model's (log 25). -/
def Obligations.PlacedInstructionRuns : Prop :=
  ∀ (s : State) (i : Instr), i.wf = true →
    (∀ w, encode i = .command w → holds i (s.placeEncoded (encode i)) = false →
      step (s.placeEncoded (encode i)) = exec i { s with cmd := some w }) ∧
    (∀ w, encode i = .stream w →
      step (s.placeEncoded (encode i)) =
        exec i { s with mode := .dec, upBuf := w.setWidth 8 <<< 2, upAvail := 2#4,
                        cmd := some 0x21000000#32 })

/-- An illegal command word completes with ILLEGAL and changes no state except STICKY_ERR; every
other word is some well-formed command (R91). -/
def Obligations.IllegalWordsOnlyReport : Prop :=
  ∀ (s : State) (w : CmdWord), s.cmd = some w →
    (IllegalCommandWord w → step s = .next (s.failed 1#4 0x10000000#32)) ∧
    (¬ IllegalCommandWord w → ∃ i, decode (.command w) = .ok i ∧ i.wf = true)

/-- A held command waits: while IN is short and IN_END is 0, UP_READ and DEC_STEP change nothing,
and with no action of the host left the step changes nothing either (R65; 93 I12; log 9). -/
def Obligations.HeldCommandWaits : Prop :=
  ∀ s : State, ¬ s.wordReady → s.inEnd = false →
    (s.mode ≠ .dec → exec .upRead s = .next s) ∧
    (s.mode = .dec → exec .decStep s = .next s) ∧
    (s.mode ≠ .dec → s.cmd = some 0x05000000#32 → s.host = [] → step s = .next s) ∧
    (s.mode = .dec → s.cmd = some 0x21000000#32 → s.host = [] → step s = .next s)

/-- The host's actions on IN while the core waits or a command holds (R63, R236). -/
def Obligations.HostActsOnInput : Prop :=
  ∀ (s : State) (rest : List HostAction),
    (s.cmd = none ∨ ∃ w, s.cmd = some w ∧ wordHolds w s = true) →
    (∀ b, s.host = .inPush b :: rest → s.inEnd = false →
      step s = .next { s with host := rest, inq := s.inq ++ [b] }) ∧
    (∀ b, s.host = .inPush b :: rest → s.inEnd = true → step s = .next { s with host := rest }) ∧
    (s.host = .inFinish :: rest → step s = .next { s with host := rest, inEnd := true }) ∧
    (s.host = .inClear :: rest →
      step s = .next { s with host := rest, inq := [], inEnd := false }) ∧
    (s.host = .takeOutput :: rest → step s = .next { s with host := rest })

/-- A CMD is taken when no command waits for its response; while one holds, it is a host error
(R236; 93 I13). Both forms are the model's choices: that the CMD action only puts the word on CMD and
the next step runs it with its one response (log 8), and that the host error is a fault (log 11). -/
def Obligations.HostIssuesOneCommand : Prop :=
  ∀ (s : State) (w : CmdWord) (rest : List HostAction), s.host = .cmd w :: rest →
    (s.cmd = none → step s = .next { s with host := rest, cmd := some w }) ∧
    (∀ v, s.cmd = some v → wordHolds v s = true → step s = .fault .commandWhilePending)

/-- RST gives every register its value of R54, restores the literal nodes, empties IN, abandons a
holding command and keeps what was delivered (R230). That stale slots keep their content is the
model's choice (log 21). -/
def Obligations.RstRestoresResetValues : Prop :=
  ∀ (s : State) (rest : List HostAction), s.nodes.wf = true → s.host = .rst :: rest →
    (s.cmd = none ∨ ∃ w, s.cmd = some w ∧ wordHolds w s = true) →
    ∃ m, step s = .next
        { mode := .idle, pkAcc := 0#7, pkNbits := 0#3, pkClosed := false, upBuf := 0#8,
          upAvail := 0#4, nextFree := 0x100#14, nodes := m, encCur := 0x3FFE#14, encSat := 0#10,
          decPrev := 0x3FFE#14, stickyErr := 0#4, inq := [], inEnd := false, outw := s.outw,
          outd := s.outd, resp := s.resp, cmd := none, host := rest } ∧
      ∀ k, Memory.read m k = if k < 0x100 then some (literalNode k) else s.nodes.read k

/-- The values R54 gives for reset, the literal nodes of R131 among them, and STATUS = 0x0020
(R48). -/
def Obligations.ResetValues : Prop :=
  State.reset.mode = .idle ∧ State.reset.pkAcc = 0#7 ∧ State.reset.pkNbits = 0#3 ∧
  State.reset.pkClosed = false ∧ State.reset.upBuf = 0#8 ∧ State.reset.upAvail = 0#4 ∧
  State.reset.nextFree = 0x100#14 ∧ State.reset.encCur = 0x3FFE#14 ∧ State.reset.encSat = 0#10 ∧
  State.reset.decPrev = 0x3FFE#14 ∧ State.reset.stickyErr = 0#4 ∧ State.reset.inq = [] ∧
  State.reset.inEnd = false ∧ State.reset.status = 0x0020#16 ∧
  (∀ b : Byte, State.reset.nodeRead (b.setWidth Config.wordBits) =
    some { parent := 0x3FFE#14, depth := 1#14, value := b, first := b })

/-! ### Control and status (44_control.md) -/

/-- NOP only responds; CLR_ERR clears STICKY_ERR and nothing else (R190, R192). -/
def Obligations.NopAndClrErrComplete : Prop :=
  ∀ s : State,
    exec .nop s = .next (s.delivered 0x00000000#32) ∧
    exec .clrErr s = .next ({ s with stickyErr := 0#4 }.delivered 0x00000000#32)

/-- RD_REG reads the map of R47 and R48 and writes no register (R191): each index's VALUE, bit by
bit. -/
def Obligations.RdRegReadsTheMap : Prop :=
  ∀ s : State, ∃ v : Fin 7 → BitVec 16,
    (∀ k : Fin 7, exec (.rdReg (BitVec.ofNat Config.wordBits k)) s =
      .next (s.delivered (respWord 0#4 0#4 (v k)))) ∧
    (v 0).toNat =
      (match s.mode with | .idle => 0 | .enc => 1 | .dec => 2 | .decDone => 3 | .decErr => 4) +
        8 * s.pkClosed.toNat + 16 * s.inEnd.toNat + 32 * (decide (s.inq = [])).toNat +
        256 * s.stickyErr.toNat ∧
    (v 1).toNat = s.nextFree.toNat ∧
    (v 2).toNat = s.encCur.toNat ∧
    (v 3).toNat = s.encSat.toNat ∧
    (v 4).toNat = s.decPrev.toNat ∧
    (v 5).toNat = s.pkAcc.toNat + 256 * s.pkNbits.toNat ∧
    (v 6).toNat = s.upBuf.toNat + 256 * s.upAvail.toNat

/-- RD_REG with an index of 7 to 0x3FFF fails with ILLEGAL (R47). As a command word it is refused by
the decoder already (IllegalWordsOnlyReport); this is the meaning of the ill-formed term (log 18). -/
def Obligations.RdRegReservedIndexFails : Prop :=
  ∀ (s : State) (idx : Code), 6#14 < idx →
    exec (.rdReg idx) s = .next (s.failed 1#4 0x10000000#32)

/-! ### Packer (40_packer.md) -/

/-- PackWord appends the word MSB first: the pending bits and the word's 14 bits are the bits of the
bytes emitted followed by the new pending bits, one byte is emitted when PK_NBITS was 0 or 1 and two
otherwise, and nothing else changes (R111, R66). -/
def Obligations.PackWordEmitsMsbFirst : Prop :=
  ∀ (s : State) (w : Code), s.pkAcc.toNat < 2 ^ s.pkNbits.toNat →
    ∃ bytes acc nbits,
      s.packWord w = { s with outw := s.outw ++ bytes, pkAcc := acc, pkNbits := nbits } ∧
      msbBits s.pkNbits.toNat s.pkAcc.toNat ++ msbBits 14 w.toNat =
        streamBits bytes ++ msbBits nbits.toNat acc.toNat ∧
      acc.toNat < 2 ^ nbits.toNat ∧
      nbits.toNat = (s.pkNbits.toNat + 14) % 8 ∧
      bytes.length = if s.pkNbits.toNat ≤ 1 then 1 else 2

/-- PackClose flushes the pending bits to the high bits of a byte with 0 below, writes the sentinel
00, and closes the packer (R112). That the pad is 0 is the spec's own choice (log 4). -/
def Obligations.PackCloseFlushes : Prop :=
  ∀ s : State, s.pkAcc.toNat < 2 ^ s.pkNbits.toNat →
    ∃ bytes,
      s.packClose = { s with outw := s.outw ++ bytes ++ [0x00#8], pkAcc := 0#7, pkNbits := 0#3,
                             pkClosed := true } ∧
      (s.pkNbits.toNat = 0 → bytes = []) ∧
      (0 < s.pkNbits.toNat →
        ∃ b : Byte, bytes = [b] ∧ b.toNat = s.pkAcc.toNat * 2 ^ (8 - s.pkNbits.toNat))

/-- PK_INIT opens the packer with no pending bits, outside a compression session (R110). -/
def Obligations.PkInitOpensPacker : Prop :=
  ∀ s : State, s.mode ≠ .enc →
    exec .pkInit s =
      .next ({ s with pkAcc := 0#7, pkNbits := 0#3, pkClosed := false }.delivered 0x00000000#32)

/-- PK_WRITE packs its word and PK_CLOSE closes, outside a compression session and while the packer
is open; VALUE is the number of bytes appended to OUTW (R116, R117, R97). -/
def Obligations.PkWriteAndCloseComplete : Prop :=
  ∀ s : State, s.mode ≠ .enc → s.pkClosed = false →
    (∀ w : Code, exec (.pkWrite w) s =
      .next ((s.packWord w).delivered
        (if s.pkNbits.toNat ≤ 1 then 0x00000001#32 else 0x00000002#32))) ∧
    exec .pkClose s =
      .next (s.packClose.delivered
        (if s.pkNbits.toNat = 0 then 0x00000001#32 else 0x00000002#32))

/-- From PK_INIT, PK_WRITE w1 .. wn and PK_CLOSE append ceil(14 n / 8) + 1 bytes to OUTW: the words'
bits MSB first, pad bits of 0, and a last byte 00 (R119 (a), (c)). -/
def Obligations.PackedStreamLayout : Prop :=
  ∀ (s : State) (ws : List Code), s.mode ≠ .enc →
    ∃ t bytes, execAll (.pkInit :: ws.map .pkWrite ++ [.pkClose]) s = .next t ∧
      t.outw = s.outw ++ bytes ++ [0x00#8] ∧
      bytes.length = (14 * ws.length + 7) / 8 ∧
      streamBits bytes =
        wordStreamBits ws ++ List.replicate (8 * bytes.length - 14 * ws.length) false

/-- Packing and unpacking are inverse: the bytes of PK_INIT, PK_WRITE w1 .. wn, PK_CLOSE, pushed to
an empty IN, are read back by UP_INIT and n UP_READs as w1 .. wn in order, which leaves the sentinel
in IN (R119 (b)). -/
def Obligations.UnpackInvertsPack : Prop :=
  ∀ (s : State) (ws : List Code), s.mode ≠ .enc → s.mode ≠ .dec →
    ∃ t packed u, execAll (.pkInit :: ws.map .pkWrite ++ [.pkClose]) s = .next t ∧
      t.outw = s.outw ++ packed ∧
      execAll (.upInit :: List.replicate ws.length .upRead) { t with inq := packed } = .next u ∧
      u.resp = t.resp ++ 0x00000000#32 ::
        ws.map (fun w => respWord 0#4 (kindOf (classify w)) (w.setWidth 16)) ∧
      u.inq = [0x00#8] ∧ u.upAvail.toNat < 8

/-! ### Unpacker (40_packer.md) -/

/-- UP_INIT empties the unpacker's buffer outside a decompression session; IN and IN_END are not
touched (R113). -/
def Obligations.UpInitEmptiesBuffer : Prop :=
  ∀ s : State, s.mode ≠ .dec →
    exec .upInit s = .next ({ s with upBuf := 0#8, upAvail := 0#4 }.delivered 0x00000000#32)

/-- UP_READ returns the next 14 bits MSB first: the pending input is the word's bits followed by what
is pending after it, exactly the bytes needed are taken from IN, UP_BUF is the last byte taken, and
nothing else changes (R114, R118). -/
def Obligations.UpReadTakesNextWord : Prop :=
  ∀ s : State, s.mode ≠ .dec → s.upAvail.toNat ≤ 8 → s.wordReady →
    ∃ (w : Code) (buf : Byte) (avail : BitVec 4) (taken : List Byte) (rest : List Byte),
      exec .upRead s =
        .next ({ s with upBuf := buf, upAvail := avail, inq := rest }.delivered
          (respWord 0#4 (kindOf (classify w)) (w.setWidth 16))) ∧
      s.inq = taken ++ rest ∧ taken.length = (14 - s.upAvail.toNat + 7) / 8 ∧
      taken.getLast? = some buf ∧
      s.upAvail.toNat + 8 * taken.length = 14 + avail.toNat ∧
      s.pendingInput =
        msbBits 14 w.toNat ++ (msbBits 8 buf.toNat).drop (8 - avail.toNat) ++ streamBits rest

/-- UP_READ and DEC_STEP when IN ends inside a word: the remaining bytes are taken, UP_AVAIL becomes
0, and the command fails with TRUNCATED and the number of bits obtained; under DEC_STEP, MODE becomes
DEC_ERR too (R115, R118, R176). -/
def Obligations.TruncatedWordFails : Prop :=
  ∀ s : State, ¬ s.wordReady → s.inEnd = true →
    (s.mode ≠ .dec → exec .upRead s =
      .next ({ s with upBuf := (s.inq.getLast?).getD s.upBuf, upAvail := 0#4, inq := [] }.failed
        6#4 (respWord 6#4 0#4 (BitVec.ofNat 16 (s.upAvail.toNat + 8 * s.inq.length))))) ∧
    (s.mode = .dec → exec .decStep s =
      .next ({ s with upBuf := (s.inq.getLast?).getD s.upBuf, upAvail := 0#4, inq := [],
                      mode := .decErr }.failed
        6#4 (respWord 6#4 0#4 (BitVec.ofNat 16 (s.upAvail.toNat + 8 * s.inq.length)))))

/-! ### The dictionary (41_trie.md) -/

/-- TrieReset restores the 256 literal nodes and NEXT_FREE = 0x100, writes no dynamic slot and makes
every dynamic code undefined (R131; 20_memory.md R62). -/
def Obligations.TrieResetRestoresLiterals : Prop :=
  ∀ s : State, s.nodes.wf = true →
    ∃ m, s.trieReset = { s with nodes := m, nextFree := 0x100#14 } ∧ m.wf = true ∧
      (∀ k, Memory.read m k = if k < 0x100 then some (literalNode k) else s.nodes.read k) ∧
      (∀ c : Code, 0x100#14 ≤ c → s.trieReset.nodeRead c = none)

/-- Child(p, b) is the least defined code with parent p and value b, and none if there is no such
code (R132). -/
def Obligations.ChildIsLeastMatch : Prop :=
  ∀ (s : State) (p : Code) (b : Byte),
    (∀ c, s.child p b = some c ↔
      (∃ n, s.nodeRead c = some n ∧ n.parent = p ∧ n.value = b) ∧
        ∀ d, d < c → ¬ ∃ n, s.nodeRead d = some n ∧ n.parent = p ∧ n.value = b) ∧
    (s.child p b = none ↔ ¬ ∃ c n, s.nodeRead c = some n ∧ n.parent = p ∧ n.value = b)

/-- Child(ROOT, b) = b for every byte b (R132). -/
def Obligations.RootChildIsLiteral : Prop :=
  ∀ (s : State) (b : Byte), s.Inv → s.child Config.rootCode b = some (b.setWidth Config.wordBits)

/-- Register(p, b) writes the node {p, depth(p) + 1, b, first(p)} at NEXT_FREE, changes no other
slot, and adds 1 to NEXT_FREE; the new code's phrase is p's phrase and b (R133). -/
def Obligations.RegisterAddsNode : Prop :=
  ∀ (s : State) (p : Code) (b : Byte), s.Inv → s.nextFree < 0x3FFE#14 → p < s.nextFree →
    ∃ n m t ph, s.nodeRead p = some n ∧ s.register p b = some t ∧
      t = { s with nodes := m, nextFree := s.nextFree + 1#Config.wordBits } ∧
      (∀ k, Memory.read m k =
        if k = s.nextFree.toNat then
          some { parent := p, depth := n.depth + 1#Config.depthBits, value := b, first := n.first }
        else s.nodes.read k) ∧
      s.phrase p = some ph ∧ t.phrase s.nextFree = some (ph ++ [b]) ∧
      ∀ c, c < s.nextFree → t.phrase c = s.phrase c

/-- Every defined code has a phrase, and its node holds the phrase's length, first byte and last
byte; its parent's phrase is the phrase without its last byte; the length is at most 16127
(R134, R135, R136). -/
def Obligations.PhraseMatchesNode : Prop :=
  ∀ (s : State) (c : Code), s.Inv → c < s.nextFree →
    ∃ n ph, s.nodeRead c = some n ∧ s.phrase c = some (ph ++ [n.value]) ∧
      (ph ++ [n.value]).head? = some n.first ∧ n.depth.toNat = ph.length + 1 ∧
      n.depth.toNat ≤ 16127 ∧ s.phrase n.parent = some ph

/-! ### Compressor (42_encoder.md) -/

/-- ENC_START opens a compression session in every mode: the reset trie, the root, ENC_SAT 0 and a
fresh packer; nothing else changes (R151). -/
def Obligations.EncStartOpensSession : Prop :=
  ∀ s : State, s.nodes.wf = true →
    ∃ m, exec .encStart s =
        .next ({ s with nodes := m, nextFree := 0x100#14, encCur := 0x3FFE#14, encSat := 0#10,
                        pkAcc := 0#7, pkNbits := 0#3, pkClosed := false,
                        mode := .enc }.delivered 0x00000000#32) ∧
      ∀ k, Memory.read m k = if k < 0x100 then some (literalNode k) else s.nodes.read k

/-- ENC_BYTE descends when the current position has a child for b: only ENC_CUR changes and no word
is emitted (R152). -/
def Obligations.EncByteDescends : Prop :=
  ∀ (s : State) (b : Byte) (c : Code), s.mode = .enc → s.child s.encCur b = some c →
    exec (.encByte b) s = .next ({ s with encCur := c }.delivered 0x00000000#32)

/-- ENC_BYTE on a miss below the code limit: it emits the code of the current position, which is
defined, registers the node (current position, b) at NEXT_FREE, and moves to the literal b; one word
is emitted (R152, R156). -/
def Obligations.EncByteRegisters : Prop :=
  ∀ (s : State) (b : Byte), s.Inv → s.mode = .enc → s.child s.encCur b = none →
    s.nextFree < 0x3FFE#14 →
    s.encCur < s.nextFree ∧
    ∃ p m, s.nodeRead s.encCur = some p ∧
      exec (.encByte b) s =
        .next ({ s.packWord s.encCur with nodes := m, nextFree := s.nextFree + 1#Config.wordBits,
                                          encCur := b.setWidth Config.wordBits }.delivered 0x00000001#32) ∧
      ∀ k, Memory.read m k =
        if k = s.nextFree.toNat then
          some { parent := s.encCur, depth := p.depth + 1#Config.depthBits, value := b, first := p.first }
        else s.nodes.read k

/-- ENC_BYTE on a miss while the code space is exhausted: the first 1000 misses only count; the next
emits Reset after the code, restores the 256-literal trie and zeroes the counter (R152, R153). -/
def Obligations.EncByteSaturates : Prop :=
  ∀ (s : State) (b : Byte), s.Inv → s.mode = .enc → s.child s.encCur b = none →
    s.nextFree = 0x3FFE#14 →
    (s.encSat < 1000#10 → exec (.encByte b) s =
      .next ({ s.packWord s.encCur with encSat := s.encSat + 1#10,
                                        encCur := b.setWidth Config.wordBits }.delivered 0x00000001#32)) ∧
    (s.encSat = 1000#10 → exec (.encByte b) s =
      .next ({ (s.packWord s.encCur).packWord 0x3FFE#14 with
                nextFree := 0x100#14, encSat := 0#10,
                encCur := b.setWidth Config.wordBits }.delivered 0x00000002#32))

/-- ENC_CLOSE packs the final code, EOS, the pad and the sentinel, and ends the session (R154). -/
def Obligations.EncCloseEndsSession : Prop :=
  ∀ s : State, s.mode = .enc →
    exec .encClose s =
      .next ({ ((s.packWord s.encCur).packWord 0x3FFF#14).packClose with
                mode := .idle }.delivered 0x00000002#32)

/-- A session that takes no byte appends FF FB FF F0 00 to OUTW (R157). -/
def Obligations.EmptySessionStream : Prop :=
  ∀ s : State, ∃ t, execAll [.encStart, .encClose] s = .next t ∧
    t.outw = s.outw ++ [0xFF#8, 0xFB#8, 0xFF#8, 0xF0#8, 0x00#8]

/-! ### Decompressor (43_decoder.md) -/

/-- DEC_START opens a decompression session in every mode: the reset trie, no previous code and a
fresh unpacker; IN, IN_END and the packer are not touched (R170; the packer by log 29). -/
def Obligations.DecStartOpensSession : Prop :=
  ∀ s : State, s.nodes.wf = true →
    ∃ m, exec .decStart s =
        .next ({ s with nodes := m, nextFree := 0x100#14, decPrev := 0x3FFE#14, upBuf := 0#8,
                        upAvail := 0#4, mode := .dec }.delivered 0x00000000#32) ∧
      ∀ k, Memory.read m k = if k < 0x100 then some (literalNode k) else s.nodes.read k

/-- DEC_STEP takes the next word from IN as UP_READ does, and executes the instruction it decodes to
(R171, R114). -/
def Obligations.DecStepRunsNextWord : Prop :=
  ∀ s : State, s.mode = .dec → s.upAvail.toNat ≤ 8 → s.wordReady →
    ∃ (w : Code) (buf : Byte) (avail : BitVec 4) (taken : List Byte) (rest : List Byte),
      exec .decStep s =
        exec (decodeStream w) { s with upBuf := buf, upAvail := avail, inq := rest } ∧
      s.inq = taken ++ rest ∧ taken.length = (14 - s.upAvail.toNat + 7) / 8 ∧
      taken.getLast? = some buf ∧
      s.upAvail.toNat + 8 * taken.length = 14 + avail.toNat ∧
      s.pendingInput =
        msbBits 14 w.toNat ++ (msbBits 8 buf.toNat).drop (8 - avail.toNat) ++ streamBits rest

/-- DEC_STEP on a word it can execute answers a next state with one response without error, and
changes only the unpacker, the dictionary, DEC_PREV, MODE and OUTD (R171 to R174). -/
def Obligations.DecStepCompletes : Prop :=
  ∀ s : State, s.Inv → s.mode = .dec → s.wordReady → s.decodable s.nextWord →
    ∃ t r, exec .decStep s = .next t ∧ errField r = 0#4 ∧
      t = { s with upBuf := t.upBuf, upAvail := t.upAvail, inq := t.inq, nodes := t.nodes,
                   nextFree := t.nextFree, decPrev := t.decPrev, mode := t.mode,
                   outd := t.outd }.delivered r

/-- LIT and DICT with a known code: the node (previous phrase, first byte) is registered if there is
a previous code and a free code, the phrase goes to OUTD, DEC_PREV becomes the code and VALUE is the
phrase's length (R174). -/
def Obligations.KnownCodeDecodes : Prop :=
  ∀ (s : State) (i : Instr) (w : Code), s.Inv → s.mode = .dec → i.wf = true →
    encode i = .stream w → w < s.nextFree → w < 0x3FFE#14 →
    ∃ x rest m nf, s.phrase w = some (x :: rest) ∧ s.Learned x m nf ∧
      exec i s =
        .next ({ s with nodes := m, nextFree := nf, outd := s.outd ++ x :: rest,
                        decPrev := w }.delivered
          (respWord 0#4 (if w.toNat < 0x100 then 0#4 else 1#4)
            (BitVec.ofNat 16 (rest.length + 1))))

/-- DICT with the code about to be created: the last phrase and its own first byte go to OUTD, and
they are the phrase of the code registered (R174). -/
def Obligations.SelfReferenceDecodes : Prop :=
  ∀ s : State, s.Inv → s.mode = .dec → s.decPrev ≠ 0x3FFE#14 → s.nextFree < 0x3FFE#14 →
    ∃ x rest m nf t, s.phrase s.decPrev = some (x :: rest) ∧ s.Learned x m nf ∧
      exec (.dict s.nextFree) s = .next t ∧
      t = { s with nodes := m, nextFree := nf, outd := s.outd ++ (x :: rest ++ [x]),
                   decPrev := s.nextFree }.delivered
            (respWord 0#4 1#4 (BitVec.ofNat 16 (rest.length + 2))) ∧
      t.phrase s.nextFree = some (x :: rest ++ [x])

/-- A LIT or DICT word above NEXT_FREE, or equal to it with no previous code, stops the session in
DEC_ERR with INVALID_CODE, KIND 1 and the word in VALUE; nothing else changes (R175). -/
def Obligations.InvalidCodeStops : Prop :=
  ∀ (s : State) (i : Instr) (w : Code), i.wf = true → encode i = .stream w → w < 0x3FFE#14 →
    ¬ s.decodable w →
    exec i s =
      .next ({ s with mode := .decErr }.failed 5#4 (respWord 5#4 1#4 (w.setWidth 16)))

/-- RESET restores the 256-literal trie and forgets the previous code (R173; the slots as R131 leaves
them); EOS ends the session (R172). No byte is appended. -/
def Obligations.ResetAndEosWordsComplete : Prop :=
  ∀ s : State,
    (s.nodes.wf = true → ∃ m,
      exec .reset s =
        .next ({ s with nodes := m, nextFree := 0x100#14, decPrev := 0x3FFE#14 }.delivered
          0x02000000#32) ∧
      ∀ k, Memory.read m k = if k < 0x100 then some (literalNode k) else s.nodes.read k) ∧
    exec .eos s = .next ({ s with mode := .decDone }.delivered 0x03000000#32)

/-- DOC's worked example, both ways, from reset: bytes 01 02 02 02 against the words 0001 0002 0101
3FFF, packed as 00 04 00 20 40 7F FF 00 (R177; 95_test_vectors.md V-SRC-1, V-SRC-2). -/
def Obligations.DocExampleBothWays : Prop :=
  (∃ t, execAll [.encStart, .encByte 1#8, .encByte 2#8, .encByte 2#8, .encByte 2#8, .encClose]
      State.reset = .next t ∧
    t.outw = [0x00#8, 0x04#8, 0x00#8, 0x20#8, 0x40#8, 0x7F#8, 0xFF#8, 0x00#8]) ∧
  (∃ t, execAll [.decStart, .decStep, .decStep, .decStep, .decStep]
      { State.reset with
        inq := [0x00#8, 0x04#8, 0x00#8, 0x20#8, 0x40#8, 0x7F#8, 0xFF#8, 0x00#8] } = .next t ∧
    t.outd = [1#8, 2#8, 2#8, 2#8] ∧ t.mode = .decDone ∧ t.nextFree = 0x102#14 ∧
    t.decPrev = 0x101#14 ∧ t.inq = [0x00#8])

/-- The decompressor inverts the compressor: for every byte sequence B, the bytes that ENC_START,
ENC_BYTE over B and ENC_CLOSE append to OUTW, pushed to IN and finished, are decoded by DEC_START and
some number of DEC_STEPs to exactly B, with no error response, KIND 3 in the last response and in no
other, and exactly the sentinel left in IN (R178). -/
def Obligations.DecompressInvertsCompress : Prop :=
  ∀ (s : State) (B : List Byte), s.nodes.wf = true →
    ∃ t packed u n rs rs',
      execAll (.encStart :: B.map .encByte ++ [.encClose]) s = .next t ∧
      t.outw = s.outw ++ packed ∧ t.resp = s.resp ++ rs ∧ (∀ r ∈ rs, errField r = 0#4) ∧
      execAll (.decStart :: List.replicate (n + 1) .decStep)
        { t with inq := packed, inEnd := true } = .next u ∧
      u.outd = t.outd ++ B ∧ u.mode = .decDone ∧ u.inq = [0x00#8] ∧
      u.resp = t.resp ++ rs' ++ [0x03000000#32] ∧
      ∀ r ∈ rs', errField r = 0#4 ∧ kindField r ≠ 3#4

/-! ### Errors (60_exceptions.md) -/

/-- The mode checks of R205: a command the table marks BUSY or NOT_ACTIVE fails with that error and
changes nothing but STICKY_ERR. -/
def Obligations.ModeChecksFail : Prop :=
  ∀ (s : State) (i : Instr),
    (s.mode = .enc → (i = .pkInit ∨ (∃ w, i = .pkWrite w) ∨ i = .pkClose) →
      exec i s = .next (s.failed 3#4 0x30000000#32)) ∧
    (s.mode = .dec → (i = .upInit ∨ i = .upRead) →
      exec i s = .next (s.failed 3#4 0x30000000#32)) ∧
    (s.mode ≠ .enc → ((∃ b, i = .encByte b) ∨ i = .encClose) →
      exec i s = .next (s.failed 4#4 0x40000000#32)) ∧
    (s.mode ≠ .dec → i = .decStep → exec i s = .next (s.failed 4#4 0x40000000#32))

/-- A closed packer refuses PK_WRITE and PK_CLOSE with CLOSED, after the mode check (R116, R117,
R206). -/
def Obligations.ClosedPackerFails : Prop :=
  ∀ (s : State) (i : Instr), s.mode ≠ .enc → s.pkClosed = true →
    ((∃ w, i = .pkWrite w) ∨ i = .pkClose) → exec i s = .next (s.failed 2#4 0x20000000#32)

/-- Every instruction that answers a next state either holds, changing nothing, or delivers exactly
one response and leaves no command without one; STICKY_ERR keeps the first error, is written by no
success but CLR_ERR's, and no other error code, KIND or reserved bit is ever given (R16, R96, R200,
R202). -/
def Obligations.OneResponseAndStickyError : Prop :=
  ∀ (i : Instr) (s t : State), exec i s = .next t →
    (holds i s = true ∧ t = s) ∨
    (holds i s = false ∧ ∃ r : RespWord, t.resp = s.resp ++ [r] ∧ t.cmd = none ∧
      errField r ≤ 6#4 ∧ kindField r ≤ 3#4 ∧ r.extractLsb' 16 8 = 0#8 ∧
      t.stickyErr =
        if errField r = 0#4 then (if i = .clrErr then 0#4 else s.stickyErr)
        else if s.stickyErr = 0#4 then errField r else s.stickyErr)

/-- An error response changes only what R201 lists: nothing but STICKY_ERR for ILLEGAL, CLOSED, BUSY
and NOT_ACTIVE; MODE = DEC_ERR and the word's bits taken for INVALID_CODE; the rest of IN taken and
UP_AVAIL = 0 for TRUNCATED, with MODE = DEC_ERR under DEC_STEP. KIND is 1 for INVALID_CODE and 0
otherwise. -/
def Obligations.ErrorsChangeOnlyListedState : Prop :=
  ∀ (i : Instr) (s t : State) (r : RespWord), exec i s = .next t → t.resp = s.resp ++ [r] →
    errField r ≠ 0#4 →
    t = { s with upBuf := t.upBuf, upAvail := t.upAvail, inq := t.inq,
                 mode := t.mode }.failed (errField r) r ∧
    kindField r = (if errField r = 5#4 then 1#4 else 0#4) ∧
    (errField r < 5#4 → t.upBuf = s.upBuf ∧ t.upAvail = s.upAvail ∧ t.inq = s.inq ∧
      t.mode = s.mode) ∧
    (errField r = 5#4 → t.mode = .decErr) ∧
    (errField r = 6#4 → t.upAvail = 0#4 ∧ t.inq = [] ∧
      t.mode = if i = .decStep then .decErr else s.mode)

/-! ### Whole-machine rules and invariants -/

/-- Who writes the flags: IN_END no instruction, PK_CLOSED only PK_INIT and ENC_START (clear) and
PK_CLOSE and ENC_CLOSE (set), MODE only the session commands and the stream words (R49). -/
def Obligations.FlagWriters : Prop :=
  ∀ (i : Instr) (s t : State), exec i s = .next t →
    t.inEnd = s.inEnd ∧
    (t.pkClosed ≠ s.pkClosed →
      (t.pkClosed = false ∧ (i = .pkInit ∨ i = .encStart)) ∨
      (t.pkClosed = true ∧ (i = .pkClose ∨ i = .encClose))) ∧
    (t.mode ≠ s.mode →
      (i = .encStart ∧ t.mode = .enc) ∨ (i = .decStart ∧ t.mode = .dec) ∨
      (i = .encClose ∧ t.mode = .idle) ∨
      ((i = .decStep ∨ i = .eos ∨ (∃ b, i = .lit b) ∨ (∃ c, i = .dict c)) ∧
        (t.mode = .decDone ∨ t.mode = .decErr)))

/-- OUTW and OUTD are append-only, the packer's commands are the only writers of OUTW and DEC_STEP
(with its stream words) is the only writer of OUTD; the core only pops bytes from IN (R63, R64). -/
def Obligations.StreamWriters : Prop :=
  ∀ (i : Instr) (s t : State), exec i s = .next t →
    s.outw <+: t.outw ∧ s.outd <+: t.outd ∧ t.inq <:+ s.inq ∧ t.host = s.host ∧
    (t.outw ≠ s.outw →
      (∃ w, i = .pkWrite w) ∨ i = .pkClose ∨ (∃ b, i = .encByte b) ∨ i = .encClose) ∧
    (t.outd ≠ s.outd → i = .decStep ∨ (∃ b, i = .lit b) ∨ (∃ c, i = .dict c))

/-- The invariant holds at reset (R55 with the reading of log 20). -/
def Obligations.ResetMeetsInvariant : Prop := State.reset.Inv

/-- Every step keeps the invariant: R55 (a) to (c), (g), (h) of every state, (d), (e), (f) for the
session they belong to, the literal nodes and the arena's canonical form (log 20). -/
def Obligations.StepKeepsInvariant : Prop :=
  ∀ s t : State, s.Inv → step s = .next t → t.Inv

/-- R55 (d), (e) and (f) as the rule words them, of every state, are NOT kept: DEC_START after a
compression, and ENC_START after a decompression, break them (log 20). -/
def Obligations.SessionInvAsWordedIsKept : Prop :=
  ∀ s t : State, s.Inv → s.SessionInvAsWorded → step s = .next t → t.SessionInvAsWorded

/-- The state after reset meets R55 (d), (e) and (f) as the rule words them, of every state. -/
def Obligations.ResetMeetsSessionInvAsWorded : Prop := State.reset.SessionInvAsWorded

/-- R55 (d), (e) and (f) as the rule words them, of every state, are kept by every step that does not
lower NEXT_FREE: only a dictionary reset can break them (log 20). -/
def Obligations.SessionInvAsWordedKeptWithinEpoch : Prop :=
  ∀ s t : State, s.Inv → s.SessionInvAsWorded → step s = .next t → s.nextFree ≤ t.nextFree →
    t.SessionInvAsWorded

/-- While a compression session is open, no two defined nodes share parent and last byte, and every
step keeps it so (R137). -/
def Obligations.StepKeepsChildrenUnique : Prop :=
  ∀ s t : State, s.Inv → (s.mode = .enc → s.ChildrenUnique) → step s = .next t →
    (t.mode = .enc → t.ChildrenUnique)

/-- No step from a state with the invariant meets a broken trie, and none is refused: every command
completes or holds (R133, R134: the callers check the preconditions). -/
def Obligations.StepNeverBreaksTrie : Prop :=
  ∀ s : State, s.Inv →
    (∃ t, step s = .next t) ∨
      (step s = .fault .commandWhilePending ∧ ∃ w rest, s.host = .cmd w :: rest ∧ s.cmd ≠ none)

/-- Stale arena slots are never observable: two states that differ at most there take the same step,
to states that differ at most there (10_state.md R44, R56; 20_memory.md R61). -/
def Obligations.StaleSlotsUnobservable : Prop :=
  ∀ s t : State, s.SameButStale t →
    (∃ s' t', step s = .next s' ∧ step t = .next t' ∧ s'.SameButStale t') ∨
      (∃ r, step s = .fault r ∧ step t = .fault r)
end

