-- ==== Sys2Proof/Laws/Bits.lean ====
section
/-! SUPPORT. The packer and the unpacker as bit sequences, most significant bit first
(20_memory.md R66): what emitBytes writes and what takeBits reads. -/

namespace Sys2Proof.Machine

/-! ### msbBits -/

@[simp] theorem msbBits_zero (v : Nat) : msbBits 0 v = [] := rfl

@[simp] theorem msbBits_length (n v : Nat) : (msbBits n v).length = n := by
  induction n with
  | zero => rfl
  | succ n ih => simp [msbBits, ih]

/-- Only the low n bits matter. -/
theorem msbBits_congr {n v w : Nat} (h : ∀ i, i < n → v.testBit i = w.testBit i) :
    msbBits n v = msbBits n w := by
  induction n with
  | zero => rfl
  | succ n ih => simp [msbBits, h n (Nat.lt_succ_self n), ih fun i hi => h i (by omega)]

theorem msbBits_mod (n v : Nat) : msbBits n (v % 2 ^ n) = msbBits n v :=
  msbBits_congr fun i hi => by simp [Nat.testBit_mod_two_pow, hi]

/-- The high part and the low part of a value, one after the other. -/
theorem msbBits_add (a b v : Nat) : msbBits (a + b) v = msbBits a (v >>> b) ++ msbBits b v := by
  induction a with
  | zero => simp
  | succ a ih =>
    rw [Nat.succ_add]
    simp only [msbBits, ih, Nat.testBit_shiftRight, List.cons_append, Nat.add_comm b a]

/-- A value glued from a high part and b low bits. -/
theorem msbBits_glue (a b x y : Nat) (hy : y < 2 ^ b) :
    msbBits (a + b) (x * 2 ^ b + y) = msbBits a x ++ msbBits b y := by
  have hhi : (x * 2 ^ b + y) >>> b = x := by
    rw [Nat.shiftRight_eq_div_pow, Nat.mul_comm, Nat.mul_add_div (Nat.two_pow_pos b),
      Nat.div_eq_of_lt hy, Nat.add_zero]
  have hlo : (x * 2 ^ b + y) % 2 ^ b = y := by
    rw [Nat.mul_comm, Nat.mul_add_mod, Nat.mod_eq_of_lt hy]
  rw [msbBits_add, hhi, ← msbBits_mod b, hlo]

/-- A value of n bits is determined by its bits. -/
theorem msbBits_injective {n v w : Nat} (hv : v < 2 ^ n) (hw : w < 2 ^ n)
    (h : msbBits n v = msbBits n w) : v = w := by
  induction n generalizing v w with
  | zero => omega
  | succ n ih =>
    simp only [msbBits, List.cons.injEq] at h
    have hmod : v % 2 ^ n = w % 2 ^ n :=
      ih (Nat.mod_lt _ (Nat.two_pow_pos n)) (Nat.mod_lt _ (Nat.two_pow_pos n))
        (by rw [msbBits_mod, msbBits_mod]; exact h.2)
    refine Nat.eq_of_testBit_eq fun i => ?_
    rcases Nat.lt_trichotomy i n with hi | hi | hi
    · have := congrArg (fun x => x.testBit i) hmod
      simpa [Nat.testBit_mod_two_pow, hi] using this
    · rw [hi]; exact h.1
    · rw [Nat.testBit_lt_two_pow (lt_of_lt_of_le hv (Nat.pow_le_pow_right (by decide) hi)),
        Nat.testBit_lt_two_pow (lt_of_lt_of_le hw (Nat.pow_le_pow_right (by decide) hi))]

/-! ### Byte and word sequences -/

@[simp] theorem streamBits_nil : streamBits [] = [] := rfl

@[simp] theorem streamBits_cons (b : Byte) (bs : List Byte) :
    streamBits (b :: bs) = msbBits 8 b.toNat ++ streamBits bs := rfl

@[simp] theorem streamBits_append (bs cs : List Byte) :
    streamBits (bs ++ cs) = streamBits bs ++ streamBits cs := by
  simp [streamBits]

@[simp] theorem streamBits_length (bs : List Byte) : (streamBits bs).length = 8 * bs.length := by
  induction bs with
  | nil => rfl
  | cons b bs ih => simp [ih]; omega

@[simp] theorem wordStreamBits_nil : wordStreamBits [] = [] := rfl

@[simp] theorem wordStreamBits_cons (w : Code) (ws : List Code) :
    wordStreamBits (w :: ws) = msbBits 14 w.toNat ++ wordStreamBits ws := rfl

@[simp] theorem wordStreamBits_append (ws vs : List Code) :
    wordStreamBits (ws ++ vs) = wordStreamBits ws ++ wordStreamBits vs := by
  simp [wordStreamBits]

@[simp] theorem wordStreamBits_length (ws : List Code) : (wordStreamBits ws).length = 14 * ws.length := by
  induction ws with
  | nil => rfl
  | cons w ws ih =>
    rw [wordStreamBits_cons, List.length_append, msbBits_length, ih, List.length_cons, Nat.mul_succ,
      Nat.add_comm]

/-! ### emitBytes (40_packer.md R111) -/

/-- The whole bytes of n bits, then the bits that remain, are the n bits. -/
theorem emitBytes_bits (t n : Nat) :
    streamBits (emitBytes t n) ++ msbBits (n % 8) t = msbBits n t := by
  induction n using Nat.strongRecOn with
  | ind n ih =>
    by_cases h : n < 8
    · rw [Nat.mod_eq_of_lt h]
      match n, h with
      | 0, _ | 1, _ | 2, _ | 3, _ | 4, _ | 5, _ | 6, _ | 7, _ => rfl
    · obtain ⟨m, rfl⟩ : ∃ m, n = m + 8 := ⟨n - 8, by omega⟩
      have hb : (BitVec.ofNat 8 (t >>> m)).toNat = (t >>> m) % 2 ^ 8 := by simp
      show streamBits (BitVec.ofNat 8 (t >>> m) :: emitBytes t m) ++ _ = _
      rw [streamBits_cons, List.append_assoc, Nat.add_mod_right, ih m (by omega), hb, msbBits_mod,
        Nat.add_comm m 8, msbBits_add]

theorem emitBytes_length (t n : Nat) : (emitBytes t n).length = n / 8 := by
  induction n using Nat.strongRecOn with
  | ind n ih =>
    by_cases h : n < 8
    · rw [Nat.div_eq_of_lt h]
      match n, h with
      | 0, _ | 1, _ | 2, _ | 3, _ | 4, _ | 5, _ | 6, _ | 7, _ => rfl
    · obtain ⟨m, rfl⟩ : ∃ m, n = m + 8 := ⟨n - 8, by omega⟩
      show (emitBytes t m).length + 1 = _
      rw [ih m (by omega)]
      omega

/-! ### takeBits (40_packer.md R114) -/

/-- Shift left and or-in t low bits is multiply and add. -/
theorem shiftIn_eq (v t x : Nat) : (v <<< t) ||| (x % 2 ^ t) = v * 2 ^ t + x % 2 ^ t := by
  rw [← Nat.shiftLeft_add_eq_or_of_lt (Nat.mod_lt _ (Nat.two_pow_pos t)), Nat.shiftLeft_eq]

/-- The last `need` of `avail` bits, cut off the top. -/
theorem msbBits_cut {need avail : Nat} (x : Nat) (h : need ≤ avail) :
    msbBits avail x =
      msbBits need ((x >>> (avail - need)) % 2 ^ need) ++ msbBits (avail - need) x := by
  rw [msbBits_mod, ← msbBits_add, Nat.add_sub_cancel' h]

/-- What takeBits answers when the bits are there: x is the value of the next `need` bits, and the
bits not taken stay in order. -/
theorem takeBits_spec (inq : List Byte) (need v : Nat) (buf : Byte) (avail : Nat)
    (hneed : 0 < need) (havail : avail ≤ 8) (hready : need ≤ avail + 8 * inq.length) :
    ∃ x buf' avail' taken rest,
      takeBits need v buf avail inq = (v * 2 ^ need + x, buf', avail', rest) ∧ x < 2 ^ need ∧
      inq = taken ++ rest ∧ buf' = taken.getLast?.getD buf ∧ avail' < 8 ∧
      avail + 8 * taken.length = need + avail' ∧
      msbBits avail buf.toNat ++ streamBits inq =
        msbBits need x ++ msbBits avail' buf'.toNat ++ streamBits rest := by
  induction inq generalizing need v buf avail with
  | nil =>
    have hle : need ≤ avail := by simpa using hready
    refine ⟨(buf.toNat >>> (avail - need)) % 2 ^ need, buf, avail - need, [], [], ?_,
      Nat.mod_lt _ (Nat.two_pow_pos _), rfl, rfl, by omega, by simp; omega, ?_⟩
    · simp only [takeBits, Nat.min_eq_left hle, shiftIn_eq]
    · rw [msbBits_cut buf.toNat hle]
  | cons b inq ih =>
    by_cases hle : need ≤ avail
    · refine ⟨(buf.toNat >>> (avail - need)) % 2 ^ need, buf, avail - need, [], b :: inq, ?_,
        Nat.mod_lt _ (Nat.two_pow_pos _), rfl, rfl, by omega, by simp; omega, ?_⟩
      · simp only [takeBits, Nat.min_eq_left hle, shiftIn_eq, Nat.sub_self, if_true]
      · rw [msbBits_cut buf.toNat hle]
    · have hlt : avail < need := by omega
      have hne : need - avail ≠ 0 := by omega
      obtain ⟨x, buf', avail', taken, rest, heq, hx, hin, hbuf, hav, hlen, hbits⟩ :=
        ih (need - avail) (v * 2 ^ avail + buf.toNat % 2 ^ avail) b 8 (by omega) (le_refl 8)
          (by simp at hready; omega)
      refine ⟨(buf.toNat % 2 ^ avail) * 2 ^ (need - avail) + x, buf', avail', b :: taken, rest, ?_,
        ?_, by simp [hin], ?_, hav, by simp; omega, ?_⟩
      · simp only [takeBits, Nat.min_eq_right hlt.le, Nat.sub_self, Nat.shiftRight_zero, shiftIn_eq,
          hne, if_false, heq]
        have hpow : 2 ^ need = 2 ^ avail * 2 ^ (need - avail) := by
          rw [← pow_add, Nat.add_sub_cancel' hlt.le]
        rw [hpow, Nat.add_mul, Nat.mul_assoc, Nat.add_assoc]
      · have hpow : 2 ^ need = 2 ^ avail * 2 ^ (need - avail) := by
          rw [← pow_add, Nat.add_sub_cancel' hlt.le]
        have hm : buf.toNat % 2 ^ avail < 2 ^ avail := Nat.mod_lt _ (Nat.two_pow_pos _)
        calc (buf.toNat % 2 ^ avail) * 2 ^ (need - avail) + x
            < (buf.toNat % 2 ^ avail) * 2 ^ (need - avail) + 2 ^ (need - avail) := by omega
          _ = (buf.toNat % 2 ^ avail + 1) * 2 ^ (need - avail) := by rw [Nat.add_mul, Nat.one_mul]
          _ ≤ 2 ^ avail * 2 ^ (need - avail) := Nat.mul_le_mul_right _ hm
          _ = 2 ^ need := hpow.symm
      · rw [hbuf]
        cases taken with
        | nil => rfl
        | cons c cs => rw [List.getLast?_cons_cons]; simp [List.getLast?_cons]
      · rw [streamBits_cons, hbits]
        have hg := msbBits_glue avail (need - avail) (buf.toNat % 2 ^ avail) x hx
        rw [Nat.add_sub_cancel' hlt.le] at hg
        rw [hg, msbBits_mod]
        simp [List.append_assoc]

end Sys2Proof.Machine
end

