-- ==== Sys2Proof/Laws/Constants.lean ====
section
/-! SUPPORT. The constants of 00_scope.md R10 and R11 at the values the spec gives them, for the
proofs that compute with them, and the range of a code. -/

namespace Sys2Proof

/-- WORD_BITS (R10). -/
theorem Config.wordBits_eq : Config.wordBits = 14 := rfl

/-- DYN_COUNT: 16126 dynamic codes (R11). -/
theorem Config.dynCount_eq : Config.dynCount = 0x3EFE := by decide

/-- MAX_DEPTH: 16127 bytes (R11). -/
theorem Config.maxDepth_eq : Config.maxDepth = 0x3EFF := by decide

/-- NODE_COUNT: 16382 node slots (R11). -/
theorem Config.nodeCount_eq : Config.nodeCount = 0x3FFE := by decide

/-- The root has the Reset code (41_trie.md R130). -/
theorem Config.rootCode_toNat : Config.rootCode.toNat = 0x3FFE := by decide

/-- A code is below 2 ^ WORD_BITS, as linear arithmetic reads it. -/
theorem Code.lt (c : Code) : c.toNat < 2 ^ 14 := c.isLt

/-- A number below 2 ^ WORD_BITS is the value of its code. -/
theorem Code.ofNat_toNat {n : Nat} (h : n < 2 ^ 14) : (BitVec.ofNat Config.wordBits n).toNat = n := by
  rw [BitVec.toNat_ofNat]
  exact Nat.mod_eq_of_lt h

end Sys2Proof
end

