-- ==== Sys2Proof/Laws/Encoding.lean ====
section
/-! SUPPORT. The fields of a command word as arithmetic, and what each decoder check sees of a word
the encoder built (30_encoding.md R88 to R92). -/

namespace Sys2Proof

/-- Concatenated fields: the first is the more significant (00_scope.md R14). -/
theorem append_toNat {a b : Nat} (x : BitVec a) (y : BitVec b) :
    (x ++ y).toNat = x.toNat * 2 ^ b + y.toNat := by
  rw [BitVec.toNat_append, ← Nat.shiftLeft_add_eq_or_of_lt y.isLt, Nat.shiftLeft_eq]

/-- A bit field as arithmetic: bits [lo+n-1:lo] (00_scope.md R14). -/
theorem field_toNat {n : Nat} (x : BitVec n) (lo len : Nat) :
    (x.extractLsb' lo len).toNat = x.toNat / 2 ^ lo % 2 ^ len := by
  rw [BitVec.extractLsb'_toNat, Nat.shiftRight_eq_div_pow]

theorem commandWord_toNat (opc : BitVec 8) (op : Code) :
    (commandWord opc op).toNat = opc.toNat * 2 ^ 24 + op.toNat := by
  have h : (commandWord opc op).toNat = (opc ++ 0#10).toNat * 2 ^ 14 + op.toNat :=
    append_toNat _ _
  rw [h, append_toNat]
  simp only [BitVec.toNat_ofNat]
  omega

/-- The fields of a command word as arithmetic (R88). -/
theorem rsvField_toNat (w : CmdWord) : (rsvField w).toNat = w.toNat / 2 ^ 14 % 2 ^ 10 :=
  field_toNat w 14 10

theorem operandField_toNat (w : CmdWord) : (operandField w).toNat = w.toNat % 2 ^ 14 := by
  rw [operandField, field_toNat, Nat.pow_zero, Nat.div_one]

/-- The reserved field is 0 exactly when bits [23:14] are (R88). -/
theorem rsvField_eq_zero_iff (w : CmdWord) :
    rsvField w = 0#(24 - Config.wordBits) ↔ w.extractLsb' 14 10 = 0#10 := Iff.rfl

@[simp] theorem opcField_commandWord (opc : BitVec 8) (op : Code) :
    opcField (commandWord opc op) = opc := by
  apply BitVec.eq_of_toNat_eq
  rw [opcField, field_toNat, commandWord_toNat]
  have := Code.lt op
  omega

@[simp] theorem rsvField_commandWord (opc : BitVec 8) (op : Code) :
    rsvField (commandWord opc op) = 0#(24 - Config.wordBits) := by
  apply BitVec.eq_of_toNat_eq
  rw [rsvField_toNat, commandWord_toNat, BitVec.toNat_ofNat, Nat.zero_mod]
  have := Code.lt op
  omega

@[simp] theorem operandField_commandWord (opc : BitVec 8) (op : Code) :
    operandField (commandWord opc op) = op := by
  apply BitVec.eq_of_toNat_eq
  rw [operandField_toNat, commandWord_toNat]
  have := Code.lt op
  omega

/-- A command word whose reserved field is 0 is its opcode and its operand (R88). -/
theorem commandWord_fields (w : CmdWord) (h : rsvField w = 0#(24 - Config.wordBits)) :
    commandWord (opcField w) (operandField w) = w := by
  apply BitVec.eq_of_toNat_eq
  have hr := congrArg BitVec.toNat h
  rw [rsvField_toNat, BitVec.toNat_ofNat, Nat.zero_mod] at hr
  rw [commandWord_toNat, opcField, operandField_toNat, field_toNat]
  omega

/-- A byte as a code keeps its value. -/
@[simp] theorem byteCode_toNat (b : Byte) : (b.setWidth Config.wordBits).toNat = b.toNat := by
  rw [BitVec.toNat_setWidth]
  exact Nat.mod_eq_of_lt (lt_trans b.isLt (by decide))

@[simp] theorem byteCode_byte (b : Byte) : (b.setWidth Config.wordBits).setWidth 8 = b := by
  apply BitVec.eq_of_toNat_eq
  rw [BitVec.toNat_setWidth, byteCode_toNat]
  omega

/-- The mask of R81's LIT row leaves nothing exactly of the codes the decoder classes as literals:
those below LITERAL_LIMIT. -/
theorem literalMask_iff (w : Code) : w &&& 0x3F00#14 = 0#14 ↔ w.toNat < Config.literalLimit := by
  constructor
  · intro h
    have key : ∀ i, 8 ≤ i → w.toNat.testBit i = false := by
      intro i hi
      by_cases hlt : i < 14
      · have hb := congrArg (fun x => x.getLsbD i) h
        simp only [BitVec.getLsbD_and, BitVec.getLsbD_zero] at hb
        have h2 : (0x3F00#14).getLsbD i = true := by
          have : i = 8 ∨ i = 9 ∨ i = 10 ∨ i = 11 ∨ i = 12 ∨ i = 13 := by omega
          rcases this with h | h | h | h | h | h <;> subst h <;> decide
        rw [h2, Bool.and_true] at hb
        exact hb
      · exact Nat.testBit_lt_two_pow
          (lt_of_lt_of_le (Code.lt w) (Nat.pow_le_pow_right (by decide) (by omega)))
    exact Nat.lt_pow_two_of_testBit (n := 8) _ key
  · intro h
    apply BitVec.eq_of_getLsbD_eq
    intro i hi
    rw [BitVec.getLsbD_and, BitVec.getLsbD_zero]
    by_cases h8 : i < 8
    · have h2 : (0x3F00#14).getLsbD i = false := by
        have : i = 0 ∨ i = 1 ∨ i = 2 ∨ i = 3 ∨ i = 4 ∨ i = 5 ∨ i = 6 ∨ i = 7 := by omega
        rcases this with h | h | h | h | h | h | h | h <;> subst h <;> decide
      rw [h2, Bool.and_false]
    · have : w.getLsbD i = false := Nat.testBit_lt_two_pow
        (lt_of_lt_of_le (show w.toNat < 2 ^ 8 from h) (Nat.pow_le_pow_right (by decide) (by omega)))
      rw [this, Bool.false_and]

/-- ENC_BYTE's upper operand bits are 0 exactly of the operands the decoder takes: those that fit a
byte (R90). -/
theorem byteOperand_iff (op : Code) : op.extractLsb' 8 6 = 0#6 ↔ op.toNat < 2 ^ 8 := by
  have := Code.lt op
  constructor
  · intro h
    have h' := congrArg BitVec.toNat h
    rw [field_toNat, BitVec.toNat_ofNat] at h'
    omega
  · intro h
    apply BitVec.eq_of_toNat_eq
    rw [field_toNat, BitVec.toNat_ofNat]
    omega

end Sys2Proof
end

