-- ==== Sys2Proof/Laws/State.lean ====
section
/-! SUPPORT. One lemma per field per update of the state, so that no proof unfolds a record update. -/

namespace Sys2Proof.Machine

/-! ### respond -/

@[simp] theorem State.respond_mode (s : State) (e k : BitVec 4) (v : BitVec 16) :
    (s.respond e k v).mode = s.mode := rfl
@[simp] theorem State.respond_pkAcc (s : State) (e k : BitVec 4) (v : BitVec 16) :
    (s.respond e k v).pkAcc = s.pkAcc := rfl
@[simp] theorem State.respond_pkNbits (s : State) (e k : BitVec 4) (v : BitVec 16) :
    (s.respond e k v).pkNbits = s.pkNbits := rfl
@[simp] theorem State.respond_pkClosed (s : State) (e k : BitVec 4) (v : BitVec 16) :
    (s.respond e k v).pkClosed = s.pkClosed := rfl
@[simp] theorem State.respond_upBuf (s : State) (e k : BitVec 4) (v : BitVec 16) :
    (s.respond e k v).upBuf = s.upBuf := rfl
@[simp] theorem State.respond_upAvail (s : State) (e k : BitVec 4) (v : BitVec 16) :
    (s.respond e k v).upAvail = s.upAvail := rfl
@[simp] theorem State.respond_nextFree (s : State) (e k : BitVec 4) (v : BitVec 16) :
    (s.respond e k v).nextFree = s.nextFree := rfl
@[simp] theorem State.respond_nodes (s : State) (e k : BitVec 4) (v : BitVec 16) :
    (s.respond e k v).nodes = s.nodes := rfl
@[simp] theorem State.respond_encCur (s : State) (e k : BitVec 4) (v : BitVec 16) :
    (s.respond e k v).encCur = s.encCur := rfl
@[simp] theorem State.respond_encSat (s : State) (e k : BitVec 4) (v : BitVec 16) :
    (s.respond e k v).encSat = s.encSat := rfl
@[simp] theorem State.respond_decPrev (s : State) (e k : BitVec 4) (v : BitVec 16) :
    (s.respond e k v).decPrev = s.decPrev := rfl
@[simp] theorem State.respond_stickyErr (s : State) (e k : BitVec 4) (v : BitVec 16) :
    (s.respond e k v).stickyErr = s.stickyErr := rfl
@[simp] theorem State.respond_inq (s : State) (e k : BitVec 4) (v : BitVec 16) :
    (s.respond e k v).inq = s.inq := rfl
@[simp] theorem State.respond_inEnd (s : State) (e k : BitVec 4) (v : BitVec 16) :
    (s.respond e k v).inEnd = s.inEnd := rfl
@[simp] theorem State.respond_outw (s : State) (e k : BitVec 4) (v : BitVec 16) :
    (s.respond e k v).outw = s.outw := rfl
@[simp] theorem State.respond_outd (s : State) (e k : BitVec 4) (v : BitVec 16) :
    (s.respond e k v).outd = s.outd := rfl
@[simp] theorem State.respond_resp (s : State) (e k : BitVec 4) (v : BitVec 16) :
    (s.respond e k v).resp = s.resp ++ [respWord e k v] := rfl
@[simp] theorem State.respond_cmd (s : State) (e k : BitVec 4) (v : BitVec 16) :
    (s.respond e k v).cmd = none := rfl
@[simp] theorem State.respond_host (s : State) (e k : BitVec 4) (v : BitVec 16) :
    (s.respond e k v).host = s.host := rfl

/-! ### raise -/

@[simp] theorem State.raise_mode (s : State) (e : Err) (v : BitVec 16) :
    (s.raise e v).mode = s.mode := rfl
@[simp] theorem State.raise_pkAcc (s : State) (e : Err) (v : BitVec 16) :
    (s.raise e v).pkAcc = s.pkAcc := rfl
@[simp] theorem State.raise_pkNbits (s : State) (e : Err) (v : BitVec 16) :
    (s.raise e v).pkNbits = s.pkNbits := rfl
@[simp] theorem State.raise_pkClosed (s : State) (e : Err) (v : BitVec 16) :
    (s.raise e v).pkClosed = s.pkClosed := rfl
@[simp] theorem State.raise_upBuf (s : State) (e : Err) (v : BitVec 16) :
    (s.raise e v).upBuf = s.upBuf := rfl
@[simp] theorem State.raise_upAvail (s : State) (e : Err) (v : BitVec 16) :
    (s.raise e v).upAvail = s.upAvail := rfl
@[simp] theorem State.raise_nextFree (s : State) (e : Err) (v : BitVec 16) :
    (s.raise e v).nextFree = s.nextFree := rfl
@[simp] theorem State.raise_nodes (s : State) (e : Err) (v : BitVec 16) :
    (s.raise e v).nodes = s.nodes := rfl
@[simp] theorem State.raise_encCur (s : State) (e : Err) (v : BitVec 16) :
    (s.raise e v).encCur = s.encCur := rfl
@[simp] theorem State.raise_encSat (s : State) (e : Err) (v : BitVec 16) :
    (s.raise e v).encSat = s.encSat := rfl
@[simp] theorem State.raise_decPrev (s : State) (e : Err) (v : BitVec 16) :
    (s.raise e v).decPrev = s.decPrev := rfl
@[simp] theorem State.raise_stickyErr (s : State) (e : Err) (v : BitVec 16) :
    (s.raise e v).stickyErr = stickyAfter s.stickyErr e := rfl
@[simp] theorem State.raise_inq (s : State) (e : Err) (v : BitVec 16) :
    (s.raise e v).inq = s.inq := rfl
@[simp] theorem State.raise_inEnd (s : State) (e : Err) (v : BitVec 16) :
    (s.raise e v).inEnd = s.inEnd := rfl
@[simp] theorem State.raise_outw (s : State) (e : Err) (v : BitVec 16) :
    (s.raise e v).outw = s.outw := rfl
@[simp] theorem State.raise_outd (s : State) (e : Err) (v : BitVec 16) :
    (s.raise e v).outd = s.outd := rfl
@[simp] theorem State.raise_resp (s : State) (e : Err) (v : BitVec 16) :
    (s.raise e v).resp = s.resp ++ [respWord e.code (errKind e) v] := rfl
@[simp] theorem State.raise_cmd (s : State) (e : Err) (v : BitVec 16) :
    (s.raise e v).cmd = none := rfl
@[simp] theorem State.raise_host (s : State) (e : Err) (v : BitVec 16) :
    (s.raise e v).host = s.host := rfl

/-! ### trieReset -/

@[simp] theorem State.trieReset_mode (s : State) : s.trieReset.mode = s.mode := rfl
@[simp] theorem State.trieReset_pkAcc (s : State) : s.trieReset.pkAcc = s.pkAcc := rfl
@[simp] theorem State.trieReset_pkNbits (s : State) : s.trieReset.pkNbits = s.pkNbits := rfl
@[simp] theorem State.trieReset_pkClosed (s : State) : s.trieReset.pkClosed = s.pkClosed := rfl
@[simp] theorem State.trieReset_upBuf (s : State) : s.trieReset.upBuf = s.upBuf := rfl
@[simp] theorem State.trieReset_upAvail (s : State) : s.trieReset.upAvail = s.upAvail := rfl
@[simp] theorem State.trieReset_nextFree (s : State) : s.trieReset.nextFree = Config.firstDyn := rfl
@[simp] theorem State.trieReset_nodes (s : State) :
    s.trieReset.nodes = s.nodes.restoreLiterals := by rw [State.trieReset]
@[simp] theorem State.trieReset_encCur (s : State) : s.trieReset.encCur = s.encCur := rfl
@[simp] theorem State.trieReset_encSat (s : State) : s.trieReset.encSat = s.encSat := rfl
@[simp] theorem State.trieReset_decPrev (s : State) : s.trieReset.decPrev = s.decPrev := rfl
@[simp] theorem State.trieReset_stickyErr (s : State) : s.trieReset.stickyErr = s.stickyErr := rfl
@[simp] theorem State.trieReset_inq (s : State) : s.trieReset.inq = s.inq := rfl
@[simp] theorem State.trieReset_inEnd (s : State) : s.trieReset.inEnd = s.inEnd := rfl
@[simp] theorem State.trieReset_outw (s : State) : s.trieReset.outw = s.outw := rfl
@[simp] theorem State.trieReset_outd (s : State) : s.trieReset.outd = s.outd := rfl
@[simp] theorem State.trieReset_resp (s : State) : s.trieReset.resp = s.resp := rfl
@[simp] theorem State.trieReset_cmd (s : State) : s.trieReset.cmd = s.cmd := rfl
@[simp] theorem State.trieReset_host (s : State) : s.trieReset.host = s.host := rfl

/-! ### packWord -/

@[simp] theorem State.packWord_mode (s : State) (w : Code) : (s.packWord w).mode = s.mode := rfl
@[simp] theorem State.packWord_pkAcc (s : State) (w : Code) :
    (s.packWord w).pkAcc = BitVec.ofNat 7 (s.packTotal w % 2 ^ ((s.pkNbits.toNat + 14) % 8)) := by rw [State.packWord]
@[simp] theorem State.packWord_pkNbits (s : State) (w : Code) :
    (s.packWord w).pkNbits = BitVec.ofNat 3 ((s.pkNbits.toNat + 14) % 8) := by rw [State.packWord]
@[simp] theorem State.packWord_pkClosed (s : State) (w : Code) :
    (s.packWord w).pkClosed = s.pkClosed := rfl
@[simp] theorem State.packWord_upBuf (s : State) (w : Code) : (s.packWord w).upBuf = s.upBuf := rfl
@[simp] theorem State.packWord_upAvail (s : State) (w : Code) :
    (s.packWord w).upAvail = s.upAvail := rfl
@[simp] theorem State.packWord_nextFree (s : State) (w : Code) :
    (s.packWord w).nextFree = s.nextFree := rfl
@[simp] theorem State.packWord_nodes (s : State) (w : Code) : (s.packWord w).nodes = s.nodes := rfl
@[simp] theorem State.packWord_encCur (s : State) (w : Code) :
    (s.packWord w).encCur = s.encCur := rfl
@[simp] theorem State.packWord_encSat (s : State) (w : Code) :
    (s.packWord w).encSat = s.encSat := rfl
@[simp] theorem State.packWord_decPrev (s : State) (w : Code) :
    (s.packWord w).decPrev = s.decPrev := rfl
@[simp] theorem State.packWord_stickyErr (s : State) (w : Code) :
    (s.packWord w).stickyErr = s.stickyErr := rfl
@[simp] theorem State.packWord_inq (s : State) (w : Code) : (s.packWord w).inq = s.inq := rfl
@[simp] theorem State.packWord_inEnd (s : State) (w : Code) : (s.packWord w).inEnd = s.inEnd := rfl
@[simp] theorem State.packWord_outw (s : State) (w : Code) :
    (s.packWord w).outw = s.outw ++ s.packedBytes w := rfl
@[simp] theorem State.packWord_outd (s : State) (w : Code) : (s.packWord w).outd = s.outd := rfl
@[simp] theorem State.packWord_resp (s : State) (w : Code) : (s.packWord w).resp = s.resp := rfl
@[simp] theorem State.packWord_cmd (s : State) (w : Code) : (s.packWord w).cmd = s.cmd := rfl
@[simp] theorem State.packWord_host (s : State) (w : Code) : (s.packWord w).host = s.host := rfl

/-! ### packClose -/

@[simp] theorem State.packClose_mode (s : State) : s.packClose.mode = s.mode := rfl
@[simp] theorem State.packClose_pkAcc (s : State) : s.packClose.pkAcc = 0#7 := rfl
@[simp] theorem State.packClose_pkNbits (s : State) : s.packClose.pkNbits = 0#3 := rfl
@[simp] theorem State.packClose_pkClosed (s : State) : s.packClose.pkClosed = true := rfl
@[simp] theorem State.packClose_upBuf (s : State) : s.packClose.upBuf = s.upBuf := rfl
@[simp] theorem State.packClose_upAvail (s : State) : s.packClose.upAvail = s.upAvail := rfl
@[simp] theorem State.packClose_nextFree (s : State) : s.packClose.nextFree = s.nextFree := rfl
@[simp] theorem State.packClose_nodes (s : State) : s.packClose.nodes = s.nodes := rfl
@[simp] theorem State.packClose_encCur (s : State) : s.packClose.encCur = s.encCur := rfl
@[simp] theorem State.packClose_encSat (s : State) : s.packClose.encSat = s.encSat := rfl
@[simp] theorem State.packClose_decPrev (s : State) : s.packClose.decPrev = s.decPrev := rfl
@[simp] theorem State.packClose_stickyErr (s : State) : s.packClose.stickyErr = s.stickyErr := rfl
@[simp] theorem State.packClose_inq (s : State) : s.packClose.inq = s.inq := rfl
@[simp] theorem State.packClose_inEnd (s : State) : s.packClose.inEnd = s.inEnd := rfl
@[simp] theorem State.packClose_outw (s : State) : s.packClose.outw = s.outw ++ s.closeBytes := rfl
@[simp] theorem State.packClose_outd (s : State) : s.packClose.outd = s.outd := rfl
@[simp] theorem State.packClose_resp (s : State) : s.packClose.resp = s.resp := rfl
@[simp] theorem State.packClose_cmd (s : State) : s.packClose.cmd = s.cmd := rfl
@[simp] theorem State.packClose_host (s : State) : s.packClose.host = s.host := rfl

/-! ### packFresh -/

@[simp] theorem State.packFresh_mode (s : State) : s.packFresh.mode = s.mode := rfl
@[simp] theorem State.packFresh_pkAcc (s : State) : s.packFresh.pkAcc = 0#7 := rfl
@[simp] theorem State.packFresh_pkNbits (s : State) : s.packFresh.pkNbits = 0#3 := rfl
@[simp] theorem State.packFresh_pkClosed (s : State) : s.packFresh.pkClosed = false := rfl
@[simp] theorem State.packFresh_upBuf (s : State) : s.packFresh.upBuf = s.upBuf := rfl
@[simp] theorem State.packFresh_upAvail (s : State) : s.packFresh.upAvail = s.upAvail := rfl
@[simp] theorem State.packFresh_nextFree (s : State) : s.packFresh.nextFree = s.nextFree := rfl
@[simp] theorem State.packFresh_nodes (s : State) : s.packFresh.nodes = s.nodes := rfl
@[simp] theorem State.packFresh_encCur (s : State) : s.packFresh.encCur = s.encCur := rfl
@[simp] theorem State.packFresh_encSat (s : State) : s.packFresh.encSat = s.encSat := rfl
@[simp] theorem State.packFresh_decPrev (s : State) : s.packFresh.decPrev = s.decPrev := rfl
@[simp] theorem State.packFresh_stickyErr (s : State) : s.packFresh.stickyErr = s.stickyErr := rfl
@[simp] theorem State.packFresh_inq (s : State) : s.packFresh.inq = s.inq := rfl
@[simp] theorem State.packFresh_inEnd (s : State) : s.packFresh.inEnd = s.inEnd := rfl
@[simp] theorem State.packFresh_outw (s : State) : s.packFresh.outw = s.outw := rfl
@[simp] theorem State.packFresh_outd (s : State) : s.packFresh.outd = s.outd := rfl
@[simp] theorem State.packFresh_resp (s : State) : s.packFresh.resp = s.resp := rfl
@[simp] theorem State.packFresh_cmd (s : State) : s.packFresh.cmd = s.cmd := rfl
@[simp] theorem State.packFresh_host (s : State) : s.packFresh.host = s.host := rfl

/-! ### wordTaken -/

@[simp] theorem State.wordTaken_mode (s : State) : s.wordTaken.mode = s.mode := rfl
@[simp] theorem State.wordTaken_pkAcc (s : State) : s.wordTaken.pkAcc = s.pkAcc := rfl
@[simp] theorem State.wordTaken_pkNbits (s : State) : s.wordTaken.pkNbits = s.pkNbits := rfl
@[simp] theorem State.wordTaken_pkClosed (s : State) : s.wordTaken.pkClosed = s.pkClosed := rfl
@[simp] theorem State.wordTaken_upBuf (s : State) :
    s.wordTaken.upBuf = (takeBits 14 0 s.upBuf s.upAvail.toNat s.inq).2.1 := rfl
@[simp] theorem State.wordTaken_upAvail (s : State) :
    s.wordTaken.upAvail = BitVec.ofNat 4 (takeBits 14 0 s.upBuf s.upAvail.toNat s.inq).2.2.1 := rfl
@[simp] theorem State.wordTaken_nextFree (s : State) : s.wordTaken.nextFree = s.nextFree := rfl
@[simp] theorem State.wordTaken_nodes (s : State) : s.wordTaken.nodes = s.nodes := rfl
@[simp] theorem State.wordTaken_encCur (s : State) : s.wordTaken.encCur = s.encCur := rfl
@[simp] theorem State.wordTaken_encSat (s : State) : s.wordTaken.encSat = s.encSat := rfl
@[simp] theorem State.wordTaken_decPrev (s : State) : s.wordTaken.decPrev = s.decPrev := rfl
@[simp] theorem State.wordTaken_stickyErr (s : State) : s.wordTaken.stickyErr = s.stickyErr := rfl
@[simp] theorem State.wordTaken_inq (s : State) :
    s.wordTaken.inq = (takeBits 14 0 s.upBuf s.upAvail.toNat s.inq).2.2.2 := rfl
@[simp] theorem State.wordTaken_inEnd (s : State) : s.wordTaken.inEnd = s.inEnd := rfl
@[simp] theorem State.wordTaken_outw (s : State) : s.wordTaken.outw = s.outw := rfl
@[simp] theorem State.wordTaken_outd (s : State) : s.wordTaken.outd = s.outd := rfl
@[simp] theorem State.wordTaken_resp (s : State) : s.wordTaken.resp = s.resp := rfl
@[simp] theorem State.wordTaken_cmd (s : State) : s.wordTaken.cmd = s.cmd := rfl
@[simp] theorem State.wordTaken_host (s : State) : s.wordTaken.host = s.host := rfl

/-! ### wordTruncated -/

@[simp] theorem State.wordTruncated_mode (s : State) : s.wordTruncated.mode = s.mode := rfl
@[simp] theorem State.wordTruncated_pkAcc (s : State) : s.wordTruncated.pkAcc = s.pkAcc := rfl
@[simp] theorem State.wordTruncated_pkNbits (s : State) : s.wordTruncated.pkNbits = s.pkNbits := rfl
@[simp] theorem State.wordTruncated_pkClosed (s : State) :
    s.wordTruncated.pkClosed = s.pkClosed := rfl
@[simp] theorem State.wordTruncated_upBuf (s : State) :
    s.wordTruncated.upBuf = s.inq.getLast?.getD s.upBuf := rfl
@[simp] theorem State.wordTruncated_upAvail (s : State) : s.wordTruncated.upAvail = 0#4 := rfl
@[simp] theorem State.wordTruncated_nextFree (s : State) :
    s.wordTruncated.nextFree = s.nextFree := rfl
@[simp] theorem State.wordTruncated_nodes (s : State) : s.wordTruncated.nodes = s.nodes := rfl
@[simp] theorem State.wordTruncated_encCur (s : State) : s.wordTruncated.encCur = s.encCur := rfl
@[simp] theorem State.wordTruncated_encSat (s : State) : s.wordTruncated.encSat = s.encSat := rfl
@[simp] theorem State.wordTruncated_decPrev (s : State) : s.wordTruncated.decPrev = s.decPrev := rfl
@[simp] theorem State.wordTruncated_stickyErr (s : State) :
    s.wordTruncated.stickyErr = s.stickyErr := rfl
@[simp] theorem State.wordTruncated_inq (s : State) : s.wordTruncated.inq = [] := rfl
@[simp] theorem State.wordTruncated_inEnd (s : State) : s.wordTruncated.inEnd = s.inEnd := rfl
@[simp] theorem State.wordTruncated_outw (s : State) : s.wordTruncated.outw = s.outw := rfl
@[simp] theorem State.wordTruncated_outd (s : State) : s.wordTruncated.outd = s.outd := rfl
@[simp] theorem State.wordTruncated_resp (s : State) : s.wordTruncated.resp = s.resp := rfl
@[simp] theorem State.wordTruncated_cmd (s : State) : s.wordTruncated.cmd = s.cmd := rfl
@[simp] theorem State.wordTruncated_host (s : State) : s.wordTruncated.host = s.host := rfl

/-! ### unpackFresh -/

@[simp] theorem State.unpackFresh_mode (s : State) : s.unpackFresh.mode = s.mode := rfl
@[simp] theorem State.unpackFresh_pkAcc (s : State) : s.unpackFresh.pkAcc = s.pkAcc := rfl
@[simp] theorem State.unpackFresh_pkNbits (s : State) : s.unpackFresh.pkNbits = s.pkNbits := rfl
@[simp] theorem State.unpackFresh_pkClosed (s : State) : s.unpackFresh.pkClosed = s.pkClosed := rfl
@[simp] theorem State.unpackFresh_upBuf (s : State) : s.unpackFresh.upBuf = 0#8 := rfl
@[simp] theorem State.unpackFresh_upAvail (s : State) : s.unpackFresh.upAvail = 0#4 := rfl
@[simp] theorem State.unpackFresh_nextFree (s : State) : s.unpackFresh.nextFree = s.nextFree := rfl
@[simp] theorem State.unpackFresh_nodes (s : State) : s.unpackFresh.nodes = s.nodes := rfl
@[simp] theorem State.unpackFresh_encCur (s : State) : s.unpackFresh.encCur = s.encCur := rfl
@[simp] theorem State.unpackFresh_encSat (s : State) : s.unpackFresh.encSat = s.encSat := rfl
@[simp] theorem State.unpackFresh_decPrev (s : State) : s.unpackFresh.decPrev = s.decPrev := rfl
@[simp] theorem State.unpackFresh_stickyErr (s : State) :
    s.unpackFresh.stickyErr = s.stickyErr := rfl
@[simp] theorem State.unpackFresh_inq (s : State) : s.unpackFresh.inq = s.inq := rfl
@[simp] theorem State.unpackFresh_inEnd (s : State) : s.unpackFresh.inEnd = s.inEnd := rfl
@[simp] theorem State.unpackFresh_outw (s : State) : s.unpackFresh.outw = s.outw := rfl
@[simp] theorem State.unpackFresh_outd (s : State) : s.unpackFresh.outd = s.outd := rfl
@[simp] theorem State.unpackFresh_resp (s : State) : s.unpackFresh.resp = s.resp := rfl
@[simp] theorem State.unpackFresh_cmd (s : State) : s.unpackFresh.cmd = s.cmd := rfl
@[simp] theorem State.unpackFresh_host (s : State) : s.unpackFresh.host = s.host := rfl

/-! ### outD -/

@[simp] theorem State.outD_mode (s : State) (bs : List Byte) : (s.outD bs).mode = s.mode := rfl
@[simp] theorem State.outD_pkAcc (s : State) (bs : List Byte) : (s.outD bs).pkAcc = s.pkAcc := rfl
@[simp] theorem State.outD_pkNbits (s : State) (bs : List Byte) :
    (s.outD bs).pkNbits = s.pkNbits := rfl
@[simp] theorem State.outD_pkClosed (s : State) (bs : List Byte) :
    (s.outD bs).pkClosed = s.pkClosed := rfl
@[simp] theorem State.outD_upBuf (s : State) (bs : List Byte) : (s.outD bs).upBuf = s.upBuf := rfl
@[simp] theorem State.outD_upAvail (s : State) (bs : List Byte) :
    (s.outD bs).upAvail = s.upAvail := rfl
@[simp] theorem State.outD_nextFree (s : State) (bs : List Byte) :
    (s.outD bs).nextFree = s.nextFree := rfl
@[simp] theorem State.outD_nodes (s : State) (bs : List Byte) : (s.outD bs).nodes = s.nodes := rfl
@[simp] theorem State.outD_encCur (s : State) (bs : List Byte) :
    (s.outD bs).encCur = s.encCur := rfl
@[simp] theorem State.outD_encSat (s : State) (bs : List Byte) :
    (s.outD bs).encSat = s.encSat := rfl
@[simp] theorem State.outD_decPrev (s : State) (bs : List Byte) :
    (s.outD bs).decPrev = s.decPrev := rfl
@[simp] theorem State.outD_stickyErr (s : State) (bs : List Byte) :
    (s.outD bs).stickyErr = s.stickyErr := rfl
@[simp] theorem State.outD_inq (s : State) (bs : List Byte) : (s.outD bs).inq = s.inq := rfl
@[simp] theorem State.outD_inEnd (s : State) (bs : List Byte) : (s.outD bs).inEnd = s.inEnd := rfl
@[simp] theorem State.outD_outw (s : State) (bs : List Byte) : (s.outD bs).outw = s.outw := rfl
@[simp] theorem State.outD_outd (s : State) (bs : List Byte) :
    (s.outD bs).outd = s.outd ++ bs := rfl
@[simp] theorem State.outD_resp (s : State) (bs : List Byte) : (s.outD bs).resp = s.resp := rfl
@[simp] theorem State.outD_cmd (s : State) (bs : List Byte) : (s.outD bs).cmd = s.cmd := rfl
@[simp] theorem State.outD_host (s : State) (bs : List Byte) : (s.outD bs).host = s.host := rfl

/-! ### invalidCode -/

@[simp] theorem State.invalidCode_mode (s : State) (w : Code) :
    (s.invalidCode w).mode = .decErr := rfl
@[simp] theorem State.invalidCode_pkAcc (s : State) (w : Code) :
    (s.invalidCode w).pkAcc = s.pkAcc := rfl
@[simp] theorem State.invalidCode_pkNbits (s : State) (w : Code) :
    (s.invalidCode w).pkNbits = s.pkNbits := rfl
@[simp] theorem State.invalidCode_pkClosed (s : State) (w : Code) :
    (s.invalidCode w).pkClosed = s.pkClosed := rfl
@[simp] theorem State.invalidCode_upBuf (s : State) (w : Code) :
    (s.invalidCode w).upBuf = s.upBuf := rfl
@[simp] theorem State.invalidCode_upAvail (s : State) (w : Code) :
    (s.invalidCode w).upAvail = s.upAvail := rfl
@[simp] theorem State.invalidCode_nextFree (s : State) (w : Code) :
    (s.invalidCode w).nextFree = s.nextFree := rfl
@[simp] theorem State.invalidCode_nodes (s : State) (w : Code) :
    (s.invalidCode w).nodes = s.nodes := rfl
@[simp] theorem State.invalidCode_encCur (s : State) (w : Code) :
    (s.invalidCode w).encCur = s.encCur := rfl
@[simp] theorem State.invalidCode_encSat (s : State) (w : Code) :
    (s.invalidCode w).encSat = s.encSat := rfl
@[simp] theorem State.invalidCode_decPrev (s : State) (w : Code) :
    (s.invalidCode w).decPrev = s.decPrev := rfl
@[simp] theorem State.invalidCode_stickyErr (s : State) (w : Code) :
    (s.invalidCode w).stickyErr = stickyAfter s.stickyErr .invalidCode := rfl
@[simp] theorem State.invalidCode_inq (s : State) (w : Code) : (s.invalidCode w).inq = s.inq := rfl
@[simp] theorem State.invalidCode_inEnd (s : State) (w : Code) :
    (s.invalidCode w).inEnd = s.inEnd := rfl
@[simp] theorem State.invalidCode_outw (s : State) (w : Code) :
    (s.invalidCode w).outw = s.outw := rfl
@[simp] theorem State.invalidCode_outd (s : State) (w : Code) :
    (s.invalidCode w).outd = s.outd := rfl
@[simp] theorem State.invalidCode_resp (s : State) (w : Code) :
    (s.invalidCode w).resp = s.resp ++ [respWord 5#4 1#4 (w.setWidth 16)] := rfl
@[simp] theorem State.invalidCode_cmd (s : State) (w : Code) : (s.invalidCode w).cmd = none := rfl
@[simp] theorem State.invalidCode_host (s : State) (w : Code) :
    (s.invalidCode w).host = s.host := rfl

end Sys2Proof.Machine
end

