-- ==== Sys2Proof/Laws/Memory.lean ====
section
/-! SUPPORT. The arena: a read after a write, the canonical form kept by every operation, and what
TrieReset's 256 writes leave. -/

namespace Sys2Proof.Machine

/-! ### The canonical form -/

@[simp] theorem Memory.wfFrom_nil (lo : Nat) : Memory.wfFrom lo [] = true := rfl

theorem Memory.wfFrom_cons (lo k : Nat) (n : Node) (m : Memory) :
    Memory.wfFrom lo ((k, n) :: m) = true ↔
      lo ≤ k ∧ k < Config.nodeCount ∧ Memory.blank k ≠ some n ∧ Memory.wfFrom (k + 1) m = true := by
  simp [Memory.wfFrom, and_assoc]

theorem Memory.wfFrom_mono {lo lo' : Nat} {m : Memory} (hle : lo' ≤ lo)
    (h : Memory.wfFrom lo m = true) : Memory.wfFrom lo' m = true := by
  cases m with
  | nil => rfl
  | cons e m =>
    obtain ⟨k, n⟩ := e
    rw [Memory.wfFrom_cons] at h ⊢
    exact ⟨hle.trans h.1, h.2⟩

/-- A slot below every listed code reads as unlisted. -/
theorem Memory.read_below {lo c : Nat} {m : Memory} (h : Memory.wfFrom lo m = true) (hc : c < lo) :
    m.read c = Memory.blank c := by
  induction m generalizing lo with
  | nil => rfl
  | cons e m ih =>
    obtain ⟨k, n⟩ := e
    rw [Memory.wfFrom_cons] at h
    have hk : k ≠ c := by omega
    simpa [Memory.read, hk] using ih h.2.2.2 (by omega)

/-! ### Insert, erase, write -/

theorem Memory.read_insert (m : Memory) (c : Nat) (n : Node) (k : Nat) :
    (m.insert c n).read k = if k = c then some n else m.read k := by
  induction m with
  | nil =>
    by_cases hk : k = c
    · simp [Memory.insert, Memory.read, hk]
    · simp [Memory.insert, Memory.read, hk, Ne.symm hk]
  | cons e m ih =>
    obtain ⟨j, n'⟩ := e
    rcases Nat.lt_trichotomy c j with h | h | h
    · by_cases hk : k = c
      · simp [Memory.insert, Memory.read, h, hk]
      · simp [Memory.insert, Memory.read, h, hk, Ne.symm hk]
    · subst h
      by_cases hk : k = c
      · simp [Memory.insert, Memory.read, hk]
      · simp [Memory.insert, Memory.read, hk, Ne.symm hk]
    · have h1 : ¬ c < j := by omega
      have h2 : c ≠ j := by omega
      by_cases hk : k = c
      · subst hk
        simp [Memory.insert, Memory.read, h1, h2, Ne.symm h2, ih]
      · simp [Memory.insert, Memory.read, h1, h2, ih, hk]

theorem Memory.wfFrom_insert {lo c : Nat} {m : Memory} {n : Node}
    (h : Memory.wfFrom lo m = true) (hlo : lo ≤ c) (hc : c < Config.nodeCount)
    (hn : Memory.blank c ≠ some n) : Memory.wfFrom lo (m.insert c n) = true := by
  induction m generalizing lo with
  | nil => simp [Memory.insert, Memory.wfFrom_cons, hlo, hc, hn]
  | cons e m ih =>
    obtain ⟨j, n'⟩ := e
    rw [Memory.wfFrom_cons] at h
    rcases Nat.lt_trichotomy c j with hj | hj | hj
    · simp only [Memory.insert, hj, if_true, Memory.wfFrom_cons]
      exact ⟨hlo, hc, hn, by omega, h.2⟩
    · subst hj
      simp only [Memory.insert, lt_irrefl, if_false, if_true, Memory.wfFrom_cons]
      exact ⟨hlo, hc, hn, h.2.2.2⟩
    · have h1 : ¬ c < j := by omega
      have h2 : c ≠ j := by omega
      simp only [Memory.insert, h1, h2, if_false, Memory.wfFrom_cons]
      exact ⟨h.1, h.2.1, h.2.2.1, ih h.2.2.2 (by omega)⟩

theorem Memory.wfFrom_erase {lo : Nat} {m : Memory} (c : Nat) (h : Memory.wfFrom lo m = true) :
    Memory.wfFrom lo (m.erase c) = true := by
  induction m generalizing lo with
  | nil => rfl
  | cons e m ih =>
    obtain ⟨j, n'⟩ := e
    rw [Memory.wfFrom_cons] at h
    by_cases hj : j = c
    · simpa [Memory.erase, hj] using Memory.wfFrom_mono (by omega) h.2.2.2
    · simp only [Memory.erase, hj, if_false, Memory.wfFrom_cons]
      exact ⟨h.1, h.2.1, h.2.2.1, ih h.2.2.2⟩

theorem Memory.read_erase {lo : Nat} {m : Memory} (c k : Nat) (h : Memory.wfFrom lo m = true) :
    (m.erase c).read k = if k = c then Memory.blank c else m.read k := by
  induction m generalizing lo with
  | nil => by_cases hk : k = c <;> simp [Memory.erase, Memory.read, hk]
  | cons e m ih =>
    obtain ⟨j, n'⟩ := e
    rw [Memory.wfFrom_cons] at h
    by_cases hj : j = c
    · subst hj
      by_cases hk : k = j
      · subst hk
        simpa [Memory.erase] using Memory.read_below h.2.2.2 (by omega)
      · simp [Memory.erase, Memory.read, hk, Ne.symm hk]
    · by_cases hk : k = c
      · subst hk
        simpa [Memory.erase, Memory.read, hj] using ih h.2.2.2
      · by_cases hjk : j = k
        · simp [Memory.erase, Memory.read, hk, hjk]
        · simp [Memory.erase, Memory.read, hj, hk, hjk, ih h.2.2.2]

/-- A read after NodeWrite: the written slot holds the node, every other slot is unchanged
(20_memory.md R62). -/
theorem Memory.read_write {m : Memory} (h : m.wf = true) (c : Nat) (n : Node) (k : Nat) :
    (m.write c n).read k = if k = c then some n else m.read k := by
  unfold Memory.write
  split
  · rename_i hb
    rw [Memory.read_erase c k h]
    split <;> simp_all
  · exact Memory.read_insert m c n k

/-- NodeWrite keeps the canonical form. -/
theorem Memory.wf_write {m : Memory} (h : m.wf = true) {c : Nat} (hc : c < Config.nodeCount)
    (n : Node) : (m.write c n).wf = true := by
  unfold Memory.write
  split
  · exact Memory.wfFrom_erase c h
  · exact Memory.wfFrom_insert h (Nat.zero_le c) hc ‹_›

/-- The canonical form is canonical: equal reads make equal arenas. -/
theorem Memory.eq_of_reads {lo : Nat} {m m' : Memory} (h : Memory.wfFrom lo m = true)
    (h' : Memory.wfFrom lo m' = true) (hr : ∀ k, m.read k = m'.read k) : m = m' := by
  induction m generalizing lo m' with
  | nil =>
    cases m' with
    | nil => rfl
    | cons e m' =>
      obtain ⟨k, n⟩ := e
      rw [Memory.wfFrom_cons] at h'
      exact absurd (by simpa [Memory.read] using hr k) h'.2.2.1
  | cons e m ih =>
    obtain ⟨k, n⟩ := e
    rw [Memory.wfFrom_cons] at h
    cases m' with
    | nil => exact absurd (by simpa [Memory.read] using (hr k).symm) h.2.2.1
    | cons e' m' =>
      obtain ⟨k', n'⟩ := e'
      rw [Memory.wfFrom_cons] at h'
      have hk : k = k' := by
        rcases Nat.lt_trichotomy k k' with hlt | heq | hlt
        · have := hr k
          rw [Memory.read_below (lo := k') (m := (k', n') :: m')
            (by rw [Memory.wfFrom_cons]; exact ⟨le_refl _, h'.2⟩) hlt] at this
          exact absurd (by simpa [Memory.read] using this.symm) h.2.2.1
        · exact heq
        · have := hr k'
          rw [Memory.read_below (lo := k) (m := (k, n) :: m)
            (by rw [Memory.wfFrom_cons]; exact ⟨le_refl _, h.2⟩) hlt] at this
          exact absurd (by simpa [Memory.read] using this) h'.2.2.1
      subst hk
      have hn : n = n' := by simpa [Memory.read] using hr k
      subst hn
      have : m = m' := by
        refine ih h.2.2.2 h'.2.2.2 fun j => ?_
        by_cases hj : k = j
        · subst hj
          rw [Memory.read_below h.2.2.2 (by omega), Memory.read_below h'.2.2.2 (by omega)]
        · simpa [Memory.read, hj] using hr j
      rw [this]

theorem Memory.eq_of_wf {m m' : Memory} (h : m.wf = true) (h' : m'.wf = true)
    (hr : ∀ k, m.read k = m'.read k) : m = m' := Memory.eq_of_reads h h' hr

/-! ### TrieReset's writes (41_trie.md R131) -/

theorem Memory.blank_literal {b : Nat} (h : b < Config.literalLimit) :
    Memory.blank b = some (literalNode b) := by
  simp only [Memory.blank, h, if_true]

theorem Memory.foldl_literals {m : Memory} (h : m.wf = true) (j : Nat) (hj : j ≤ Config.literalLimit) :
    ((List.range j).foldl (fun acc b => acc.write b (literalNode b)) m).wf = true ∧
      ∀ k, ((List.range j).foldl (fun acc b => acc.write b (literalNode b)) m).read k =
        if k < j then some (literalNode k) else m.read k := by
  induction j with
  | zero => simpa using h
  | succ j ih =>
    obtain ⟨hwf, hread⟩ := ih (by omega)
    rw [List.range_succ, List.foldl_append]
    simp only [List.foldl_cons, List.foldl_nil]
    refine ⟨Memory.wf_write hwf (Nat.lt_of_lt_of_le (Nat.lt_of_succ_le hj) (by decide)) _, ?_⟩
    intro k
    rw [Memory.read_write hwf, hread k]
    rcases Nat.lt_trichotomy k j with hk | hk | hk
    · simp [hk, Nat.ne_of_lt hk, Nat.lt_succ_of_lt hk]
    · simp [hk]
    · simp [Nat.ne_of_gt hk, Nat.not_lt_of_gt hk, show ¬ k < j + 1 by omega]

/-- TrieReset keeps the canonical form of the arena. -/
theorem Memory.wf_restoreLiterals {m : Memory} (h : m.wf = true) :
    m.restoreLiterals.wf = true := by
  unfold Memory.restoreLiterals
  exact (Memory.foldl_literals h Config.literalLimit (le_refl _)).1

/-- After TrieReset's writes the literal slots hold the literal nodes and every other slot is
unchanged. -/
theorem Memory.read_restoreLiterals {m : Memory} (h : m.wf = true) (k : Nat) :
    m.restoreLiterals.read k =
      if k < Config.literalLimit then some (literalNode k) else m.read k := by
  rw [Memory.restoreLiterals, (Memory.foldl_literals h Config.literalLimit (le_refl _)).2 k]

/-- Rewriting the literals is idempotent (41_trie.md R131). -/
theorem Memory.restoreLiterals_eq {m : Memory} (h : m.wf = true)
    (hl : ∀ c, c < Config.literalLimit → m.read c = some (literalNode c)) :
    m.restoreLiterals = m := by
  refine Memory.eq_of_wf (Memory.wf_restoreLiterals h) h fun k => ?_
  rw [Memory.read_restoreLiterals h]
  split
  · exact (hl k ‹_›).symm
  · rfl

end Sys2Proof.Machine
end

