-- ==== Sys2Proof/Laws/Trie.lean ====
section
/-! SUPPORT. The trie primitives: which codes read, what a registration and a trie reset leave, and
how a phrase walk depends on its fuel, its accumulator and the arena. -/

namespace Sys2Proof.Machine

/-! ### NodeRead -/

/-- Only a defined code has a node (20_memory.md R61). -/
theorem State.nodeRead_lt {s : State} {c : Code} {n : Node} (h : s.nodeRead c = some n) :
    c < s.nextFree := by
  unfold State.nodeRead at h
  split at h
  · assumption
  · cases h

theorem State.nodeRead_of_lt {s : State} {c : Code} (h : c < s.nextFree) :
    s.nodeRead c = s.nodes.read c.toNat := by
  simp only [State.nodeRead, h, if_true]

theorem State.nodeRead_of_not_lt {s : State} {c : Code} (h : ¬ c < s.nextFree) :
    s.nodeRead c = none := by
  simp only [State.nodeRead, h, if_false]

/-- NodeRead depends on the arena and NEXT_FREE only. -/
theorem State.nodeRead_congr {s t : State} (hn : t.nodes = s.nodes) (hf : t.nextFree = s.nextFree)
    (c : Code) : t.nodeRead c = s.nodeRead c := by
  simp only [State.nodeRead, hn, hf]

/-- NodeRead after a trie reset: the literal nodes and nothing else (41_trie.md R131). -/
theorem State.nodeRead_trieReset {s : State} (h : s.nodes.wf = true) (c : Code) :
    s.trieReset.nodeRead c =
      if c.toNat < Config.literalLimit then some (literalNode c.toNat) else none := by
  have hlt : c < s.trieReset.nextFree ↔ c.toNat < Config.literalLimit := by
    rw [State.trieReset_nextFree, BitVec.lt_def]; rfl
  by_cases hc : c.toNat < Config.literalLimit
  · rw [State.nodeRead_of_lt (hlt.2 hc), State.trieReset_nodes, Memory.read_restoreLiterals h,
      if_pos hc, if_pos hc]
  · rw [State.nodeRead_of_not_lt fun hh => hc (hlt.1 hh), if_neg hc]

/-! ### Register (41_trie.md R133) -/

/-- s with a node written at NEXT_FREE and NEXT_FREE moved on: what a registration leaves. -/
theorem State.register_eq_some {s t : State} {p : Code} {b : Byte} (h : s.register p b = some t) :
    s.nextFree < Config.resetCode ∧ p ≠ Config.rootCode ∧ ∃ n, s.nodeRead p = some n ∧
      t = { s with
        nodes := s.nodes.write s.nextFree.toNat
          { parent := p, depth := n.depth + 1#Config.depthBits, value := b, first := n.first }
        nextFree := s.nextFree + 1#Config.wordBits } := by
  unfold State.register at h
  split at h
  · rename_i hc
    split at h
    · cases h
    · rename_i n hn
      exact ⟨hc.1, hc.2, n, hn, (Option.some.inj h).symm⟩
  · cases h

/-- A registration within R133's precondition succeeds. -/
theorem State.register_of {s : State} {p : Code} {b : Byte} {n : Node}
    (hf : s.nextFree < Config.resetCode) (hp : p ≠ Config.rootCode) (hn : s.nodeRead p = some n) :
    s.register p b = some { s with
      nodes := s.nodes.write s.nextFree.toNat
        { parent := p, depth := n.depth + 1#Config.depthBits, value := b, first := n.first }
      nextFree := s.nextFree + 1#Config.wordBits } := by
  simp only [State.register, hf, hp, ne_eq, not_false_eq_true, and_self, if_true, hn]

/-- NEXT_FREE does not wrap while a code is free. -/
theorem nextFree_succ_toNat {f : Code} (h : f < Config.resetCode) :
    (f + 1#Config.wordBits).toNat = f.toNat + 1 := by
  have h' : f.toNat < 0x3FFE := h
  have e : (f + 1#Config.wordBits).toNat = (f.toNat + 1) % 2 ^ 14 := BitVec.toNat_add f 1#14
  rw [e]
  omega

/-- NodeRead after a node is written at NEXT_FREE: the new code reads it, the others are as before. -/
theorem State.nodeRead_written {s : State} (hwf : s.nodes.wf = true)
    (hf : s.nextFree < Config.resetCode) (nd : Node) (c : Code) :
    State.nodeRead { s with nodes := s.nodes.write s.nextFree.toNat nd,
                            nextFree := s.nextFree + 1#Config.wordBits } c =
      if c = s.nextFree then some nd else s.nodeRead c := by
  have hs := nextFree_succ_toNat hf
  by_cases hc : c = s.nextFree
  · have hlt : s.nextFree < s.nextFree + 1#Config.wordBits := by rw [BitVec.lt_def, hs]; omega
    simp only [State.nodeRead, hc, hlt, if_true, Memory.read_write hwf]
  · have hne : c.toNat ≠ s.nextFree.toNat := fun h => hc (BitVec.eq_of_toNat_eq h)
    have hiff : (c < s.nextFree + 1#Config.wordBits) ↔ (c < s.nextFree) := by
      rw [BitVec.lt_def, BitVec.lt_def, hs]; omega
    simp only [State.nodeRead, hiff, Memory.read_write hwf, hc, hne, if_false]

/-! ### Phrase (41_trie.md R134) -/

/-- The accumulator only goes behind the phrase. -/
theorem State.phraseWalk_acc (s : State) (fuel : Nat) (c : Code) (acc : List Byte) :
    s.phraseWalk fuel c acc = (s.phraseWalk fuel c []).map (· ++ acc) := by
  induction fuel generalizing c acc with
  | zero => rfl
  | succ fuel ih =>
    simp only [State.phraseWalk]
    split
    · simp
    · split
      · rfl
      · rename_i n _
        rw [ih n.parent (n.value :: acc), ih n.parent [n.value]]
        cases s.phraseWalk fuel n.parent [] <;> simp

/-- More fuel finds the same phrase. -/
theorem State.phraseWalk_mono {s : State} {fuel fuel' : Nat} {c : Code} {acc l : List Byte}
    (h : s.phraseWalk fuel c acc = some l) (hle : fuel ≤ fuel') :
    s.phraseWalk fuel' c acc = some l := by
  induction fuel generalizing c acc fuel' with
  | zero => cases h
  | succ fuel ih =>
    obtain ⟨f, rfl⟩ : ∃ f, fuel' = f + 1 := ⟨fuel' - 1, by omega⟩
    simp only [State.phraseWalk] at h ⊢
    split
    · rename_i hc; simpa only [hc, if_true] using h
    · rename_i hc
      simp only [hc, if_false] at h
      cases hn : s.nodeRead c with
      | none => simp only [hn] at h; cases h
      | some n => simp only [hn] at h ⊢; exact ih h (by omega)

/-- A phrase of one state is the phrase of any state that reads the same nodes. -/
theorem State.phraseWalk_of_reads {s t : State} (hr : ∀ c n, s.nodeRead c = some n →
    t.nodeRead c = some n) {fuel : Nat} {c : Code} {acc l : List Byte}
    (h : s.phraseWalk fuel c acc = some l) : t.phraseWalk fuel c acc = some l := by
  induction fuel generalizing c acc with
  | zero => cases h
  | succ fuel ih =>
    simp only [State.phraseWalk] at h ⊢
    split
    · rename_i hc; simpa only [hc, if_true] using h
    · rename_i hc
      simp only [hc, if_false] at h
      cases hn : s.nodeRead c with
      | none => simp only [hn] at h; cases h
      | some n => simp only [hn, hr c n hn] at h ⊢; exact ih h

/-- States that read the same nodes have the same phrases. -/
theorem State.phrase_congr {s t : State} (hr : ∀ c, s.nodeRead c = t.nodeRead c) (c : Code) :
    s.phrase c = t.phrase c := by
  unfold State.phrase
  cases hs : s.phraseWalk (Config.nodeCount + 1) c [] with
  | some l =>
    exact (State.phraseWalk_of_reads (fun c n hn => (hr c).symm.trans hn) hs).symm
  | none =>
    cases ht : t.phraseWalk (Config.nodeCount + 1) c [] with
    | none => rfl
    | some l =>
      rw [State.phraseWalk_of_reads (fun c n hn => (hr c).trans hn) ht] at hs
      cases hs

/-- States that read the same nodes and have the same NEXT_FREE have the same children. -/
theorem State.child_congr {s t : State} (hf : s.nextFree = t.nextFree)
    (hr : ∀ c, s.nodeRead c = t.nodeRead c) (p : Code) (b : Byte) : s.child p b = t.child p b := by
  have h : s.isChild p b = t.isChild p b := by
    funext c
    simp only [State.isChild, hr]
  rw [State.child, State.child, h, hf]

end Sys2Proof.Machine
end

