-- ==== Sys2Proof/Laws/Frames.lean ====
section
/-! SUPPORT. What each shared operation and each branching meaning can do, said once: if it answers a
next state, then that state has one of the forms below. -/

namespace Sys2Proof.Machine

/-! ### Responses -/

/-- A completion with a response word is a delivery of that word. -/
theorem next_respond {u : State} {e k : BitVec 4} {v : BitVec 16} {r : RespWord}
    (h : respWord e k v = r) :
    (Host.Outcome.next (u.respond e k v) : Result) = .next (u.delivered r) := by
  subst h
  rfl

/-- An error response is a failure with the error's code and word. -/
theorem next_raise {u : State} {e : Err} {v : BitVec 16} {c : BitVec 4} {r : RespWord}
    (hc : e.code = c) (h : respWord e.code (errKind e) v = r) :
    (Host.Outcome.next (u.raise e v) : Result) = .next (u.failed c r) := by
  subst hc
  subst h
  rfl

/-- Every error has a code of 60_exceptions.md R200, and 0 is none of them. -/
theorem Err.code_range (e : Err) : e.code ≠ 0#4 ∧ e.code ≤ 6#4 := by
  cases e <;> decide

/-- KIND is 1 for INVALID_CODE and 0 otherwise (60_exceptions.md R201). -/
theorem errKind_eq (e : Err) : errKind e = if e.code = 5#4 then 1#4 else 0#4 := by
  cases e <;> decide

theorem kindOf_le (c : WordClass) : kindOf c ≤ 3#4 := by
  cases c <;> decide

/-! ### The trie -/

/-- A registration changes the arena and NEXT_FREE only (41_trie.md R133). -/
theorem State.register_frame {s t : State} {p : Code} {b : Byte} (h : s.register p b = some t) :
    ∃ m nf, t = { s with nodes := m, nextFree := nf } := by
  obtain ⟨_, _, n, _, h⟩ := State.register_eq_some h
  exact ⟨_, _, h⟩

/-- ExecCode's registration changes the arena and NEXT_FREE only (43_decoder.md R174). -/
theorem State.learn_frame {s t : State} {b : Byte} (h : s.learn b = some t) :
    ∃ m nf, t = { s with nodes := m, nextFree := nf } := by
  unfold State.learn at h
  split at h
  · exact State.register_frame h
  · cases h
    exact ⟨_, _, rfl⟩

/-- A code is a child exactly if its node has that parent and value (41_trie.md R132). -/
theorem State.isChild_iff {s : State} {p : Code} {b : Byte} {c : Code} :
    s.isChild p b c.toNat = true ↔ ∃ n, s.nodeRead c = some n ∧ n.parent = p ∧ n.value = b := by
  unfold State.isChild
  rw [BitVec.ofNat_toNat, BitVec.setWidth_eq]
  cases s.nodeRead c <;> simp

/-! ### The unpacker -/

/-- A word is there when 14 bits are (40_packer.md R114). -/
theorem State.wordReady_iff (s : State) :
    s.wordReady ↔ 14 ≤ s.upAvail.toNat + 8 * s.inq.length := Iff.rfl

/-- IN is short of a word exactly when fewer than WORD_BITS bits are there (40_packer.md R114). -/
theorem State.inShort_iff (s : State) : s.inShort = true ↔ ¬ s.wordReady := by
  unfold State.inShort State.needBytes State.wordReady
  simp
  omega

theorem State.inShort_of_ready {s : State} (h : s.wordReady) : s.inShort = false := by
  cases hs : s.inShort with
  | false => rfl
  | true => exact absurd h ((State.inShort_iff s).1 hs)

/-- The low bits of a byte in stream order. -/
theorem msbBits_drop {a v : Nat} (h : a ≤ 8) : (msbBits 8 v).drop (8 - a) = msbBits a v := by
  have := msbBits_add (8 - a) a v
  rw [show 8 - a + a = 8 by omega] at this
  rw [this, List.drop_append_of_le_length (by simp)]
  simp

/-- What UnpackWord takes: whole bytes from the front of IN, of which the last stays in UP_BUF; the
bits before are the word's and then those that stay (40_packer.md R114). -/
theorem State.wordTaken_spec {s : State} (ha : s.upAvail.toNat ≤ 8) (hr : s.wordReady) :
    ∃ taken, s.inq = taken ++ s.wordTaken.inq ∧
      taken.getLast? = some s.wordTaken.upBuf ∧ s.wordTaken.upAvail.toNat < 8 ∧
      s.upAvail.toNat + 8 * taken.length = 14 + s.wordTaken.upAvail.toNat ∧
      msbBits s.upAvail.toNat s.upBuf.toNat ++ streamBits s.inq =
        msbBits 14 s.nextWord.toNat ++
          msbBits s.wordTaken.upAvail.toNat s.wordTaken.upBuf.toNat ++
          streamBits s.wordTaken.inq := by
  obtain ⟨x, b', a', taken, rest, he, hx, hin, hb, hav, hl, hbits⟩ :=
    takeBits_spec s.inq 14 0 s.upBuf s.upAvail.toNat (by decide) ha hr
  have e1 : s.wordTaken.upBuf = b' := by simp [he]
  have e2 : s.wordTaken.upAvail.toNat = a' := by simp [he]; omega
  have e3 : s.wordTaken.inq = rest := by simp [he]
  have e4 : s.nextWord.toNat = x := by
    rw [State.nextWord, show takeBits Config.wordBits = takeBits 14 from rfl, he]
    simp only [Nat.zero_mul, Nat.zero_add]
    exact Code.ofNat_toNat hx
  rw [e1, e2, e3, e4]
  refine ⟨taken, hin, ?_, hav, hl, hbits⟩
  rw [hb]
  cases hg : taken.getLast? with
  | none =>
    rw [List.getLast?_eq_none_iff] at hg
    subst hg
    simp at hl
    omega
  | some y => rfl

/-! ### The compressor -/

/-- Saturate writes the packer, the dictionary and ENC_SAT only (42_encoder.md R153). -/
theorem State.saturate_frame (s : State) :
    ∃ w p n m nf es, s.saturate.2 =
      { s with outw := s.outw ++ w, pkAcc := p, pkNbits := n, nodes := m, nextFree := nf,
               encSat := es } := by
  unfold State.saturate
  dsimp only
  split
  · exact ⟨_, _, _, _, _, _, by rw [State.trieReset, State.packWord]⟩
  · exact ⟨[], s.pkAcc, s.pkNbits, s.nodes, s.nextFree, s.encSat + 1#10, by simp⟩

/-- ENC_BYTE writes the packer, the dictionary, ENC_CUR and ENC_SAT, or fails with NOT_ACTIVE
(42_encoder.md R152). -/
theorem execEncByte_frame {b : Byte} {s t : State} (h : execEncByte b s = .next t) :
    (s.mode = .enc ∧ ∃ w p n m nf es c v,
      t = ({ s with outw := s.outw ++ w, pkAcc := p, pkNbits := n, nodes := m, nextFree := nf,
                    encSat := es, encCur := c } : State).respond 0#4 0#4 v) ∨
    (s.mode ≠ .enc ∧ t = s.raise .notActive 0#16) := by
  unfold execEncByte at h
  split at h
  · cases h
    exact .inr ⟨by assumption, rfl⟩
  · rename_i hm
    refine .inl ⟨by simpa using hm, ?_⟩
    split at h
    · rename_i c _
      cases h
      exact ⟨[], s.pkAcc, s.pkNbits, s.nodes, s.nextFree, s.encSat, c, 0#16, by simp⟩
    · unfold encMiss encMoveToRootChild at h
      dsimp only at h
      split at h
      · split at h
        · rename_i hr
          obtain ⟨m, nf, rfl⟩ := State.register_frame hr
          split at h
          · cases h
            exact ⟨_, _, _, _, _, _, _, _, rfl⟩
          · cases h
        · cases h
      · obtain ⟨w, p, n, m, nf, es, e⟩ := State.saturate_frame (s.packWord s.encCur)
        rw [e] at h
        split at h
        · cases h
          exact ⟨s.packedBytes s.encCur ++ w, _, _, _, _, _, _, _, by
            rw [← List.append_assoc]; rfl⟩
        · cases h

/-! ### The decompressor -/

/-- A literal or DICT word writes the dictionary, OUTD and DEC_PREV, or fails with INVALID_CODE
(43_decoder.md R174, R175). -/
theorem execCode_frame {w : Code} {s t : State} (h : execCode w s = .next t) :
    (∃ m nf out dp k v, k ≤ 3#4 ∧
      t = ({ s with nodes := m, nextFree := nf, outd := s.outd ++ out,
                    decPrev := dp } : State).respond 0#4 k v) ∨
    t = s.invalidCode w := by
  have key : ∀ ph, emitPhrase w ph s = .next t → ∃ m nf out dp k v, k ≤ 3#4 ∧
      t = ({ s with nodes := m, nextFree := nf, outd := s.outd ++ out,
                    decPrev := dp } : State).respond 0#4 k v := by
    intro ph h
    unfold emitPhrase at h
    split at h
    · cases h
    · cases h
    · split at h
      · cases h
      · rename_i hl
        obtain ⟨m, nf, rfl⟩ := State.learn_frame hl
        cases h
        exact ⟨_, _, _, _, _, _, kindOf_le _, rfl⟩
  unfold execCode at h
  split at h
  · exact .inl (key _ h)
  · split at h
    · exact .inl (key _ h)
    · cases h
      exact .inr rfl

/-- A stream word writes the dictionary, OUTD, DEC_PREV and MODE, or fails with INVALID_CODE
(43_decoder.md R172 to R175). -/
theorem execStreamWord_frame {w : Code} {s t : State} (h : execStreamWord w s = .next t) :
    (∃ m nf out dp md k v, k ≤ 3#4 ∧ (md = s.mode ∨ md = .decDone) ∧
      t = ({ s with nodes := m, nextFree := nf, outd := s.outd ++ out, decPrev := dp,
                    mode := md } : State).respond 0#4 k v) ∨
    ∃ w, t = s.invalidCode w := by
  unfold execStreamWord at h
  split at h
  · rcases execCode_frame h with ⟨m, nf, o, dp, k, v, hk, e⟩ | e
    · exact .inl ⟨m, nf, o, dp, s.mode, k, v, hk, .inl rfl, e⟩
    · exact .inr ⟨_, e⟩
  · cases h
    refine .inl ⟨s.nodes.restoreLiterals, Config.firstDyn, [], Config.rootCode, s.mode, 2#4, 0#16,
      by decide, .inl rfl, ?_⟩
    rw [State.trieReset]
    simp [kindOf]
  · cases h
    refine .inl ⟨s.nodes, s.nextFree, [], s.decPrev, .decDone, 3#4, 0#16, by decide, .inr rfl, ?_⟩
    simp [kindOf]
  · rcases execCode_frame h with ⟨m, nf, o, dp, k, v, hk, e⟩ | e
    · exact .inl ⟨m, nf, o, dp, s.mode, k, v, hk, .inl rfl, e⟩
    · exact .inr ⟨_, e⟩

/-- The execution of a stream word is the meaning of the instruction it decodes to. -/
theorem execStreamWord_eq (w : Code) (s : State) : execStreamWord w s = exec (decodeStream w) s := by
  unfold execStreamWord decodeStream
  cases classify w <;> rfl

/-- DEC_STEP fails with NOT_ACTIVE, holds, fails with TRUNCATED, or executes the next word
(43_decoder.md R171, R176). -/
theorem execDecStep_frame {s t : State} (h : execDecStep s = .next t) :
    (s.mode ≠ .dec ∧ t = s.raise .notActive 0#16) ∨
    (s.mode = .dec ∧
      ((s.wordHeld = true ∧ t = s) ∨
       (s.wordHeld = false ∧ s.inShort = true ∧
        t = ({ s.wordTruncated with mode := .decErr } : State).raise .truncated
          (BitVec.ofNat 16 s.truncatedBits)) ∨
       (s.wordHeld = false ∧ s.inShort = false ∧
        execStreamWord s.nextWord s.wordTaken = .next t))) := by
  unfold execDecStep at h
  split at h
  · cases h
    exact .inl ⟨by assumption, rfl⟩
  · rename_i hm
    refine .inr ⟨by simpa using hm, ?_⟩
    cases hh : s.wordHeld <;> simp [hh] at h
    · cases hs : s.inShort <;> simp [hs] at h
      · exact .inr (.inr ⟨rfl, rfl, h⟩)
      · exact .inr (.inl ⟨rfl, rfl, h.symm⟩)
    · exact .inl ⟨rfl, h.symm⟩

/-! ### Steps and runs -/

/-- While no command runs, the step is the host's. -/
theorem step_host {s : State} (h : s.cmd = none ∨ ∃ w, s.cmd = some w ∧ wordHolds w s = true) :
    step s = hostStep s := by
  rcases h with h | ⟨w, h, hh⟩
  · simp [step, h]
  · simp [step, h, hh]

/-- A run of two lists of instructions is the second run after the first. -/
theorem execAll_append (xs ys : List Instr) (s t : State) (h : execAll xs s = .next t) :
    execAll (xs ++ ys) s = execAll ys t := by
  induction xs generalizing s with
  | nil =>
    simp only [execAll] at h
    cases h
    rfl
  | cons i xs ih =>
    simp only [List.cons_append, execAll] at h ⊢
    cases he : exec i s with
    | next s' =>
      simp only [he] at h ⊢
      exact ih s' h
    | fault r => simp only [he] at h; cases h
    | refused r => simp only [he] at h; cases h

end Sys2Proof.Machine
end

