-- ==== Sys2Proof/Laws/Invariant.lean ====
section
/-! SUPPORT. How to show that a concrete state meets the invariant: a check that evaluates, and
arenas of many equal nodes, whose reads have a closed form. -/

namespace Sys2Proof.Machine

/-! ### The invariant as a check -/

/-- R55 (g) of one code. -/
def State.dynamicCheck (s : State) (c : Nat) : Bool :=
  match s.nodeRead (BitVec.ofNat Config.wordBits c) with
  | none => false
  | some n =>
    decide (n.parent.toNat < c) &&
      match s.nodeRead n.parent with
      | none => false
      | some m => decide (n.depth.toNat = m.depth.toNat + 1) && decide (n.first = m.first)

/-- The part of the invariant that does not speak of the arena. -/
def State.registerCheck (s : State) : Bool :=
  decide (s.pkAcc.toNat < 2 ^ s.pkNbits.toNat ∧ s.pkNbits.toNat % 2 = 0) &&
  decide (s.upAvail.toNat ≤ 6 ∧ s.upAvail.toNat % 2 = 0) &&
  decide (Config.firstDyn ≤ s.nextFree ∧ s.nextFree ≤ Config.resetCode) &&
  decide (s.encSat ≤ Config.satLimit ∧
    (s.mode = .enc → s.nextFree < Config.resetCode → s.encSat = 0#10)) &&
  decide (s.mode = .enc → s.encCur = Config.rootCode ∨ s.encCur < s.nextFree) &&
  decide (s.mode = .dec → s.decPrev = Config.rootCode ∨ s.decPrev < s.nextFree) &&
  decide (s.mode = .enc → s.pkClosed = false) && decide (s.stickyErr ≤ 6#4)

/-- The register check with the arena's parts of the invariant gives the invariant. -/
theorem State.inv_of_registerCheck {s : State} (h : s.registerCheck = true) (hl : s.LiteralInv)
    (hd : s.DynamicInv) (hw : s.nodes.wf = true) : s.Inv := by
  simp only [State.registerCheck, Bool.and_eq_true, decide_eq_true_eq] at h
  obtain ⟨⟨⟨⟨⟨⟨⟨h1, h2⟩, h3⟩, h4⟩, h5⟩, h6⟩, h7⟩, h8⟩ := h
  exact ⟨h1, h2, h3, h4, h5, h6, hl, hd, h7, h8, hw⟩

/-- The whole invariant as a check. -/
def State.invCheck (s : State) : Bool :=
  s.registerCheck &&
  (List.range Config.literalLimit).all (fun c => decide (s.nodes.read c = some (literalNode c))) &&
  (List.range s.nextFree.toNat).all (fun c => decide (c < Config.literalLimit) || s.dynamicCheck c) &&
  s.nodes.wf

/-- A state that passes the check meets the invariant. -/
theorem State.inv_of_invCheck {s : State} (h : s.invCheck = true) : s.Inv := by
  simp only [State.invCheck, Bool.and_eq_true, List.all_eq_true, List.mem_range,
    decide_eq_true_eq, Bool.or_eq_true] at h
  obtain ⟨⟨⟨h1, h2⟩, h3⟩, h4⟩ := h
  refine State.inv_of_registerCheck h1 (fun c hc => h2 c hc) ?_ h4
  intro c hlo hhi
  have hlo' : 256 ≤ c.toNat := hlo
  have hc := (h3 c.toNat hhi).resolve_left (by simp only [Config.literalLimit]; omega)
  unfold State.dynamicCheck at hc
  rw [BitVec.ofNat_toNat, BitVec.setWidth_eq] at hc
  split at hc
  · cases hc
  · rename_i n hn
    rw [Bool.and_eq_true, decide_eq_true_eq] at hc
    obtain ⟨hp, hc⟩ := hc
    split at hc
    · cases hc
    · rename_i m hm
      rw [Bool.and_eq_true, decide_eq_true_eq, decide_eq_true_eq] at hc
      exact ⟨n, m, hn, hp, hm, hc.1, hc.2⟩

/-! ### Arenas of equal nodes -/

/-- n slots from lo on, all holding the node nd. -/
def Memory.block (nd : Node) : Nat → Nat → Memory
  | _, 0 => []
  | lo, n + 1 => (lo, nd) :: Memory.block nd (lo + 1) n

theorem Memory.read_block (nd : Node) (lo n c : Nat) :
    (Memory.block nd lo n).read c = if lo ≤ c ∧ c < lo + n then some nd else Memory.blank c := by
  induction n generalizing lo with
  | zero =>
    rw [if_neg (by omega)]
    rfl
  | succ n ih =>
    rw [Memory.block, Memory.read, ih]
    by_cases h : lo = c
    · rw [if_pos h, if_pos (by omega)]
    · rw [if_neg h]
      by_cases h' : lo + 1 ≤ c ∧ c < lo + 1 + n
      · rw [if_pos h', if_pos (by omega)]
      · rw [if_neg h', if_neg (by omega)]

theorem Memory.wfFrom_block (nd : Node) (lo n : Nat) (h0 : Config.literalLimit ≤ lo)
    (h1 : lo + n ≤ Config.nodeCount) : Memory.wfFrom lo (Memory.block nd lo n) = true := by
  induction n generalizing lo with
  | zero => rfl
  | succ n ih =>
    rw [Memory.block, Memory.wfFrom_cons]
    refine ⟨le_refl lo, by omega, ?_, ih (lo + 1) (by omega) (by omega)⟩
    rw [Memory.blank, if_neg (Nat.not_lt.2 h0)]
    exact Option.some_ne_none nd |>.symm

/-- The node [0x41 0x00] under literal 0x41. -/
def blockNode : Node := { parent := 0x41#14, depth := 2#14, value := 0x00#8, first := 0x41#8 }

/-- s with the dynamic codes 0x100 to 0x100 + n - 1 all defined as blockNode. -/
def State.filled (s : State) (n : Nat) : State :=
  { s with
    nodes := Memory.block blockNode 0x100 n
    nextFree := BitVec.ofNat Config.wordBits (0x100 + n) }

theorem State.filled_nodeRead (s : State) {n : Nat} (hn : n ≤ 0x3EFE) (c : Code) :
    (s.filled n).nodeRead c =
      if c.toNat < 0x100 then some (literalNode c.toNat)
      else if c.toNat < 0x100 + n then some blockNode else none := by
  have hf : (s.filled n).nextFree.toNat = 0x100 + n := Code.ofNat_toNat (by omega)
  by_cases hc : c.toNat < 0x100 + n
  · rw [State.nodeRead_of_lt (by rw [BitVec.lt_def, hf]; exact hc)]
    show (Memory.block blockNode 0x100 n).read c.toNat = _
    rw [Memory.read_block]
    by_cases hl : c.toNat < 0x100
    · rw [if_neg (by omega), if_pos hl]
      exact Memory.blank_literal hl
    · rw [if_pos (by omega), if_neg hl, if_pos hc]
  · rw [State.nodeRead_of_not_lt (by rw [BitVec.lt_def, hf]; exact hc), if_neg (by omega),
      if_neg hc]

/-- A filled state meets the invariant when its registers do. -/
theorem State.filled_inv (s : State) {n : Nat} (hn : n ≤ 0x3EFE)
    (h : (s.filled n).registerCheck = true) : (s.filled n).Inv := by
  refine State.inv_of_registerCheck h ?_ ?_ ?_
  · intro c hc
    have hc' : c < 0x100 := hc
    show (Memory.block blockNode 0x100 n).read c = _
    rw [Memory.read_block, if_neg (by omega), Memory.blank_literal hc]
  · intro c h1 h2
    have h1' : 0x100 ≤ c.toNat := h1
    have h2' : c.toNat < (BitVec.ofNat Config.wordBits (0x100 + n)).toNat := h2
    rw [Code.ofNat_toNat (by omega)] at h2'
    refine ⟨blockNode, literalNode 0x41, ?_, ?_, ?_, by decide, by decide⟩
    · rw [State.filled_nodeRead s hn, if_neg (by omega), if_pos (by omega)]
    · show (0x41#14).toNat < c.toNat
      rw [BitVec.toNat_ofNat]
      omega
    · rw [State.filled_nodeRead s hn, if_pos (by decide)]
      rfl
  · exact Memory.wfFrom_mono (Nat.zero_le _)
      (Memory.wfFrom_block blockNode 0x100 n (le_refl _) (by rw [Config.nodeCount_eq]; omega))

/-- A dynamic code of a filled state has no child. -/
theorem State.filled_child (s : State) {n : Nat} (hn : n ≤ 0x3EFE) {p : Code}
    (hp : 0x100 ≤ p.toNat) (hr : p ≠ Config.rootCode) (b : Byte) : (s.filled n).child p b = none := by
  unfold State.child
  rw [Option.map_eq_none_iff, List.find?_eq_none]
  intro c _ hc
  unfold State.isChild at hc
  rw [State.filled_nodeRead s hn] at hc
  by_cases hl : (BitVec.ofNat Config.wordBits c).toNat < 0x100
  · simp only [hl, if_true, literalNode, Bool.and_eq_true, decide_eq_true_eq] at hc
    exact hr hc.1.symm
  · by_cases hd : (BitVec.ofNat Config.wordBits c).toNat < 0x100 + n
    · simp only [hl, hd, if_false, if_true, blockNode, Bool.and_eq_true, decide_eq_true_eq] at hc
      have : 0x41 = p.toNat := congrArg BitVec.toNat hc.1
      omega
    · simp only [hl, hd, if_false, Bool.false_eq_true] at hc

end Sys2Proof.Machine
end

