-- ==== Sys2Proof/Laws/PerInstr.lean ====
section
/-! SUPPORT. The families of statements made per instruction, one lemma per constructor of Instr. -/

namespace Sys2Proof.Laws

/-- A mask that covers whole high bits takes the high part of a value. -/
theorem and_high (k hi lo m : Nat) (h : lo < 2 ^ k) :
    (hi * 2 ^ k + lo) &&& (m * 2 ^ k) = (hi &&& m) * 2 ^ k := by
  apply Nat.eq_of_testBit_eq
  intro i
  rw [Nat.mul_comm hi, Nat.mul_comm m, Nat.mul_comm (hi &&& m), Nat.testBit_and,
    Nat.testBit_two_pow_mul_add _ h, Nat.testBit_two_pow_mul, Nat.testBit_two_pow_mul,
    Nat.testBit_and]
  by_cases hi : i < k
  · simp [hi, Nat.not_le.2 hi]
  · simp [hi, Nat.not_lt.1 hi]

/-- A command word under a mask of its upper 18 bits is its opcode. -/
theorem commandWord_and (opc : BitVec 8) (op : Code) :
    (commandWord opc op).toNat &&& 0xFFFFC000 = opc.toNat * 2 ^ 24 := by
  have h := and_high 14 (opc.toNat * 2 ^ 10) op.toNat 0x3FFFF op.isLt
  rw [show opc.toNat * 2 ^ 10 * 2 ^ 14 = opc.toNat * 2 ^ 24 by omega] at h
  rw [commandWord_toNat, show (0xFFFFC000 : Nat) = 0x3FFFF * 2 ^ 14 by decide, h]
  have hm : opc.toNat * 2 ^ 10 &&& 0x3FFFF = opc.toNat * 2 ^ 10 :=
    (Nat.and_two_pow_sub_one_eq_mod _ 18).trans
      (Nat.mod_eq_of_lt (by have := opc.isLt; omega))
  rw [hm]
  omega

/-- An instruction's encoding has the width of its row of spec/opcode_table.json and the row's fixed
bits. -/
def RowMatch.Statement (i : Instr) : Prop :=
  i.wf = true →
    (encode i).bits.1 = i.tableRow.width ∧
    (encode i).bits.2 &&& i.tableRow.mask = i.tableRow.pattern

theorem RowMatch.lit (b : Byte) : RowMatch.Statement (.lit b) := by
  intro _
  refine ⟨rfl, ?_⟩
  have h := and_high 8 0 b.toNat 0x3F b.isLt
  rw [Nat.zero_mul, Nat.zero_add] at h
  simp only [encode, Encoded.bits, Instr.tableRow, byteCode_toNat]
  exact h.trans (by decide)

theorem RowMatch.reset : RowMatch.Statement .reset := fun _ => by decide

theorem RowMatch.eos : RowMatch.Statement .eos := fun _ => by decide

theorem RowMatch.dict (c : Code) : RowMatch.Statement (.dict c) :=
  fun _ => ⟨rfl, Nat.and_zero _⟩

theorem RowMatch.nop : RowMatch.Statement .nop := fun _ => by decide

theorem RowMatch.pkInit : RowMatch.Statement .pkInit := fun _ => by decide

theorem RowMatch.pkWrite (w : Code) : RowMatch.Statement (.pkWrite w) :=
  fun _ => ⟨rfl, commandWord_and 0x02#8 w⟩

theorem RowMatch.pkClose : RowMatch.Statement .pkClose := fun _ => by decide

theorem RowMatch.upInit : RowMatch.Statement .upInit := fun _ => by decide

theorem RowMatch.upRead : RowMatch.Statement .upRead := fun _ => by decide

theorem RowMatch.encStart : RowMatch.Statement .encStart := fun _ => by decide

theorem RowMatch.encByte (b : Byte) : RowMatch.Statement (.encByte b) := by
  intro _
  refine ⟨rfl, ?_⟩
  have h := and_high 8 0x110000 b.toNat 0xFFFFFF b.isLt
  have e : (commandWord 0x11#8 (b.setWidth 14)).toNat = 0x110000 * 2 ^ 8 + b.toNat := by
    rw [commandWord_toNat, byteCode_toNat]
    rfl
  simp only [encode, Encoded.bits, Instr.tableRow, e]
  exact h.trans (by decide)

theorem RowMatch.encClose : RowMatch.Statement .encClose := fun _ => by decide

theorem RowMatch.decStart : RowMatch.Statement .decStart := fun _ => by decide

theorem RowMatch.decStep : RowMatch.Statement .decStep := fun _ => by decide

theorem RowMatch.rdReg (idx : Code) : RowMatch.Statement (.rdReg idx) :=
  fun _ => ⟨rfl, commandWord_and 0x30#8 idx⟩

theorem RowMatch.clrErr : RowMatch.Statement .clrErr := fun _ => by decide

end Sys2Proof.Laws
end

