-- ==== Sys2Proof/Tests/Slice0.lean ====
section
/-! SUPPORT. Tests on fixed values: well-formedness, one decoded word for every instruction, one step
of every instruction against the vectors of spec/95_test_vectors.md, and for every statement with
hypotheses a state that meets them. -/

namespace Sys2Proof.Tests

open Sys2Proof.Machine

/-! ### Helpers -/

/-- What a next state shows; none for any other outcome. -/
def seen {α : Type} (r : Result) (f : State → α) : Option α :=
  match r with
  | .next t => some (f t)
  | .fault _ => none
  | .refused _ => none

/-- A compression session in progress on the trie of V-TR-3, four bits pending. -/
def encState : State :=
  { State.reset with
    mode := .enc, pkAcc := 0x02#7, pkNbits := 4#3, encCur := 0x0002#14, nextFree := 0x0102#14
    nodes := [(0x100, { parent := 0x0001#14, depth := 2#14, value := 0x02#8, first := 0x01#8 }),
              (0x101, { parent := 0x0002#14, depth := 2#14, value := 0x02#8, first := 0x02#8 })] }

/-- The decompression session of V-DE-1 before its third word. -/
def decState : State :=
  { State.reset with
    mode := .dec, decPrev := 0x0002#14, nextFree := 0x0101#14, upBuf := 0x20#8, upAvail := 4#4
    inq := [0x40#8, 0x7F#8, 0xFF#8, 0x00#8], outd := [0x01#8, 0x02#8]
    nodes := [(0x100, { parent := 0x0001#14, depth := 2#14, value := 0x02#8, first := 0x01#8 })] }

/-- The session of V-DE-4 and V-DE-7 after the literal 41 was decoded twice. -/
def twiceState : State :=
  { State.reset with
    mode := .dec, decPrev := 0x0041#14, nextFree := 0x0101#14
    nodes := [(0x100, { parent := 0x0041#14, depth := 2#14, value := 0x41#8, first := 0x41#8 })] }

/-- A compression session whose code space is exhausted, after n exhausted misses. -/
def fullEnc (n : BitVec 10) : State :=
  { State.reset with mode := .enc, encCur := 0x3FFD#14, encSat := n }.filled 0x3EFE

/-- A decompression session with n dynamic codes and a previous code. -/
def filledDec (n : Nat) (prev : Code) : State :=
  { State.reset with mode := .dec, decPrev := prev }.filled n

/-- A compression session with n dynamic codes, at a code without children. -/
def filledEnc (n : Nat) : State :=
  { State.reset with mode := .enc, encCur := 0x0100#14 }.filled n

/-! ### Well-formedness (30_encoding.md R81, R90) -/

theorem test_wf_dict_below : Instr.wf (.dict 0x00FF#14) = false := by decide
theorem test_wf_dict_reset_code : Instr.wf (.dict 0x3FFE#14) = false := by decide
theorem test_wf_dict_eos_code : Instr.wf (.dict 0x3FFF#14) = false := by decide
theorem test_wf_rdReg_reserved : Instr.wf (.rdReg 7#14) = false := by decide
theorem test_wf_bounds :
    Instr.wf (.dict 0x0100#14) = true ∧ Instr.wf (.dict 0x3FFD#14) = true ∧
      Instr.wf (.rdReg 6#14) = true := by decide

/-! ### Decoding: one word per constructor, written from R81, R88 and R89 -/

-- Stream words of R81: the value is the class.
theorem test_decode_lit : decode (.stream 0b00000011111111#14) = .ok (.lit 0xFF#8) := by decide
theorem test_decode_reset : decode (.stream 0b11111111111110#14) = .ok .reset := by decide
theorem test_decode_eos : decode (.stream 0b11111111111111#14) = .ok .eos := by decide
theorem test_decode_dict : decode (.stream 0b00000100000001#14) = .ok (.dict 0x0101#14) := by decide
-- Command words of R88: OPC in bits 31..24, RSV 23..14, OPERAND 13..0; opcodes of R89.
theorem test_decode_nop : decode (.command 0x00000000#32) = .ok .nop := by decide
theorem test_decode_pkInit : decode (.command 0x01000000#32) = .ok .pkInit := by decide
theorem test_decode_pkWrite :
    decode (.command 0b00000010000000000010101010101010#32) = .ok (.pkWrite 0x2AAA#14) := by decide
theorem test_decode_pkClose : decode (.command 0x03000000#32) = .ok .pkClose := by decide
theorem test_decode_upInit : decode (.command 0x04000000#32) = .ok .upInit := by decide
theorem test_decode_upRead : decode (.command 0x05000000#32) = .ok .upRead := by decide
theorem test_decode_encStart : decode (.command 0x10000000#32) = .ok .encStart := by decide
theorem test_decode_encByte :
    decode (.command 0b00010001000000000000000001000001#32) = .ok (.encByte 0x41#8) := by decide
theorem test_decode_encClose : decode (.command 0x12000000#32) = .ok .encClose := by decide
theorem test_decode_decStart : decode (.command 0x20000000#32) = .ok .decStart := by decide
theorem test_decode_decStep : decode (.command 0x21000000#32) = .ok .decStep := by decide
theorem test_decode_rdReg :
    decode (.command 0b00110000000000000000000000000110#32) = .ok (.rdReg 6#14) := by decide
theorem test_decode_clrErr : decode (.command 0x31000000#32) = .ok .clrErr := by decide

-- The illegal words of V-CT-2, V-CT-5, V-CT-6, V-CT-7, V-CT-13, refused by name.
theorem test_decode_illegal :
    decode (.command 0x00000001#32) = .error .operandNotZero ∧
      decode (.command 0x30000007#32) = .error .indexOperand ∧
      decode (.command 0x06000000#32) = .error .unknownOpcode ∧
      decode (.command 0x05400000#32) = .error .reservedBits ∧
      decode (.command 0x11000100#32) = .error .byteOperand := by decide

-- The host's reading of table rows: 14-bit rows in two bytes, 32-bit rows in four.
theorem test_table_words :
    decodeTableWord 16 0x00FF = some (.lit 0xFF#8) ∧ decodeTableWord 14 0x3FFE = some .reset ∧
      decodeTableWord 16 0x4000 = none ∧ decodeTableWord 32 0x30000007 = none ∧
      decodeTableWord 32 0x21000000 = some .decStep := by decide

/-! ### One step of each instruction -/

-- V-CT-1
theorem test_nop : seen (exec .nop State.reset) State.resp = some [0x00000000#32] := by decide

-- V-CT-3, V-CT-10
theorem test_rdReg_status : seen (exec (.rdReg 0#14) State.reset) State.resp =
    some [0x00000020#32] := by decide
-- P1: RD_REG 6 after four UP_READs
theorem test_rdReg_unpacker : seen (exec (.rdReg 6#14) { State.reset with upBuf := 0xFF#8 })
    State.resp = some [0x000000FF#32] := by decide

-- V-CT-8
theorem test_clrErr : seen (exec .clrErr { State.reset with stickyErr := 1#4 })
    (fun t => (t.resp, t.stickyErr)) = some ([0x00000000#32], 0#4) := by decide

-- V-PK-10
theorem test_pkInit_discards : seen (exec .pkInit { State.reset with pkAcc := 0x3F#7, pkNbits := 6#3 })
    (fun t => (t.pkAcc, t.pkNbits, t.outw)) = some (0#7, 0#3, []) := by decide
-- V-PK-11
theorem test_pkInit_busy : seen (exec .pkInit { State.reset with mode := .enc })
    (fun t => (t.resp, t.stickyErr)) = some ([0x30000000#32], 3#4) := by decide

-- V-PK-3, second word
theorem test_pkWrite_two_bytes :
    seen (exec (.pkWrite 0x1555#14) { State.reset with pkAcc := 0x2A#7, pkNbits := 6#3 })
      (fun t => (t.outw, t.pkAcc, t.pkNbits, t.resp)) =
    some ([0xA9#8, 0x55#8], 0x05#7, 4#3, [0x00000002#32]) := by decide
-- V-PK-9
theorem test_pkWrite_closed : seen (exec (.pkWrite 0x0001#14) { State.reset with pkClosed := true })
    (fun t => (t.resp, t.stickyErr, t.outw)) = some ([0x20000000#32], 2#4, []) := by decide

-- V-PK-1
theorem test_pkClose_pad : seen (exec .pkClose { State.reset with pkAcc := 0x3F#7, pkNbits := 6#3 })
    (fun t => (t.outw, t.resp)) = some ([0xFC#8, 0x00#8], [0x00000002#32]) := by decide
-- V-PK-4
theorem test_pkClose_sentinel : seen (exec .pkClose State.reset)
    (fun t => (t.outw, t.resp, t.pkClosed)) = some ([0x00#8], [0x00000001#32], true) := by decide

-- V-UP-9
theorem test_upInit : seen (exec .upInit { State.reset with upBuf := 0x04#8, upAvail := 2#4 })
    (fun t => (t.upBuf, t.upAvail)) = some (0#8, 0#4) := by decide
-- V-UP-10
theorem test_upInit_busy : seen (exec .upInit { State.reset with mode := .dec }) State.resp =
    some [0x30000000#32] := by decide

-- V-UP-1, third word
theorem test_upRead_word :
    seen (exec .upRead { State.reset with
        upBuf := 0x20#8, upAvail := 4#4, inq := [0x40#8, 0x7F#8, 0xFF#8, 0x00#8] })
      (fun t => (t.resp, t.upAvail, t.upBuf, t.inq)) =
    some ([0x01000101#32], 6#4, 0x7F#8, [0xFF#8, 0x00#8]) := by decide
-- V-UP-5, second word
theorem test_upRead_truncated :
    seen (exec .upRead { State.reset with
        upBuf := 0x34#8, upAvail := 2#4, inq := [0x56#8], inEnd := true })
      (fun t => (t.resp, t.upAvail, t.inq)) = some ([0x6000000A#32], 0#4, []) := by decide

-- R151's example
theorem test_encStart : seen (exec .encStart decState)
    (fun t => (t.nextFree, t.encCur, t.mode, t.resp)) =
    some (0x0100#14, 0x3FFE#14, .enc, [0x00000000#32]) := by decide

-- V-SRC-1, second byte: emit 0001, register 0100
theorem test_encByte_registers :
    seen (exec (.encByte 0x02#8) { State.reset with mode := .enc, encCur := 0x0001#14 })
      (fun t => (t.outw, t.nextFree, t.encCur, t.nodes.read 0x100, t.resp)) =
    some ([0x00#8], 0x0101#14, 0x0002#14,
      some { parent := 0x0001#14, depth := 2#14, value := 0x02#8, first := 0x01#8 },
      [0x00000001#32]) := by decide +kernel
-- V-SRC-1, fourth byte: descend to 0101
theorem test_encByte_descends : seen (exec (.encByte 0x02#8) encState)
    (fun t => (t.encCur, t.outw, t.resp)) = some (0x0101#14, [], [0x00000000#32]) := by decide +kernel

-- V-SRC-1, close: emit 0101, 3FFF, no pad, sentinel
theorem test_encClose : seen (exec .encClose { encState with encCur := 0x0101#14 })
    (fun t => (t.outw, t.mode, t.pkClosed, t.resp)) =
    some ([0x20#8, 0x40#8, 0x7F#8, 0xFF#8, 0x00#8], .idle, true, [0x00000002#32]) := by decide
-- V-PK-11's counterpart of P2: ENC_BYTE and ENC_CLOSE after the close
theorem test_encClose_notActive : seen (exec .encClose State.reset) State.resp =
    some [0x40000000#32] := by decide

-- R170's example
theorem test_decStart : seen (exec .decStart encState)
    (fun t => (t.decPrev, t.mode, t.nextFree, t.pkNbits)) =
    some (0x3FFE#14, .dec, 0x0100#14, 4#3) := by decide

-- V-DE-1, third word: the self-reference
theorem test_decStep_self : seen (exec .decStep decState)
    (fun t => (t.resp, t.outd, t.nextFree, t.decPrev)) =
    some ([0x01000002#32], [0x01#8, 0x02#8, 0x02#8, 0x02#8], 0x0102#14, 0x0101#14) := by
  decide +kernel
-- V-DE-10
theorem test_decStep_truncated :
    seen (exec .decStep { decState with upAvail := 2#4, inq := [], inEnd := true })
      (fun t => (t.resp, t.mode)) = some ([0x60000002#32], .decErr) := by decide

-- V-DE-1, second word
theorem test_lit :
    seen (exec (.lit 0x02#8) { State.reset with mode := .dec, decPrev := 0x0001#14 })
      (fun t => (t.resp, t.outd, t.nextFree)) = some ([0x00000001#32], [0x02#8], 0x0101#14) := by
  decide +kernel

-- V-DE-7, third word
theorem test_dict_known : seen (exec (.dict 0x0100#14) twiceState)
    (fun t => (t.resp, t.outd, t.nextFree)) =
    some ([0x01000002#32], [0x41#8, 0x41#8], 0x0102#14) := by decide +kernel
-- V-DE-4, second word
theorem test_dict_invalid : seen (exec (.dict 0x0102#14) twiceState)
    (fun t => (t.resp, t.mode, t.nextFree, t.decPrev)) =
    some ([0x51000102#32], .decErr, 0x0101#14, 0x0041#14) := by decide

-- V-DE-9, second word
theorem test_reset : seen (exec .reset twiceState)
    (fun t => (t.resp, t.nextFree, t.decPrev)) =
    some ([0x02000000#32], 0x0100#14, 0x3FFE#14) := by decide

-- V-DE-5
theorem test_eos : seen (exec .eos twiceState) (fun t => (t.resp, t.mode)) =
    some ([0x03000000#32], .decDone) := by decide

-- V-TR-4: of two duplicate children, the least code
theorem test_child_least :
    State.child { twiceState with
        nextFree := 0x0102#14
        nodes := twiceState.nodes ++
          [(0x101, { parent := 0x0041#14, depth := 2#14, value := 0x41#8, first := 0x41#8 })] }
      0x0041#14 0x41#8 = some 0x0100#14 := by decide +kernel

-- R153 and V-EN-10: the 1000th exhausted miss only counts
theorem test_saturate_thousandth :
    (State.saturate { State.reset with encSat := 999#10 }).1 = 0 ∧
      (State.saturate { State.reset with encSat := 999#10 }).2.encSat = 1000#10 := by decide
-- and the 1001st emits Reset
theorem test_saturate_next :
    (State.saturate { State.reset with encSat := 1000#10 }).1 = 1 ∧
      (State.saturate { State.reset with encSat := 1000#10 }).2.outw = [0xFF#8] := by decide

/-! ### Steps and the host -/

-- V-CT-13: ILLEGAL wins over NOT_ACTIVE
theorem test_step_illegal : seen (step { State.reset with cmd := some 0x11000100#32 }) State.resp =
    some [0x10000000#32] := by decide
-- V-UP-8: while UP_READ holds, the host's push goes in, and no response is delivered
theorem test_step_held :
    seen (step { State.reset with
        cmd := some 0x05000000#32, upBuf := 0x04#8, upAvail := 2#4, inq := [0x00#8]
        host := [.inPush 0x20#8] })
      (fun t => (t.inq, t.cmd, t.resp)) =
    some ([0x00#8, 0x20#8], some 0x05000000#32, []) := by decide
-- R63: IN_PUSH after IN_FINISH is ignored
theorem test_push_after_finish :
    seen (step { State.reset with inEnd := true, host := [.inPush 0x20#8] }) State.inq =
      some [] := by decide
-- R230: RST abandons a holding command with no response
theorem test_rst : seen (step { decState with
      cmd := some 0x21000000#32, inq := [], host := [.rst], outw := [0xFF#8] })
    (fun t => (t.cmd, t.resp, t.mode, t.outw, t.outd)) =
    some (none, [], .idle, [0xFF#8], [0x01#8, 0x02#8]) := by decide
-- withFetchWord: a command and a stream word run as the first instruction after reset
theorem test_fetch_command :
    seen (step (State.reset.withFetchWord 32 0x30000004)) State.resp = some [0x00003FFE#32] := by
  decide
theorem test_fetch_stream :
    seen (step (State.reset.withFetchWord 16 0x0041)) (fun t => (t.resp, t.outd)) =
      some ([0x00000001#32], [0x41#8]) := by decide +kernel

-- R98, R99: lines of P1 and P4's note that the assembler cannot spell PK_INIT with an operand
theorem test_assemble_command :
    assembleText "ENC_BYTE 0x41 ; comment" = some [.cmd 0x11000041#32] := by decide +kernel
theorem test_assemble_lines :
    assembleText "PK_WORDS 0x3FFF, 2\n@IN_PUSH FF, 00" =
      some [.cmd 0x02003FFF#32, .cmd 0x02000002#32, .inPush 0xFF#8, .inPush 0x00#8] := by
  decide +kernel
theorem test_assemble_tab :
    assembleText "RD_REG\t6" = some [.cmd 0x30000006#32] := by decide +kernel
theorem test_assemble_empty_list :
    assembleText "COMPRESS" = some [.cmd 0x10000000#32, .cmd 0x12000000#32] := by decide +kernel
theorem test_assemble_malformed : assembleText "PK_INIT 1" = none := by decide +kernel

/-! ### A state for every statement with hypotheses -/

theorem inv_encState : encState.Inv := State.inv_of_invCheck (by decide +kernel)
theorem inv_decState : decState.Inv := State.inv_of_invCheck (by decide +kernel)
theorem inv_twiceState : twiceState.Inv := State.inv_of_invCheck (by decide +kernel)
theorem inv_fullEnc : (fullEnc 0#10).Inv ∧ (fullEnc 999#10).Inv ∧ (fullEnc 1000#10).Inv :=
  ⟨State.filled_inv _ (le_refl _) (by decide +kernel),
    State.filled_inv _ (le_refl _) (by decide +kernel),
    State.filled_inv _ (le_refl _) (by decide +kernel)⟩
theorem inv_lastEnc : (filledEnc 0x3EFD).Inv :=
  State.filled_inv _ (by decide) (by decide +kernel)
theorem inv_lastDec : (filledDec 0x3EFD 0x3FFC#14).Inv :=
  State.filled_inv _ (by decide) (by decide +kernel)
theorem inv_fullDec : (filledDec 0x3EFE 0x3FFD#14).Inv :=
  State.filled_inv _ (le_refl _) (by decide +kernel)

theorem witness_DecodeInvertsEncode :
    Instr.wf (.lit 0xFF#8) = true ∧ Instr.wf (.dict 0x0100#14) = true ∧
      Instr.wf (.dict 0x3FFD#14) = true ∧ Instr.wf (.rdReg 6#14) = true := by decide

theorem witness_EncodeInvertsDecode :
    decode (.stream 0x0100#14) = .ok (.dict 0x0100#14) ∧
      decode (.command 0x110000FF#32) = .ok (.encByte 0xFF#8) := by decide

theorem witness_WordClassFollowsValue :
    classify 0x0000#14 = .lit ∧ classify 0x00FF#14 = .lit ∧ classify 0x0100#14 = .dict ∧
      classify 0x3FFD#14 = .dict ∧ classify 0x3FFE#14 = .reset ∧ classify 0x3FFF#14 = .eos := by
  decide

theorem witness_StepRunsDecodedCommand :
    (∃ s : State, s.cmd = some 0x21000000#32 ∧ decode (.command 0x21000000#32) = .ok .decStep ∧
      holds .decStep s = false) ∧
    (∃ s : State, s.cmd = some 0x21000000#32 ∧ decode (.command 0x21000000#32) = .ok .decStep ∧
      holds .decStep s = true) :=
  ⟨⟨{ decState with cmd := some 0x21000000#32 }, by decide⟩,
    ⟨{ decState with cmd := some 0x21000000#32, inq := [0x40#8] }, by decide⟩⟩

theorem witness_PlacedInstructionRuns :
    (Instr.wf .upRead = true ∧ encode .upRead = .command 0x05000000#32 ∧
      holds .upRead ({ State.reset with inq := [0xFF#8, 0xFC#8] }.placeEncoded
        (encode .upRead)) = false) ∧
    (Instr.wf (.dict 0x3FFD#14) = true ∧ encode (.dict 0x3FFD#14) = .stream 0x3FFD#14) := by decide

theorem witness_IllegalWordsOnlyReport :
    IllegalCommandWord 0x06000000#32 ∧ IllegalCommandWord 0x32000000#32 ∧
      IllegalCommandWord 0x00004000#32 ∧ IllegalCommandWord 0x00800000#32 ∧
      IllegalCommandWord 0x11000100#32 ∧ IllegalCommandWord 0x30000007#32 ∧
      IllegalCommandWord 0x00000001#32 ∧ ¬ IllegalCommandWord 0x110000FF#32 ∧
      ¬ IllegalCommandWord 0x30000006#32 ∧ ¬ IllegalCommandWord 0x02003FFF#32 ∧
      ({ State.reset with cmd := some 0x06000000#32 }).cmd = some 0x06000000#32 := by
  refine ⟨?_, ?_, ?_, ?_, ?_, ?_, ?_, ?_, ?_, ?_, rfl⟩ <;> simp only [IllegalCommandWord] <;> decide

/-- Thirteen bits there, fourteen needed. -/
def shortState (m : Mode) (w : CmdWord) : State :=
  { State.reset with mode := m, upAvail := 5#4, inq := [0xAB#8], cmd := some w }

theorem witness_HeldCommandWaits :
    (¬ (shortState .idle 0x05000000#32).wordReady ∧ (shortState .idle 0x05000000#32).inEnd = false ∧
      (shortState .idle 0x05000000#32).mode ≠ .dec ∧
      (shortState .idle 0x05000000#32).cmd = some 0x05000000#32 ∧
      (shortState .idle 0x05000000#32).host = []) ∧
    (¬ (shortState .dec 0x21000000#32).wordReady ∧ (shortState .dec 0x21000000#32).inEnd = false ∧
      (shortState .dec 0x21000000#32).mode = .dec ∧
      (shortState .dec 0x21000000#32).cmd = some 0x21000000#32 ∧
      (shortState .dec 0x21000000#32).host = []) := by
  unfold State.wordReady
  decide

theorem witness_HostActsOnInput :
    (State.reset.cmd = none ∧
      (∃ s : State, s.cmd = none ∧ s.host = [.inPush 1#8] ∧ s.inEnd = false) ∧
      (∃ s : State, s.cmd = none ∧ s.host = [.inPush 1#8] ∧ s.inEnd = true) ∧
      (∃ s : State, s.cmd = none ∧ s.host = [.inFinish]) ∧
      (∃ s : State, s.cmd = none ∧ s.host = [.inClear]) ∧
      (∃ s : State, s.cmd = none ∧ s.host = [.takeOutput])) ∧
    (∃ s : State, s.cmd = some 0x05000000#32 ∧ wordHolds 0x05000000#32 s = true ∧
      s.host = [.inPush 1#8] ∧ s.inEnd = false) :=
  ⟨⟨rfl, ⟨{ State.reset with host := [.inPush 1#8] }, by decide⟩,
      ⟨{ State.reset with host := [.inPush 1#8], inEnd := true }, by decide⟩,
      ⟨{ State.reset with host := [.inFinish] }, by decide⟩,
      ⟨{ State.reset with host := [.inClear] }, by decide⟩,
      ⟨{ State.reset with host := [.takeOutput] }, by decide⟩⟩,
    ⟨{ shortState .idle 0x05000000#32 with host := [.inPush 1#8] }, by decide⟩⟩

theorem witness_HostIssuesOneCommand :
    (∃ s : State, s.host = [.cmd 0#32] ∧ s.cmd = none) ∧
    (∃ s : State, s.host = [.cmd 0#32] ∧ s.cmd = some 0x05000000#32 ∧
      wordHolds 0x05000000#32 s = true) :=
  ⟨⟨{ State.reset with host := [.cmd 0#32] }, by decide⟩,
    ⟨{ shortState .idle 0x05000000#32 with host := [.cmd 0#32] }, by decide⟩⟩

theorem witness_RstRestoresResetValues :
    (∃ s : State, s.nodes.wf = true ∧ s.host = [.rst] ∧ s.cmd = none ∧ s.nodes ≠ []) ∧
    (∃ s : State, s.nodes.wf = true ∧ s.host = [.rst] ∧ s.cmd = some 0x21000000#32 ∧
      wordHolds 0x21000000#32 s = true) :=
  ⟨⟨{ encState with host := [.rst] }, by decide⟩,
    ⟨{ decState with inq := [], cmd := some 0x21000000#32, host := [.rst] }, by decide⟩⟩

theorem witness_RdRegReservedIndexFails : 6#14 < 7#14 ∧ 6#14 < 0x3FFF#14 := by decide

theorem witness_PackWordEmitsMsbFirst :
    State.reset.pkAcc.toNat < 2 ^ State.reset.pkNbits.toNat ∧
      encState.pkAcc.toNat < 2 ^ encState.pkNbits.toNat ∧
      ({ State.reset with pkAcc := 0x7F#7, pkNbits := 7#3 }).pkAcc.toNat < 2 ^ (7#3).toNat ∧
      ({ State.reset with pkAcc := 0x01#7, pkNbits := 1#3 }).pkAcc.toNat < 2 ^ (1#3).toNat := by
  decide

theorem witness_PackCloseFlushes :
    (State.reset.pkAcc.toNat < 2 ^ State.reset.pkNbits.toNat ∧ State.reset.pkNbits.toNat = 0) ∧
    (encState.pkAcc.toNat < 2 ^ encState.pkNbits.toNat ∧ 0 < encState.pkNbits.toNat) := by decide

theorem witness_PkInitOpensPacker : State.reset.mode ≠ .enc ∧ decState.mode ≠ .enc := by decide

theorem witness_PkWriteAndCloseComplete :
    State.reset.mode ≠ .enc ∧ State.reset.pkClosed = false ∧ decState.mode ≠ .enc ∧
      decState.pkClosed = false := by decide

theorem witness_PackedStreamLayout : State.reset.mode ≠ .enc := by decide

theorem witness_UnpackInvertsPack : State.reset.mode ≠ .enc ∧ State.reset.mode ≠ .dec := by decide

theorem witness_UpInitEmptiesBuffer : State.reset.mode ≠ .dec ∧ encState.mode ≠ .dec := by decide

/-- Exactly fourteen bits there. -/
def readyState (m : Mode) : State :=
  { State.reset with mode := m, upBuf := 0x3F#8, upAvail := 6#4, inq := [0xFF#8] }

theorem witness_UpReadTakesNextWord :
    (readyState .idle).mode ≠ .dec ∧ (readyState .idle).upAvail.toNat ≤ 8 ∧
      (readyState .idle).wordReady := by
  unfold State.wordReady
  decide

theorem witness_TruncatedWordFails :
    (¬ { shortState .idle 0x05000000#32 with inEnd := true }.wordReady ∧
      { shortState .idle 0x05000000#32 with inEnd := true }.inEnd = true ∧
      { shortState .idle 0x05000000#32 with inEnd := true }.mode ≠ .dec) ∧
    (¬ { shortState .dec 0x21000000#32 with inEnd := true, inq := [] }.wordReady ∧
      { shortState .dec 0x21000000#32 with inEnd := true, inq := [] }.inEnd = true ∧
      { shortState .dec 0x21000000#32 with inEnd := true, inq := [] }.mode = .dec) := by
  unfold State.wordReady
  decide

theorem witness_TrieResetRestoresLiterals :
    encState.nodes.wf = true ∧ 0x0100#14 ≤ (0x0100#14 : Code) := by decide

theorem witness_ChildIsLeastMatch :
    (∃ n, encState.nodeRead 0x0101#14 = some n ∧ n.parent = 0x0002#14 ∧ n.value = 0x02#8) ∧
      (fullEnc 0#10).child 0x0100#14 0x00#8 = none :=
  ⟨⟨_, rfl, by decide⟩, State.filled_child _ (le_refl _) (by decide) (by decide) _⟩

theorem witness_RootChildIsLiteral : State.reset.invCheck = true ∧ encState.Inv :=
  ⟨by decide +kernel, inv_encState⟩

theorem witness_RegisterAddsNode :
    (encState.Inv ∧ encState.nextFree < 0x3FFE#14 ∧ 0x0041#14 < encState.nextFree) ∧
    ((filledEnc 0x3EFD).Inv ∧ (filledEnc 0x3EFD).nextFree < 0x3FFE#14 ∧
      0x3FFC#14 < (filledEnc 0x3EFD).nextFree) :=
  ⟨⟨inv_encState, by decide, by decide⟩, inv_lastEnc, by decide +kernel, by decide +kernel⟩

theorem witness_PhraseMatchesNode :
    (encState.Inv ∧ 0x00FF#14 < encState.nextFree ∧ 0x0101#14 < encState.nextFree) ∧
    ((fullEnc 0#10).Inv ∧ 0x3FFD#14 < (fullEnc 0#10).nextFree) :=
  ⟨⟨inv_encState, by decide, by decide⟩, inv_fullEnc.1, by decide +kernel⟩

theorem witness_EncStartOpensSession : encState.nodes.wf = true ∧ decState.nodes.wf = true := by
  decide

theorem witness_EncByteDescends :
    encState.mode = .enc ∧ encState.child encState.encCur 0x02#8 = some 0x0101#14 := by
  decide +kernel

theorem witness_EncByteRegisters :
    (encState.Inv ∧ encState.mode = .enc ∧ encState.child encState.encCur 0x03#8 = none ∧
      encState.nextFree < 0x3FFE#14) ∧
    ((filledEnc 0x3EFD).Inv ∧ (filledEnc 0x3EFD).mode = .enc ∧
      (filledEnc 0x3EFD).child (filledEnc 0x3EFD).encCur 0x03#8 = none ∧
      (filledEnc 0x3EFD).nextFree < 0x3FFE#14) :=
  ⟨⟨inv_encState, by decide +kernel, by decide +kernel, by decide⟩,
    inv_lastEnc, rfl, State.filled_child _ (by decide) (by decide) (by decide) _,
    by decide +kernel⟩

theorem witness_EncByteSaturates :
    ((fullEnc 999#10).Inv ∧ (fullEnc 999#10).mode = .enc ∧
      (fullEnc 999#10).child (fullEnc 999#10).encCur 0x03#8 = none ∧
      (fullEnc 999#10).nextFree = 0x3FFE#14 ∧ (fullEnc 999#10).encSat < 1000#10) ∧
    ((fullEnc 1000#10).Inv ∧ (fullEnc 1000#10).mode = .enc ∧
      (fullEnc 1000#10).child (fullEnc 1000#10).encCur 0x03#8 = none ∧
      (fullEnc 1000#10).nextFree = 0x3FFE#14 ∧ (fullEnc 1000#10).encSat = 1000#10) :=
  ⟨⟨inv_fullEnc.2.1, rfl, State.filled_child _ (le_refl _) (by decide) (by decide) _,
      by decide +kernel, by decide +kernel⟩,
    inv_fullEnc.2.2, rfl, State.filled_child _ (le_refl _) (by decide) (by decide) _,
      by decide +kernel, by decide +kernel⟩

theorem witness_EncCloseEndsSession : encState.mode = .enc := by decide

theorem witness_DecStartOpensSession : encState.nodes.wf = true ∧ decState.nodes.wf = true := by
  decide

theorem witness_DecStepRunsNextWord :
    (readyState .dec).mode = .dec ∧ (readyState .dec).upAvail.toNat ≤ 8 ∧
      (readyState .dec).wordReady := by
  unfold State.wordReady
  decide

/-- decState with a word w at a byte boundary of IN. -/
def decAt (w : Code) : State := { decState with upAvail := 0#4, inq := streamBytes w }

theorem inv_decAt (w : Code) : (decAt w).Inv :=
  ⟨inv_decState.packer, ⟨by show (0#4).toNat ≤ 6; decide, by show (0#4).toNat % 2 = 0; decide⟩,
    inv_decState.nextFree, inv_decState.saturation, inv_decState.encCur, inv_decState.decPrev,
    inv_decState.literals, inv_decState.dynamics, inv_decState.packerOpen, inv_decState.sticky,
    inv_decState.arena⟩

theorem witness_DecStepCompletes :
    (decState.Inv ∧ decState.mode = .dec ∧ decState.wordReady ∧
      decState.nextWord = decState.nextFree ∧ decState.decodable decState.nextWord) ∧
    ((decAt 0x0100#14).Inv ∧ (decAt 0x0100#14).mode = .dec ∧ (decAt 0x0100#14).wordReady ∧
      (decAt 0x0100#14).nextWord = 0x0100#14 ∧
      (decAt 0x0100#14).decodable (decAt 0x0100#14).nextWord) ∧
    ((decAt 0x3FFE#14).Inv ∧ (decAt 0x3FFE#14).mode = .dec ∧ (decAt 0x3FFE#14).wordReady ∧
      (decAt 0x3FFE#14).nextWord = 0x3FFE#14 ∧
      (decAt 0x3FFE#14).decodable (decAt 0x3FFE#14).nextWord) ∧
    ((decAt 0x3FFF#14).Inv ∧ (decAt 0x3FFF#14).mode = .dec ∧ (decAt 0x3FFF#14).wordReady ∧
      (decAt 0x3FFF#14).nextWord = 0x3FFF#14 ∧
      (decAt 0x3FFF#14).decodable (decAt 0x3FFF#14).nextWord) :=
  ⟨⟨inv_decState, by unfold State.wordReady State.decodable; decide⟩,
    ⟨inv_decAt _, by unfold State.wordReady State.decodable; decide⟩,
    ⟨inv_decAt _, by unfold State.wordReady State.decodable; decide⟩,
    ⟨inv_decAt _, by unfold State.wordReady State.decodable; decide⟩⟩

theorem witness_KnownCodeDecodes :
    (decState.Inv ∧ decState.mode = .dec ∧ Instr.wf (.lit 0xFF#8) = true ∧
      encode (.lit 0xFF#8) = .stream 0x00FF#14 ∧ 0x00FF#14 < decState.nextFree ∧
      0x00FF#14 < (0x3FFE#14 : Code)) ∧
    (decState.Inv ∧ Instr.wf (.dict 0x0100#14) = true ∧
      encode (.dict 0x0100#14) = .stream 0x0100#14 ∧ 0x0100#14 < decState.nextFree) ∧
    ((filledDec 0x3EFE 0x3FFD#14).Inv ∧ (filledDec 0x3EFE 0x3FFD#14).mode = .dec ∧
      Instr.wf (.dict 0x3FFD#14) = true ∧ encode (.dict 0x3FFD#14) = .stream 0x3FFD#14 ∧
      0x3FFD#14 < (filledDec 0x3EFE 0x3FFD#14).nextFree ∧ 0x3FFD#14 < (0x3FFE#14 : Code)) :=
  ⟨⟨inv_decState, by decide⟩, ⟨inv_decState, by decide⟩, inv_fullDec, rfl, by decide, by decide,
    by decide +kernel, by decide⟩

theorem witness_SelfReferenceDecodes :
    (decState.Inv ∧ decState.mode = .dec ∧ decState.decPrev ≠ 0x3FFE#14 ∧
      decState.nextFree < 0x3FFE#14) ∧
    ((filledDec 0x3EFD 0x3FFC#14).Inv ∧ (filledDec 0x3EFD 0x3FFC#14).mode = .dec ∧
      (filledDec 0x3EFD 0x3FFC#14).decPrev ≠ 0x3FFE#14 ∧
      (filledDec 0x3EFD 0x3FFC#14).nextFree < 0x3FFE#14) :=
  ⟨⟨inv_decState, by decide⟩, inv_lastDec, rfl, by decide +kernel, by decide +kernel⟩

theorem witness_InvalidCodeStops :
    (Instr.wf (.dict 0x0102#14) = true ∧ encode (.dict 0x0102#14) = .stream 0x0102#14 ∧
      0x0102#14 < (0x3FFE#14 : Code) ∧ ¬ decState.decodable 0x0102#14) ∧
    (Instr.wf (.dict 0x0100#14) = true ∧ encode (.dict 0x0100#14) = .stream 0x0100#14 ∧
      0x0100#14 < (0x3FFE#14 : Code) ∧
      ¬ ({ State.reset with mode := .dec }).decodable 0x0100#14) := by
  unfold State.decodable
  decide

theorem witness_ResetAndEosWordsComplete : twiceState.nodes.wf = true := by decide

theorem witness_DecompressInvertsCompress : encState.nodes.wf = true := by decide

theorem witness_ModeChecksFail :
    encState.mode = .enc ∧ decState.mode = .dec ∧ State.reset.mode ≠ .enc ∧
      State.reset.mode ≠ .dec := by decide

theorem witness_ClosedPackerFails :
    ({ State.reset with pkClosed := true }).mode ≠ .enc ∧
      ({ State.reset with pkClosed := true }).pkClosed = true := by decide

theorem witness_OneResponseAndStickyError :
    (∃ t, exec .nop encState = .next t) ∧
      (∃ t, exec .upRead (shortState .idle 0x05000000#32) = .next t) := ⟨⟨_, rfl⟩, ⟨_, rfl⟩⟩

theorem witness_ErrorsChangeOnlyListedState :
    (∃ t, exec .pkInit encState = .next t ∧ t.resp = encState.resp ++ [0x30000000#32] ∧
      errField 0x30000000#32 < 5#4 ∧ errField 0x30000000#32 ≠ 0#4) ∧
    (∃ t, exec (.dict 0x0102#14) twiceState = .next t ∧
      t.resp = twiceState.resp ++ [0x51000102#32] ∧ errField 0x51000102#32 = 5#4) ∧
    (∃ t, exec .decStep { decState with inq := [], inEnd := true } = .next t ∧
      t.resp = decState.resp ++ [0x60000004#32] ∧ errField 0x60000004#32 = 6#4) ∧
    (∃ t, exec .upRead { State.reset with inEnd := true } = .next t ∧
      t.resp = State.reset.resp ++ [0x60000000#32] ∧ errField 0x60000000#32 = 6#4) :=
  ⟨⟨_, rfl, by decide⟩, ⟨_, rfl, by decide⟩, ⟨_, rfl, by decide⟩, ⟨_, rfl, by decide⟩⟩

theorem witness_FlagWriters :
    (∃ t, exec .pkClose State.reset = .next t ∧ t.pkClosed ≠ State.reset.pkClosed) ∧
    (∃ t, exec .pkInit { State.reset with pkClosed := true } = .next t ∧ t.pkClosed ≠ true) ∧
    (∃ t, exec .encClose encState = .next t ∧ t.mode ≠ encState.mode) ∧
    (∃ t, exec .eos decState = .next t ∧ t.mode ≠ decState.mode) :=
  ⟨⟨_, rfl, by decide⟩, ⟨_, rfl, by decide⟩, ⟨_, rfl, by decide⟩, ⟨_, rfl, by decide⟩⟩

theorem witness_StreamWriters :
    seen (exec .pkClose State.reset) (fun t => decide (t.outw ≠ State.reset.outw)) = some true ∧
      seen (exec (.lit 0x02#8) decState) (fun t => decide (t.outd ≠ decState.outd)) = some true := by
  decide +kernel

theorem witness_StepKeepsInvariant :
    (encState.Inv ∧ ∃ t, step encState = .next t) ∧
    (({ encState with cmd := some 0x12000000#32 } : State).invCheck = true ∧
      ∃ t, step { encState with cmd := some 0x12000000#32 } = .next t) :=
  ⟨⟨inv_encState, _, rfl⟩, by decide +kernel, _, rfl⟩

theorem witness_SessionInvAsWordedIsKept :
    ∃ s : State, s.Inv ∧ s.SessionInvAsWorded ∧ ∃ t, step s = .next t :=
  ⟨encState, inv_encState, by unfold State.SessionInvAsWorded; decide, _, rfl⟩

theorem witness_SessionInvAsWordedKeptWithinEpoch :
    ∃ s t : State, s.Inv ∧ s.SessionInvAsWorded ∧ step s = .next t ∧ s.nextFree ≤ t.nextFree ∧
      0x0100#14 < s.nextFree :=
  ⟨{ encState with cmd := some 0x12000000#32 }, _,
    State.inv_of_invCheck (by decide +kernel), by unfold State.SessionInvAsWorded; decide, rfl,
    by decide, by decide⟩

theorem uniqueChildren_reset : State.reset.ChildrenUnique := by
  intro c d n m hc hd hp hv
  have hc' : c.toNat < 256 := State.nodeRead_lt hc
  have hd' : d.toNat < 256 := State.nodeRead_lt hd
  have ec : State.reset.nodeRead c = some (literalNode c.toNat) := by
    rw [State.nodeRead_of_lt (State.nodeRead_lt hc)]
    exact Memory.blank_literal hc'
  have ed : State.reset.nodeRead d = some (literalNode d.toNat) := by
    rw [State.nodeRead_of_lt (State.nodeRead_lt hd)]
    exact Memory.blank_literal hd'
  rw [ec] at hc
  rw [ed] at hd
  cases hc
  cases hd
  have := congrArg BitVec.toNat hv
  simp only [literalNode, BitVec.toNat_ofNat] at this
  exact BitVec.eq_of_toNat_eq (by omega)

/-- A compression session right after its start, with a byte to compress. -/
def startState : State :=
  { State.reset with mode := .enc, encCur := 0x0041#14, cmd := some 0x11000042#32 }

theorem witness_StepKeepsChildrenUnique :
    startState.Inv ∧ (startState.mode = .enc → startState.ChildrenUnique) ∧
      (∃ t, step startState = .next t ∧ t.mode = .enc) := by
  refine ⟨State.inv_of_invCheck (by decide +kernel), fun _ => uniqueChildren_reset, ?_⟩
  have h : seen (step startState) State.mode = some .enc := by decide +kernel
  cases hs : step startState with
  | next t =>
    rw [hs] at h
    exact ⟨t, rfl, Option.some.inj h⟩
  | fault r => rw [hs] at h; cases h
  | refused r => rw [hs] at h; cases h

theorem witness_StepNeverBreaksTrie : startState.Inv ∧
    ({ shortState .idle 0x05000000#32 with
        upAvail := 4#4, host := [.cmd 0#32] } : State).Inv :=
  ⟨State.inv_of_invCheck (by decide +kernel), State.inv_of_invCheck (by decide +kernel)⟩

theorem witness_StaleSlotsUnobservable :
    ∃ s t : State, s ≠ t ∧ s.SameButStale t := by
  refine ⟨{ encState with nextFree := 0x0100#14 }, { State.reset with
    mode := .enc, pkAcc := 0x02#7, pkNbits := 4#3, encCur := 0x0002#14 }, by decide, rfl, by decide,
    by decide, by unfold State.NextFreeInv; decide, ?_⟩
  intro c
  by_cases hc : c < 0x0100#14
  · have hc' : c.toNat < 256 := hc
    simp only [State.nodeRead, hc, if_true]
    simp only [State.reset, encState, Memory.read]
    rw [if_neg (by omega), if_neg (by omega)]
    exact (if_pos hc).symm
  · simp only [State.nodeRead, State.reset, hc, if_false]

end Sys2Proof.Tests
end

/-! PROOFS. The scope rules of 00_scope.md: a step runs the decoded command or waits with it (O7), and
a command that completes delivers one response and keeps the first error (O49). -/

namespace Sys2Proof.Machine

/-! ### Holding and stepping -/

/-- A holding instruction changes nothing (20_memory.md R65). -/
theorem exec_of_holds {i : Instr} {s : State} (h : holds i s = true) : exec i s = .next s := by
  cases i with
  | upRead =>
    obtain ⟨howned, hheld⟩ : s.unpackerOwned = false ∧ s.wordHeld = true := by
      simpa [holds] using h
    show execUpRead s = .next s
    simp [execUpRead, howned, hheld]
  | decStep =>
    obtain ⟨hmode, hheld⟩ : s.mode = .dec ∧ s.wordHeld = true := by simpa [holds] using h
    show execDecStep s = .next s
    simp [execDecStep, hmode, hheld]
  | _ => cases h

theorem wordHolds_of_decode {w : CmdWord} {i : Instr} (hd : decode (.command w) = .ok i)
    (s : State) : wordHolds w s = holds i s := by
  have hd : decodeCommand w = .ok i := hd
  rw [wordHolds, hd]

theorem runCommand_of_decode {w : CmdWord} {i : Instr} (hd : decode (.command w) = .ok i)
    (s : State) : runCommand w s = exec i s := by
  have hd : decodeCommand w = .ok i := hd
  rw [runCommand, hd]

/-- The step with a legal command on CMD, by whether it holds (00_scope.md R16). -/
theorem step_of_decode {s : State} {w : CmdWord} {i : Instr} (hw : s.cmd = some w)
    (hd : decode (.command w) = .ok i) :
    step s = if holds i s then hostStep s else exec i s := by
  simp only [step, hw, wordHolds_of_decode hd, runCommand_of_decode hd]

/-- Settles O7. -/
theorem stepRunsDecodedCommand : Obligations.StepRunsDecodedCommand := by
  intro s w i hw hd
  have hstep := step_of_decode hw hd
  refine ⟨fun hrun => ?_, fun hhold => ⟨exec_of_holds hhold, ?_⟩⟩
  · simpa [hrun] using hstep
  · simpa [hhold] using hstep

/-! ### The fields of a response word (30_encoding.md R95) -/

@[simp] theorem errField_respWord (e k : BitVec 4) (v : BitVec 16) :
    errField (respWord e k v) = e := by
  have := v.isLt
  have := k.isLt
  have := e.isLt
  apply BitVec.eq_of_toNat_eq
  simp only [errField, respWord, field_toNat, append_toNat, BitVec.toNat_ofNat]
  omega

@[simp] theorem kindField_respWord (e k : BitVec 4) (v : BitVec 16) :
    kindField (respWord e k v) = k := by
  have := v.isLt
  have := k.isLt
  apply BitVec.eq_of_toNat_eq
  simp only [kindField, respWord, field_toNat, append_toNat, BitVec.toNat_ofNat]
  omega

@[simp] theorem reserved_respWord (e k : BitVec 4) (v : BitVec 16) :
    (respWord e k v).extractLsb' 16 8 = 0#8 := by
  have := v.isLt
  apply BitVec.eq_of_toNat_eq
  simp only [respWord, field_toNat, append_toNat, BitVec.toNat_ofNat]
  omega

theorem errKind_le (e : Err) : errKind e ≤ 3#4 := by
  cases e <;> decide

/-! ### Completing with one response -/

/-- From s to t one response word in the ranges of 30_encoding.md R95 and R96 is delivered, no command
is left pending, and STICKY_ERR is `sticky` after a success and keeps the first error after an error
(60_exceptions.md R202). -/
def Completes (sticky : BitVec 4) (s t : State) : Prop :=
  ∃ r : RespWord, t.resp = s.resp ++ [r] ∧ t.cmd = none ∧
    errField r ≤ 6#4 ∧ kindField r ≤ 3#4 ∧ r.extractLsb' 16 8 = 0#8 ∧
    t.stickyErr = if errField r = 0#4 then sticky
      else if s.stickyErr = 0#4 then errField r else s.stickyErr

/-- A success response to an update u of s that delivered nothing yet completes. -/
theorem completes_respond {sticky k : BitVec 4} {v : BitVec 16} {s u : State}
    (hresp : u.resp = s.resp) (hsticky : u.stickyErr = sticky) (hk : k ≤ 3#4) :
    Completes sticky s (u.respond 0#4 k v) := by
  refine ⟨respWord 0#4 k v, ?_, rfl, ?_, ?_, reserved_respWord .., ?_⟩
  · rw [State.respond_resp, hresp]
  · rw [errField_respWord]
    decide
  · rwa [kindField_respWord]
  · rw [State.respond_stickyErr, errField_respWord, if_pos rfl, hsticky]

/-- An error response to an update u of s that delivered nothing yet completes, whatever STICKY_ERR
would be after a success. -/
theorem completes_raise {sticky : BitVec 4} {e : Err} {v : BitVec 16} {s u : State}
    (hresp : u.resp = s.resp) (hsticky : u.stickyErr = s.stickyErr) :
    Completes sticky s (u.raise e v) := by
  obtain ⟨hne, hle⟩ := e.code_range
  refine ⟨respWord e.code (errKind e) v, ?_, rfl, ?_, ?_, reserved_respWord .., ?_⟩
  · rw [State.raise_resp, hresp]
  · rwa [errField_respWord]
  · rw [kindField_respWord]
    exact errKind_le e
  · rw [State.raise_stickyErr, errField_respWord, if_neg hne, hsticky, stickyAfter]

/-- Completing depends on s only through the responses delivered and STICKY_ERR. -/
theorem Completes.congr {sticky : BitVec 4} {s u t : State} (h : Completes sticky u t)
    (hresp : u.resp = s.resp) (hsticky : u.stickyErr = s.stickyErr) : Completes sticky s t := by
  rwa [Completes, hresp, hsticky] at h

/-! ### Each meaning completes -/

theorem execCode_completes {w : Code} {s t : State} (h : execCode w s = .next t) :
    Completes s.stickyErr s t := by
  rcases execCode_frame h with ⟨_, _, _, _, _, _, hk, rfl⟩ | rfl
  · exact completes_respond rfl rfl hk
  · exact completes_raise rfl rfl

theorem execStreamWord_completes {w : Code} {s t : State} (h : execStreamWord w s = .next t) :
    Completes s.stickyErr s t := by
  rcases execStreamWord_frame h with ⟨_, _, _, _, _, _, _, hk, _, rfl⟩ | ⟨_, rfl⟩
  · exact completes_respond rfl rfl hk
  · exact completes_raise rfl rfl

theorem execPkInit_completes {s t : State} (h : execPkInit s = .next t) :
    Completes s.stickyErr s t := by
  unfold execPkInit at h
  split at h <;> cases h
  · exact completes_raise rfl rfl
  · exact completes_respond rfl rfl (by decide)

theorem execPkWrite_completes {w : Code} {s t : State} (h : execPkWrite w s = .next t) :
    Completes s.stickyErr s t := by
  unfold execPkWrite at h
  split_ifs at h <;> cases h
  · exact completes_raise rfl rfl
  · exact completes_raise rfl rfl
  · exact completes_respond rfl rfl (by decide)

theorem execPkClose_completes {s t : State} (h : execPkClose s = .next t) :
    Completes s.stickyErr s t := by
  unfold execPkClose at h
  split_ifs at h <;> cases h
  · exact completes_raise rfl rfl
  · exact completes_raise rfl rfl
  · exact completes_respond rfl rfl (by decide)

theorem execUpInit_completes {s t : State} (h : execUpInit s = .next t) :
    Completes s.stickyErr s t := by
  unfold execUpInit at h
  split at h <;> cases h
  · exact completes_raise rfl rfl
  · exact completes_respond rfl rfl (by decide)

theorem execUpRead_completes {s t : State} (hrun : holds .upRead s = false)
    (h : execUpRead s = .next t) : Completes s.stickyErr s t := by
  unfold execUpRead at h
  split_ifs at h with howned hheld hshort
  · cases h
    exact completes_raise rfl rfl
  · simp [holds, howned, hheld] at hrun
  · cases h
    exact completes_raise rfl rfl
  · cases h
    exact completes_respond rfl rfl (kindOf_le _)

theorem execEncByte_completes {b : Byte} {s t : State} (h : execEncByte b s = .next t) :
    Completes s.stickyErr s t := by
  rcases execEncByte_frame h with ⟨_, _, _, _, _, _, _, _, _, rfl⟩ | ⟨_, rfl⟩
  · exact completes_respond rfl rfl (by decide)
  · exact completes_raise rfl rfl

theorem execEncClose_completes {s t : State} (h : execEncClose s = .next t) :
    Completes s.stickyErr s t := by
  unfold execEncClose at h
  split at h <;> cases h
  · exact completes_raise rfl rfl
  · exact completes_respond rfl rfl (by decide)

theorem execDecStep_completes {s t : State} (hrun : holds .decStep s = false)
    (h : execDecStep s = .next t) : Completes s.stickyErr s t := by
  rcases execDecStep_frame h with ⟨_, rfl⟩ | ⟨hmode, ⟨hheld, _⟩ | ⟨_, _, rfl⟩ | ⟨_, _, hword⟩⟩
  · exact completes_raise rfl rfl
  · simp [holds, hmode, hheld] at hrun
  · exact completes_raise rfl rfl
  · exact (execStreamWord_completes hword).congr rfl rfl

theorem execRdReg_completes {idx : Code} {s t : State} (h : execRdReg idx s = .next t) :
    Completes s.stickyErr s t := by
  unfold execRdReg at h
  split at h <;> cases h
  · exact completes_respond rfl rfl (by decide)
  · exact completes_raise rfl rfl

/-- An instruction that does not hold completes with one response; only CLR_ERR writes STICKY_ERR on
success (00_scope.md R16; 60_exceptions.md R202). -/
theorem exec_completes {i : Instr} {s t : State} (hrun : holds i s = false)
    (h : exec i s = .next t) :
    Completes (if i = .clrErr then 0#4 else s.stickyErr) s t := by
  cases i with
  | lit b => exact execCode_completes h
  | dict c => exact execCode_completes h
  | pkInit => exact execPkInit_completes h
  | pkWrite w => exact execPkWrite_completes h
  | pkClose => exact execPkClose_completes h
  | upInit => exact execUpInit_completes h
  | upRead => exact execUpRead_completes hrun h
  | encByte b => exact execEncByte_completes h
  | encClose => exact execEncClose_completes h
  | decStep => exact execDecStep_completes hrun h
  | rdReg idx => exact execRdReg_completes h
  | reset | eos | nop | encStart | decStart | clrErr =>
    cases h
    exact completes_respond rfl rfl (by decide)

/-- Settles O49, by whether the instruction holds. -/
theorem oneResponseAndStickyError : Obligations.OneResponseAndStickyError := by
  intro i s t h
  cases hhold : holds i s with
  | true =>
    rw [exec_of_holds hhold] at h
    cases h
    exact .inl ⟨rfl, rfl⟩
  | false => exact .inr ⟨rfl, exec_completes hhold h⟩

end Sys2Proof.Machine

/-! PROOFS. The state file 10_state.md, first part: what a step and each meaning with branches can do,
said once, with no claim about the invariant. -/

namespace Sys2Proof.Machine

/-! ### Commands are not stream words -/

theorem plainCommand_ok {op : Code} {i j : Instr} (h : plainCommand op i = .ok j) : j = i := by
  unfold plainCommand at h
  split at h <;> cases h
  rfl

/-- No command word is the stream word RESET (30_encoding.md R89). -/
theorem decodeCommand_ne_reset {w : CmdWord} {i : Instr} (h : decodeCommand w = .ok i) :
    i ≠ .reset := by
  rintro rfl
  unfold decodeCommand decodeOpcode at h
  split at h
  · split at h
    case h_3 => cases h
    case h_8 => split at h <;> cases h
    case h_12 => split at h <;> cases h
    case h_14 => cases h
    all_goals cases plainCommand_ok h
  · cases h

/-! ### Steps -/

/-- The host's step changes IN, CMD and its own list only, or resets (70_reset_and_hazards.md R230,
R236). -/
theorem hostStep_cases {s t : State} (h : hostStep s = .next t) :
    (∃ inq inEnd cmd host,
      t = { s with inq := inq, inEnd := inEnd, cmd := cmd, host := host }) ∨
    ∃ host, t = { s with host := host }.applyReset := by
  unfold hostStep at h
  split at h
  · cases h
    exact .inl ⟨_, _, _, _, rfl⟩
  · rename_i a rest _
    cases a with
    | cmd w =>
      simp only [hostAction] at h
      split at h <;> cases h
      exact .inl ⟨_, _, _, _, rfl⟩
    | inPush b =>
      cases h
      unfold State.pushIn
      split <;> exact .inl ⟨_, _, _, _, rfl⟩
    | inFinish | inClear | takeOutput =>
      cases h
      exact .inl ⟨_, _, _, _, rfl⟩
    | rst =>
      cases h
      exact .inr ⟨_, rfl⟩

/-- A step is the host's, an ILLEGAL response, or the meaning of a command (00_scope.md R16;
30_encoding.md R91). -/
theorem step_cases {s t : State} (h : step s = .next t) :
    hostStep s = .next t ∨ t = s.raise .illegal 0#16 ∨
      ∃ i, i ≠ .reset ∧ exec i s = .next t := by
  unfold step at h
  split at h
  · exact .inl h
  · rename_i w _
    split at h
    · exact .inl h
    · unfold runCommand at h
      split at h
      · rename_i i hd
        exact .inr (.inr ⟨i, decodeCommand_ne_reset hd, h⟩)
      · cases h
        exact .inr (.inl rfl)

/-! ### The packer's and the unpacker's commands -/

theorem execPkInit_cases {s t : State} (h : execPkInit s = .next t) :
    t = s.raise .busy 0#16 ∨ t = s.packFresh.respond 0#4 0#4 0#16 := by
  unfold execPkInit at h
  split at h <;> cases h
  · exact .inl rfl
  · exact .inr rfl

theorem execPkWrite_cases {w : Code} {s t : State} (h : execPkWrite w s = .next t) :
    (∃ e, t = s.raise e 0#16) ∨ ∃ v, t = (s.packWord w).respond 0#4 0#4 v := by
  unfold execPkWrite at h
  split_ifs at h <;> cases h
  · exact .inl ⟨_, rfl⟩
  · exact .inl ⟨_, rfl⟩
  · exact .inr ⟨_, rfl⟩

theorem execPkClose_cases {s t : State} (h : execPkClose s = .next t) :
    (∃ e, t = s.raise e 0#16) ∨
      (s.mode ≠ .enc ∧ ∃ v, t = s.packClose.respond 0#4 0#4 v) := by
  unfold execPkClose at h
  split_ifs at h with howned _ <;> cases h
  · exact .inl ⟨_, rfl⟩
  · exact .inl ⟨_, rfl⟩
  · exact .inr ⟨by simpa [State.packerOwned] using howned, _, rfl⟩

theorem execUpInit_cases {s t : State} (h : execUpInit s = .next t) :
    t = s.raise .busy 0#16 ∨ t = s.unpackFresh.respond 0#4 0#4 0#16 := by
  unfold execUpInit at h
  split at h <;> cases h
  · exact .inl rfl
  · exact .inr rfl

theorem State.wordReady_of_not_inShort {s : State} (h : ¬ s.inShort = true) : s.wordReady :=
  not_not.1 (mt s.inShort_iff.2 h)

/-- UP_READ fails with BUSY, holds, fails with TRUNCATED, or takes a word (40_packer.md R118). -/
theorem execUpRead_cases {s t : State} (h : execUpRead s = .next t) :
    t = s.raise .busy 0#16 ∨ t = s ∨ (∃ v, t = s.wordTruncated.raise .truncated v) ∨
      (s.wordReady ∧ ∃ k v, t = s.wordTaken.respond 0#4 k v) := by
  unfold execUpRead at h
  split_ifs at h with _ _ hshort <;> cases h
  · exact .inl rfl
  · exact .inr (.inl rfl)
  · exact .inr (.inr (.inl ⟨_, rfl⟩))
  · exact .inr (.inr (.inr ⟨State.wordReady_of_not_inShort hshort, _, _, rfl⟩))

theorem execRdReg_cases {idx : Code} {s t : State} (h : execRdReg idx s = .next t) :
    (∃ v, t = s.respond 0#4 0#4 v) ∨ t = s.raise .illegal 0#16 := by
  unfold execRdReg at h
  split at h <;> cases h
  · exact .inl ⟨_, rfl⟩
  · exact .inr rfl

/-! ### The compressor -/

theorem execEncClose_cases {s t : State} (h : execEncClose s = .next t) :
    t = s.raise .notActive 0#16 ∨
      t = ({ ((s.packWord s.encCur).packWord Config.eosCode) with
        mode := .idle } : State).packClose.respond 0#4 0#4 2#16 := by
  unfold execEncClose at h
  split at h <;> cases h
  · exact .inl rfl
  · exact .inr rfl

theorem encMoveToRootChild_cases {b : Byte} {k : Nat} {s t : State}
    (h : encMoveToRootChild b k s = .next t) :
    ∃ c v, s.child Config.rootCode b = some c ∧
      t = ({ s with encCur := c } : State).respond 0#4 0#4 v := by
  unfold encMoveToRootChild at h
  split at h <;> cases h
  exact ⟨_, _, by assumption, rfl⟩

/-- ENC_BYTE fails with NOT_ACTIVE, descends to a child, or misses: it emits a word, registers a node
or saturates, and moves to a child of the root (42_encoder.md R152). -/
theorem execEncByte_cases {b : Byte} {s t : State} (h : execEncByte b s = .next t) :
    t = s.raise .notActive 0#16 ∨
    s.mode = .enc ∧ ∃ u p c v, (u = s ∨ (s.packWord s.encCur).register s.encCur b = some u ∨
        (¬ s.nextFree < Config.resetCode ∧ u = (s.packWord s.encCur).saturate.2)) ∧
      u.child p b = some c ∧ t = ({ u with encCur := c } : State).respond 0#4 0#4 v := by
  unfold execEncByte at h
  split at h
  · cases h
    exact .inl rfl
  rename_i hmode
  refine .inr ⟨not_not.1 hmode, ?_⟩
  split at h
  · rename_i c hc
    cases h
    exact ⟨s, _, c, _, .inl rfl, hc, rfl⟩
  unfold encMiss at h
  dsimp only at h
  split at h
  · split at h
    · rename_i u hu
      obtain ⟨c, v, hc, ht⟩ := encMoveToRootChild_cases h
      exact ⟨u, _, c, v, .inr (.inl hu), hc, ht⟩
    · cases h
  · rename_i hfull
    obtain ⟨c, v, hc, ht⟩ := encMoveToRootChild_cases h
    exact ⟨_, _, c, v, .inr (.inr ⟨hfull, rfl⟩), hc, ht⟩

/-- Saturate counts, or emits Reset and resets the dictionary (42_encoder.md R153). -/
theorem State.saturate_cases (s : State) :
    (s.encSat + 1#10 ≤ Config.satLimit ∧ s.saturate.2 = { s with encSat := s.encSat + 1#10 }) ∨
    s.saturate.2 = { (s.packWord Config.resetCode).trieReset with encSat := 0#10 } := by
  unfold State.saturate
  dsimp only
  split
  · exact .inr rfl
  · rename_i h
    exact .inl ⟨BitVec.not_lt.1 h, rfl⟩

/-! ### The decompressor -/

theorem State.learn_cases {s t : State} {b : Byte} (h : s.learn b = some t) :
    s.register s.decPrev b = some t ∨
      (¬ (s.decPrev ≠ Config.rootCode ∧ s.nextFree < Config.resetCode) ∧ t = s) := by
  unfold State.learn at h
  split at h
  · exact .inl h
  · cases h
    exact .inr ⟨by assumption, rfl⟩

theorem emitPhrase_cases {w : Code} {ph : Option (List Byte)} {s t : State}
    (h : emitPhrase w ph s = .next t) :
    ∃ x u out k v, s.learn x = some u ∧
      t = ({ u.outD out with decPrev := w } : State).respond 0#4 k v := by
  unfold emitPhrase at h
  split at h
  · cases h
  · cases h
  · split at h <;> cases h
    exact ⟨_, _, _, _, _, by assumption, rfl⟩

/-- A literal or DICT word fails with INVALID_CODE, or its code is known or the next one to be
registered, and it learns, writes OUTD and becomes the previous code (43_decoder.md R174). -/
theorem execCode_cases {w : Code} {s t : State} (h : execCode w s = .next t) :
    t = s.invalidCode w ∨
    ((w < s.nextFree ∨ (w = s.nextFree ∧ s.decPrev ≠ Config.rootCode)) ∧
      ∃ x u out k v, s.learn x = some u ∧
        t = ({ u.outD out with decPrev := w } : State).respond 0#4 k v) := by
  unfold execCode at h
  split at h
  · exact .inr ⟨.inl (by assumption), emitPhrase_cases h⟩
  split at h
  · exact .inr ⟨.inr (by assumption), emitPhrase_cases h⟩
  · cases h
    exact .inl rfl

end Sys2Proof.Machine

/-! PROOFS. The state file 10_state.md, second part: reset, the register map and the flags (O13, O14,
O16, O17, O51, O53, O56). -/

namespace Sys2Proof.Machine

/-! ### Reset -/

/-- RST is the reset state but for the arena, what was delivered and the host's list
(70_reset_and_hazards.md R230). -/
theorem step_of_rst {s : State} {rest : List HostAction} (hhost : s.host = .rst :: rest)
    (hidle : s.cmd = none ∨ ∃ w, s.cmd = some w ∧ wordHolds w s = true) :
    step s = .next { s with host := rest }.applyReset := by
  rw [step_host hidle, hostStep, hhost]
  rfl

/-- Settles O13. -/
theorem rstRestoresResetValues : Obligations.RstRestoresResetValues := by
  intro s rest hwf hhost hidle
  refine ⟨s.nodes.restoreLiterals, ?_, Memory.read_restoreLiterals hwf⟩
  rw [step_of_rst hhost hidle, State.applyReset, State.trieReset_nodes]
  rfl

theorem literalNode_byte (b : Byte) :
    literalNode b.toNat = { parent := 0x3FFE#14, depth := 1#14, value := b, first := b } := by
  simp [literalNode]

/-- After reset every literal code reads its literal node (41_trie.md R131). -/
theorem State.reset_nodeRead_literal {c : Code} (h : c.toNat < Config.literalLimit) :
    State.reset.nodeRead c = some (literalNode c.toNat) := by
  rw [State.nodeRead_of_lt (show c < State.reset.nextFree from h)]
  exact Memory.blank_literal h

/-- Settles O14. -/
theorem resetValues : Obligations.ResetValues := by
  refine ⟨rfl, rfl, rfl, rfl, rfl, rfl, rfl, rfl, rfl, rfl, rfl, rfl, rfl, by decide, fun b => ?_⟩
  rw [State.reset_nodeRead_literal (by rw [byteCode_toNat]; exact b.isLt), byteCode_toNat,
    literalNode_byte]

/-- Settles O53: no dynamic code is defined yet. -/
theorem resetMeetsInvariant : Obligations.ResetMeetsInvariant where
  packer := by unfold State.PackerInv; decide
  unpacker := by unfold State.UnpackerInv; decide
  nextFree := by unfold State.NextFreeInv; decide
  saturation := by unfold State.SaturationInv; decide
  encCur := by unfold State.EncCurInv; decide
  decPrev := by unfold State.DecPrevInv; decide
  literals _ hc := Memory.blank_literal hc
  dynamics _ hlo hhi := absurd hhi (BitVec.not_lt.2 hlo)
  packerOpen _ := rfl
  sticky := by unfold State.StickyInv; decide
  arena := rfl

/-- Settles O56. -/
theorem resetMeetsSessionInvAsWorded : Obligations.ResetMeetsSessionInvAsWorded :=
  ⟨fun _ => rfl, .inl rfl, .inl rfl⟩

/-! ### The register map (10_state.md R47, R48) -/

theorem execRdReg_of_read {idx : Code} {s : State} {v : BitVec 16}
    (h : s.readRegister idx = some v) :
    exec (.rdReg idx) s = .next (s.delivered (respWord 0#4 0#4 v)) := by
  show execRdReg idx s = _
  rw [execRdReg, h]
  rfl

/-- The registers of the map, by index. -/
def State.registers (s : State) : Fin 7 → BitVec 16 :=
  ![s.status, s.nextFree.setWidth 16, s.encCur.setWidth 16, s.encSat.setWidth 16,
    s.decPrev.setWidth 16, s.packerState, s.unpackerState]

theorem State.readRegister_registers (s : State) (k : Fin 7) :
    s.readRegister (BitVec.ofNat Config.wordBits k) = some (s.registers k) := by
  fin_cases k <;> rfl

theorem State.readRegister_reserved (s : State) {idx : Code} (h : 6 < idx.toNat) :
    s.readRegister idx = none := by
  unfold State.readRegister
  split
  case h_8 => rfl
  all_goals omega

theorem code_setWidth16_toNat (c : Code) : (c.setWidth 16).toNat = c.toNat := by
  rw [BitVec.toNat_setWidth]
  have := Code.lt c
  omega

/-- STATUS as arithmetic, each field at its bit (R48). -/
theorem State.status_toNat (s : State) :
    s.status.toNat = s.mode.bits.toNat + 8 * s.pkClosed.toNat + 16 * s.inEnd.toNat +
      32 * s.inEmpty.toNat + 256 * s.stickyErr.toNat := by
  simp only [State.status, append_toNat, BitVec.toNat_ofNat, BitVec.toNat_ofBool]
  omega

theorem State.inEmpty_eq (s : State) : s.inEmpty = decide (s.inq = []) := by
  rw [State.inEmpty, Bool.eq_iff_iff, List.isEmpty_iff, decide_eq_true_iff]

/-- Settles O16. -/
theorem rdRegReadsTheMap : Obligations.RdRegReadsTheMap := by
  intro s
  refine ⟨s.registers, fun k => execRdReg_of_read (s.readRegister_registers k), ?_,
    code_setWidth16_toNat _, code_setWidth16_toNat _, ?_, code_setWidth16_toNat _, ?_, ?_⟩
  · show s.status.toNat = _
    rw [State.status_toNat, State.inEmpty_eq]
    cases s.mode <;> rfl
  · show (s.encSat.setWidth 16).toNat = _
    rw [BitVec.toNat_setWidth]
    omega
  · show s.packerState.toNat = _
    simp only [State.packerState, append_toNat, BitVec.toNat_ofNat]
    omega
  · show s.unpackerState.toNat = _
    simp only [State.unpackerState, append_toNat, BitVec.toNat_ofNat]
    omega

/-- Settles O17. -/
theorem rdRegReservedIndexFails : Obligations.RdRegReservedIndexFails := by
  intro s idx h
  show execRdReg idx s = _
  rw [execRdReg, State.readRegister_reserved s h]
  exact next_raise rfl (by decide)

/-! ### Who writes the flags (10_state.md R49) -/

/-- What O51 says of one instruction from s to t: IN_END is kept, and who may have written PK_CLOSED
and MODE. -/
def FlagClauses (i : Instr) (s t : State) : Prop :=
  t.inEnd = s.inEnd ∧
  (t.pkClosed ≠ s.pkClosed →
    (t.pkClosed = false ∧ (i = .pkInit ∨ i = .encStart)) ∨
    (t.pkClosed = true ∧ (i = .pkClose ∨ i = .encClose))) ∧
  (t.mode ≠ s.mode →
    (i = .encStart ∧ t.mode = .enc) ∨ (i = .decStart ∧ t.mode = .dec) ∨
    (i = .encClose ∧ t.mode = .idle) ∨
    ((i = .decStep ∨ i = .eos ∨ (∃ b, i = .lit b) ∨ (∃ c, i = .dict c)) ∧
      (t.mode = .decDone ∨ t.mode = .decErr)))

/-- IN_END, PK_CLOSED and MODE are those of s. -/
def SameFlags (s t : State) : Prop :=
  t.inEnd = s.inEnd ∧ t.pkClosed = s.pkClosed ∧ t.mode = s.mode

/-- MODE is that of s or tells that the decompressor stopped; the other flags are those of s. -/
def DecoderFlags (s t : State) : Prop :=
  t.inEnd = s.inEnd ∧ t.pkClosed = s.pkClosed ∧
    (t.mode = s.mode ∨ t.mode = .decDone ∨ t.mode = .decErr)

theorem SameFlags.clauses {s t : State} (h : SameFlags s t) (i : Instr) : FlagClauses i s t :=
  ⟨h.1, fun hne => absurd h.2.1 hne, fun hne => absurd h.2.2 hne⟩

theorem DecoderFlags.clauses {i : Instr} {s t : State} (h : DecoderFlags s t)
    (hi : i = .decStep ∨ i = .eos ∨ (∃ b, i = .lit b) ∨ (∃ c, i = .dict c)) :
    FlagClauses i s t := by
  obtain ⟨hend, hclosed, hmode⟩ := h
  exact ⟨hend, fun hne => absurd hclosed hne,
    fun hne => .inr (.inr (.inr ⟨hi, hmode.resolve_left hne⟩))⟩

theorem execCode_flags {w : Code} {s t : State} (h : execCode w s = .next t) :
    DecoderFlags s t := by
  rcases execCode_frame h with ⟨_, _, _, _, _, _, _, rfl⟩ | rfl
  · exact ⟨rfl, rfl, .inl rfl⟩
  · exact ⟨rfl, rfl, .inr (.inr rfl)⟩

theorem execStreamWord_flags {w : Code} {s t : State} (h : execStreamWord w s = .next t) :
    DecoderFlags s t := by
  rcases execStreamWord_frame h with ⟨_, _, _, _, _, _, _, _, rfl | rfl, rfl⟩ | ⟨_, rfl⟩
  · exact ⟨rfl, rfl, .inl rfl⟩
  · exact ⟨rfl, rfl, .inr (.inl rfl)⟩
  · exact ⟨rfl, rfl, .inr (.inr rfl)⟩

theorem execDecStep_flags {s t : State} (h : execDecStep s = .next t) : DecoderFlags s t := by
  rcases execDecStep_frame h with ⟨_, rfl⟩ | ⟨_, ⟨_, rfl⟩ | ⟨_, _, rfl⟩ | ⟨_, _, hword⟩⟩
  · exact ⟨rfl, rfl, .inl rfl⟩
  · exact ⟨rfl, rfl, .inl rfl⟩
  · exact ⟨rfl, rfl, .inr (.inr rfl)⟩
  · obtain ⟨hend, hclosed, hmode⟩ := execStreamWord_flags hword
    exact ⟨hend, hclosed, hmode⟩

/-- Settles O51, one case per instruction. -/
theorem flagWriters : Obligations.FlagWriters := by
  intro i s t h
  show FlagClauses i s t
  cases i with
  | lit b => exact (execCode_flags h).clauses (.inr (.inr (.inl ⟨b, rfl⟩)))
  | dict c => exact (execCode_flags h).clauses (.inr (.inr (.inr ⟨c, rfl⟩)))
  | decStep => exact (execDecStep_flags h).clauses (.inl rfl)
  | eos =>
    cases h
    exact DecoderFlags.clauses ⟨rfl, rfl, .inr (.inl rfl)⟩ (.inr (.inl rfl))
  | nop | clrErr | reset =>
    cases h
    exact SameFlags.clauses ⟨rfl, rfl, rfl⟩ _
  | pkInit =>
    rcases execPkInit_cases h with rfl | rfl
    · exact SameFlags.clauses ⟨rfl, rfl, rfl⟩ _
    · exact ⟨rfl, fun _ => .inl ⟨rfl, .inl rfl⟩, fun hne => absurd rfl hne⟩
  | pkWrite w =>
    rcases execPkWrite_cases h with ⟨_, rfl⟩ | ⟨_, rfl⟩ <;>
      exact SameFlags.clauses ⟨rfl, rfl, rfl⟩ _
  | pkClose =>
    rcases execPkClose_cases h with ⟨_, rfl⟩ | ⟨_, _, rfl⟩
    · exact SameFlags.clauses ⟨rfl, rfl, rfl⟩ _
    · exact ⟨rfl, fun _ => .inr ⟨rfl, .inl rfl⟩, fun hne => absurd rfl hne⟩
  | upInit =>
    rcases execUpInit_cases h with rfl | rfl <;> exact SameFlags.clauses ⟨rfl, rfl, rfl⟩ _
  | upRead =>
    rcases execUpRead_cases h with rfl | rfl | ⟨_, rfl⟩ | ⟨_, _, _, rfl⟩ <;>
      exact SameFlags.clauses ⟨rfl, rfl, rfl⟩ _
  | encStart =>
    cases h
    exact ⟨rfl, fun _ => .inl ⟨rfl, .inr rfl⟩, fun _ => .inl ⟨rfl, rfl⟩⟩
  | encByte b =>
    rcases execEncByte_frame h with ⟨_, _, _, _, _, _, _, _, _, rfl⟩ | ⟨_, rfl⟩ <;>
      exact SameFlags.clauses ⟨rfl, rfl, rfl⟩ _
  | encClose =>
    rcases execEncClose_cases h with rfl | rfl
    · exact SameFlags.clauses ⟨rfl, rfl, rfl⟩ _
    · exact ⟨rfl, fun _ => .inr ⟨rfl, .inr rfl⟩, fun _ => .inr (.inr (.inl ⟨rfl, rfl⟩))⟩
  | decStart =>
    cases h
    exact ⟨rfl, fun hne => absurd rfl hne, fun _ => .inr (.inl ⟨rfl, rfl⟩)⟩
  | rdReg idx =>
    rcases execRdReg_cases h with ⟨_, rfl⟩ | rfl <;> exact SameFlags.clauses ⟨rfl, rfl, rfl⟩ _

end Sys2Proof.Machine

/-! PROOFS. The state file 10_state.md, third part: every step keeps the invariant of R55 (O54). One
lemma per operation on the state says that the operation keeps it; a meaning is a chain of
operations. -/

namespace Sys2Proof.Machine

/-! ### The dictionary's part of the invariant -/

/-- The part of the invariant that speaks of the arena and NEXT_FREE only: R55 (c) and (g), the literal
nodes and the canonical form. -/
structure State.DictInv (s : State) : Prop where
  nextFree : s.NextFreeInv
  literals : s.LiteralInv
  dynamics : s.DynamicInv
  arena : s.nodes.wf = true

theorem State.Inv.dict {s : State} (h : s.Inv) : s.DictInv :=
  ⟨h.nextFree, h.literals, h.dynamics, h.arena⟩

/-- A phrase is at most one byte longer than its code, since a parent's code is lower (R55 (g)). -/
theorem State.DictInv.depth_le {s : State} (h : s.DictInv) (c : Code) {n : Node}
    (hn : s.nodeRead c = some n) : n.depth.toNat ≤ c.toNat + 1 := by
  induction hk : c.toNat using Nat.strongRecOn generalizing c n with
  | ind k ih =>
    have hdef := State.nodeRead_lt hn
    by_cases hlit : c.toNat < Config.literalLimit
    · rw [State.nodeRead_of_lt hdef, h.literals _ hlit] at hn
      cases hn
      exact Nat.le_add_left 1 k
    · obtain ⟨n', m, hn', hparent, hm, hdepth, _⟩ := h.dynamics c (Nat.not_lt.1 hlit) hdef
      rw [hn] at hn'
      cases hn'
      have hlt : n.parent.toNat < c.toNat := hparent
      have := ih n.parent.toNat (by omega) n.parent hm rfl
      omega

/-- An arena of which only the literal slots are defined has the invariant. -/
theorem State.dictInv_of_literals {s : State} {m : Memory} (hwf : m.wf = true)
    (hlit : ∀ c, c < Config.literalLimit → m.read c = some (literalNode c)) :
    ({ s with nodes := m, nextFree := Config.firstDyn } : State).DictInv where
  nextFree := ⟨Nat.le_refl 0x100, show 0x100 ≤ 0x3FFE by decide⟩
  literals := hlit
  dynamics _ hlo hhi := absurd hhi (BitVec.not_lt.2 hlo)
  arena := hwf

theorem Memory.read_restoreLiterals_literal {m : Memory} (h : m.wf = true) (c : Nat)
    (hc : c < Config.literalLimit) : m.restoreLiterals.read c = some (literalNode c) := by
  rw [Memory.read_restoreLiterals h, if_pos hc]

/-- A registration moves NEXT_FREE on by one (41_trie.md R133). -/
theorem State.register_nextFree {s t : State} {p : Code} {b : Byte}
    (h : s.register p b = some t) : t.nextFree.toNat = s.nextFree.toNat + 1 := by
  obtain ⟨hf, _, _, _, rfl⟩ := State.register_eq_some h
  exact nextFree_succ_toNat hf

theorem State.register_nextFree_lt {s t : State} {p : Code} {b : Byte}
    (h : s.register p b = some t) : s.nextFree < t.nextFree := by
  rw [BitVec.lt_def, State.register_nextFree h]
  omega

/-- A registration keeps the dictionary's invariant: the new node is one byte longer than its parent,
which is defined and so has a lower code (41_trie.md R133). -/
theorem State.DictInv.register {s t : State} (h : s.DictInv) {p : Code} {b : Byte}
    (hr : s.register p b = some t) : t.DictInv := by
  obtain ⟨hfree, _, n, hn, rfl⟩ := State.register_eq_some hr
  have hsucc := nextFree_succ_toNat hfree
  have hlo : 0x100 ≤ s.nextFree.toNat := h.nextFree.1
  have hhi : s.nextFree.toNat < 0x3FFE := hfree
  have hp : p < s.nextFree := State.nodeRead_lt hn
  have hread := State.nodeRead_written h.arena hfree
    { parent := p, depth := n.depth + 1#Config.depthBits, value := b, first := n.first }
  refine ⟨⟨?_, ?_⟩, ?_, ?_, ?_⟩
  · show 0x100 ≤ (s.nextFree + 1#Config.wordBits).toNat
    rw [hsucc]
    omega
  · show (s.nextFree + 1#Config.wordBits).toNat ≤ 0x3FFE
    rw [hsucc]
    omega
  · intro c hc
    have hne : c ≠ s.nextFree.toNat := Nat.ne_of_lt (Nat.lt_of_lt_of_le hc hlo)
    rw [Memory.read_write h.arena, if_neg hne]
    exact h.literals c hc
  · intro c hc hlt
    by_cases hnew : c = s.nextFree
    · have hdepth : (n.depth + 1#Config.depthBits).toNat = (n.depth.toNat + 1) % 2 ^ 14 :=
        BitVec.toNat_add n.depth 1#14
      have hbound := h.depth_le p hn
      have hpn : p.toNat < s.nextFree.toNat := hp
      refine ⟨_, n, (hread c).trans (if_pos hnew), hnew ▸ hp, ?_, ?_, rfl⟩
      · rw [hread, if_neg (BitVec.ne_of_lt hp), hn]
      · rw [hdepth]
        omega
    · have hlt' : c.toNat < s.nextFree.toNat + 1 := hsucc ▸ hlt
      have hne : c.toNat ≠ s.nextFree.toNat := fun e => hnew (BitVec.eq_of_toNat_eq e)
      have hold : c < s.nextFree := BitVec.lt_def.2 (by omega)
      obtain ⟨n', m, hn', hparent, hm, hrest⟩ := h.dynamics c hc hold
      refine ⟨n', m, ?_, hparent, ?_, hrest⟩
      · rw [hread, if_neg hnew, hn']
      · rw [hread, if_neg (BitVec.ne_of_lt (State.nodeRead_lt hm)), hm]
  · exact Memory.wf_write h.arena hhi _

/-! ### Codes that are the root or defined -/

/-- c is the root or a defined code: what R55 (e) and (f) say of ENC_CUR and DEC_PREV. -/
def State.Known (s : State) (c : Code) : Prop := c = Config.rootCode ∨ c < s.nextFree

theorem State.Known.mono {s t : State} {c : Code} (h : s.Known c) (hle : s.nextFree ≤ t.nextFree) :
    t.Known c :=
  Or.imp_right (fun hlt => BitVec.lt_def.2 (Nat.lt_of_lt_of_le hlt hle)) h

/-- A child is a defined code (41_trie.md R132). -/
theorem State.child_lt {s : State} {p c : Code} {b : Byte} (h : s.child p b = some c) :
    c < s.nextFree := by
  obtain ⟨k, hk, rfl⟩ := Option.map_eq_some_iff.1 h
  have hlt := List.mem_range.1 (List.mem_of_find?_eq_some hk)
  rw [BitVec.lt_def, Code.ofNat_toNat (hlt.trans (Code.lt _))]
  exact hlt

/-- The code ExecCode has executed is known afterwards: it was, or it is the one just registered, or
the code space is exhausted and it is the root's code (43_decoder.md R174). -/
theorem State.known_of_learn {s t : State} {w : Code} {x : Byte} (hnf : s.NextFreeInv)
    (hw : w < s.nextFree ∨ (w = s.nextFree ∧ s.decPrev ≠ Config.rootCode))
    (h : s.learn x = some t) : t.Known w := by
  rcases State.learn_cases h with hr | ⟨hnone, rfl⟩
  · have hlt := State.register_nextFree_lt hr
    rcases hw with hw | ⟨rfl, _⟩
    · exact .inr (BitVec.lt_trans hw hlt)
    · exact .inr hlt
  · rcases hw with hw | ⟨rfl, hprev⟩
    · exact .inr hw
    · have hfull : ¬ t.nextFree < Config.resetCode := fun hlt => hnone ⟨hprev, hlt⟩
      exact .inl (BitVec.le_antisymm hnf.2 (BitVec.not_lt.1 hfull))

/-! ### One lemma per operation -/

section Operations

variable {s : State}

theorem State.Inv.respond (h : s.Inv) (e k : BitVec 4) (v : BitVec 16) : (s.respond e k v).Inv :=
  { h with }

theorem stickyAfter_le {old : BitVec 4} (h : old ≤ 6#4) (e : Err) : stickyAfter old e ≤ 6#4 := by
  unfold stickyAfter
  split
  · exact e.code_range.2
  · exact h

theorem State.Inv.raise (h : s.Inv) (e : Err) (v : BitVec 16) : (s.raise e v).Inv :=
  { h with sticky := stickyAfter_le h.sticky e }

theorem State.Inv.clearSticky (h : s.Inv) : ({ s with stickyErr := 0#4 } : State).Inv :=
  { h with sticky := Nat.zero_le 6 }

/-- The host's writes to IN, IN_END, CMD and its list. -/
theorem State.Inv.hostPorts (h : s.Inv) (inq : List Byte) (inEnd : Bool) (cmd : Option CmdWord)
    (host : List HostAction) :
    ({ s with inq := inq, inEnd := inEnd, cmd := cmd, host := host } : State).Inv :=
  { h with }

theorem State.Inv.packFresh (h : s.Inv) : s.packFresh.Inv :=
  { h with
    packer := ⟨Nat.one_pos, rfl⟩
    packerOpen := fun _ => rfl }

/-- PackWord leaves an even number of pending bits, since a word has 14 (40_packer.md R111). -/
theorem State.packerInv_packWord (h : s.PackerInv) (w : Code) : (s.packWord w).PackerInv := by
  obtain ⟨_, heven⟩ := h
  have hlt : (s.pkNbits.toNat + 14) % 8 < 8 := Nat.mod_lt _ (by decide)
  have hpow : 2 ^ ((s.pkNbits.toNat + 14) % 8) ≤ 2 ^ 7 :=
    Nat.pow_le_pow_right (by decide) (by omega)
  have hmod : s.packTotal w % 2 ^ ((s.pkNbits.toNat + 14) % 8) <
      2 ^ ((s.pkNbits.toNat + 14) % 8) := Nat.mod_lt _ (Nat.two_pow_pos _)
  rw [State.PackerInv, State.packWord_pkAcc, State.packWord_pkNbits, BitVec.toNat_ofNat,
    BitVec.toNat_ofNat, Nat.mod_eq_of_lt (hmod.trans_le hpow), Nat.mod_eq_of_lt hlt]
  exact ⟨hmod, by omega⟩

theorem State.Inv.packWord (h : s.Inv) (w : Code) : (s.packWord w).Inv :=
  { h with packer := State.packerInv_packWord h.packer w }

/-- Closing the packer is for other modes than ENC (R55 (h)). -/
theorem State.Inv.packClose (h : s.Inv) (hmode : s.mode ≠ .enc) : s.packClose.Inv :=
  { h with
    packer := ⟨Nat.one_pos, rfl⟩
    packerOpen := fun he => absurd he hmode }

theorem State.Inv.unpackFresh (h : s.Inv) : s.unpackFresh.Inv :=
  { h with unpacker := ⟨Nat.zero_le 6, rfl⟩ }

/-- UnpackWord leaves an even number of bits below 8, since a word has 14 (40_packer.md R114). -/
theorem State.Inv.wordTaken (h : s.Inv) (hready : s.wordReady) : s.wordTaken.Inv := by
  obtain ⟨hle, heven⟩ := h.unpacker
  obtain ⟨taken, _, _, hlt, hcount, _⟩ := State.wordTaken_spec (by omega) hready
  exact { h with unpacker := ⟨by omega, by omega⟩ }

theorem State.Inv.wordTruncated (h : s.Inv) : s.wordTruncated.Inv :=
  { h with unpacker := ⟨Nat.zero_le 6, rfl⟩ }

theorem State.Inv.outD (h : s.Inv) (bytes : List Byte) : (s.outD bytes).Inv := { h with }

/-- A MODE in which no session is open asks nothing of the session's registers. -/
theorem State.Inv.noSession (h : s.Inv) (m : Mode) (henc : m ≠ .enc) (hdec : m ≠ .dec) :
    ({ s with mode := m } : State).Inv :=
  { h with
    saturation := ⟨h.saturation.1, fun he => absurd he henc⟩
    encCur := fun he => absurd he henc
    decPrev := fun hd => absurd hd hdec
    packerOpen := fun he => absurd he henc }

theorem State.Inv.setEncCur (h : s.Inv) {c : Code} (hc : s.Known c) :
    ({ s with encCur := c } : State).Inv :=
  { h with encCur := fun _ => hc }

theorem State.Inv.setDecPrev (h : s.Inv) {c : Code} (hc : s.Known c) :
    ({ s with decPrev := c } : State).Inv :=
  { h with decPrev := fun _ => hc }

/-- Counting an exhausted miss (42_encoder.md R153). -/
theorem State.Inv.countMiss (h : s.Inv) (hfull : ¬ s.nextFree < Config.resetCode)
    (hle : s.encSat + 1#10 ≤ Config.satLimit) :
    ({ s with encSat := s.encSat + 1#10 } : State).Inv :=
  { h with saturation := ⟨hle, fun _ hlt => absurd hlt hfull⟩ }

/-- A new dictionary keeps the invariant when the registers of an open session fit it. -/
theorem State.Inv.replaceDict (h : s.Inv) {nodes : Memory} {nf cur prev : Code} {m : Mode}
    {sat : BitVec 10} (hd : ({ s with nodes := nodes, nextFree := nf } : State).DictInv)
    (hsat : sat ≤ Config.satLimit) (hzero : m = .enc → nf < Config.resetCode → sat = 0#10)
    (hcur : m = .enc → cur = Config.rootCode ∨ cur < nf)
    (hprev : m = .dec → prev = Config.rootCode ∨ prev < nf)
    (hopen : m = .enc → s.pkClosed = false) :
    ({ s with nodes := nodes, nextFree := nf, mode := m, encCur := cur, decPrev := prev,
              encSat := sat } : State).Inv where
  packer := h.packer
  unpacker := h.unpacker
  nextFree := hd.nextFree
  saturation := ⟨hsat, hzero⟩
  encCur := hcur
  decPrev := hprev
  literals := hd.literals
  dynamics := hd.dynamics
  packerOpen := hopen
  sticky := h.sticky
  arena := hd.arena

/-- A registration keeps what was known and what was exhausted (41_trie.md R133). -/
theorem State.Inv.register {t : State} (h : s.Inv) {p : Code} {b : Byte}
    (hr : s.register p b = some t) : t.Inv := by
  have hd := h.dict.register hr
  have hlt := State.register_nextFree_lt hr
  obtain ⟨m, nf, rfl⟩ := State.register_frame hr
  exact h.replaceDict hd h.saturation.1
    (fun he hfree => h.saturation.2 he (BitVec.lt_trans hlt hfree))
    (fun he => State.Known.mono (h.encCur he) (BitVec.le_of_lt hlt))
    (fun he => State.Known.mono (h.decPrev he) (BitVec.le_of_lt hlt)) h.packerOpen

/-- TrieReset keeps the invariant when it is not the reset of a compression session, or ENC_CUR and
ENC_SAT are reset with it; the same for DEC_PREV (41_trie.md R131). -/
theorem State.Inv.trieReset (h : s.Inv) (m : Mode) (cur prev : Code) (sat : BitVec 10)
    (hsat : sat ≤ Config.satLimit) (hzero : m = .enc → sat = 0#10)
    (hcur : m = .enc → cur = Config.rootCode ∨ cur < Config.firstDyn)
    (hprev : m = .dec → prev = Config.rootCode) (hopen : m = .enc → s.pkClosed = false) :
    ({ s with nodes := s.nodes.restoreLiterals, nextFree := Config.firstDyn, mode := m,
              encCur := cur, decPrev := prev, encSat := sat } : State).Inv :=
  h.replaceDict (State.dictInv_of_literals (Memory.wf_restoreLiterals h.arena)
      (Memory.read_restoreLiterals_literal h.arena))
    hsat (fun he _ => hzero he) hcur (fun he => .inl (hprev he)) hopen

theorem State.Inv.learn {t : State} (h : s.Inv) {x : Byte} (hl : s.learn x = some t) : t.Inv := by
  rcases State.learn_cases hl with hr | ⟨_, rfl⟩
  · exact h.register hr
  · exact h

end Operations

/-! ### The meanings -/

theorem execCode_inv {w : Code} {s t : State} (h : s.Inv) (he : execCode w s = .next t) :
    t.Inv := by
  rcases execCode_cases he with rfl | ⟨hw, x, u, out, k, v, hl, rfl⟩
  · exact (h.noSession .decErr (by decide) (by decide)).raise _ _
  · have hknown := State.known_of_learn h.nextFree hw hl
    exact (((h.learn hl).outD out).setDecPrev hknown).respond _ _ _

/-- RESET keeps the invariant outside a compression session, whose position it would lose. -/
theorem execReset_inv {s t : State} (h : s.Inv) (hmode : s.mode ≠ .enc)
    (he : execReset s = .next t) : t.Inv := by
  simp only [execReset, State.trieReset] at he
  cases he
  exact State.Inv.respond (h.trieReset _ _ _ _ h.saturation.1 (fun he => absurd he hmode)
    (fun he => absurd he hmode) (fun _ => rfl) (fun he => absurd he hmode)) _ _ _

theorem execEos_inv {s t : State} (h : s.Inv) (he : execEos s = .next t) : t.Inv := by
  cases he
  exact (h.noSession .decDone (by decide) (by decide)).respond _ _ _

theorem execStreamWord_inv {w : Code} {s t : State} (h : s.Inv) (hmode : s.mode ≠ .enc)
    (he : execStreamWord w s = .next t) : t.Inv := by
  unfold execStreamWord at he
  split at he
  · exact execCode_inv h he
  · exact execReset_inv h hmode he
  · exact execEos_inv h he
  · exact execCode_inv h he

theorem execDecStep_inv {s t : State} (h : s.Inv) (he : execDecStep s = .next t) : t.Inv := by
  rcases execDecStep_frame he with
    ⟨_, rfl⟩ | ⟨hmode, ⟨_, rfl⟩ | ⟨_, _, rfl⟩ | ⟨_, hthere, hword⟩⟩
  · exact h.raise _ _
  · exact h
  · exact (h.wordTruncated.noSession .decErr (by decide) (by decide)).raise _ _
  · have hready : s.wordReady := State.wordReady_of_not_inShort (by simp [hthere])
    exact execStreamWord_inv (h.wordTaken hready) (by simp [hmode]) hword

theorem execDecStart_inv {s t : State} (h : s.Inv) (he : execDecStart s = .next t) : t.Inv := by
  simp only [execDecStart, State.trieReset, State.unpackFresh] at he
  cases he
  exact State.Inv.respond (h.unpackFresh.trieReset .dec _ _ _ h.saturation.1 nofun nofun
    (fun _ => rfl) nofun) _ _ _

theorem execEncStart_inv {s t : State} (h : s.Inv) (he : execEncStart s = .next t) : t.Inv := by
  simp only [execEncStart, State.trieReset, State.packFresh] at he
  cases he
  exact State.Inv.respond (h.packFresh.trieReset .enc _ _ 0#10 (by decide)
    (fun _ => rfl) (fun _ => .inl rfl) nofun (fun _ => rfl)) _ _ _

/-- A saturating miss, up to the move to a code that is defined afterwards (42_encoder.md R153). -/
theorem State.Inv.saturate {s : State} (h : s.Inv) (hmode : s.mode = .enc)
    (hfull : ¬ s.nextFree < Config.resetCode) {c : Code} (hc : s.saturate.2.Known c) :
    ({ s.saturate.2 with encCur := c } : State).Inv := by
  rcases s.saturate_cases with ⟨hle, e⟩ | e
  · rw [e] at hc ⊢
    exact (h.countMiss hfull hle).setEncCur hc
  · simp only [e, State.trieReset] at hc ⊢
    exact (h.packWord Config.resetCode).trieReset _ _ _ 0#10 (by decide) (fun _ => rfl)
      (fun _ => hc) (fun hd => absurd (hmode.symm.trans hd) (by decide)) h.packerOpen

theorem execEncByte_inv {b : Byte} {s t : State} (h : s.Inv) (he : execEncByte b s = .next t) :
    t.Inv := by
  rcases execEncByte_cases he with rfl | ⟨hmode, u, p, c, v, hu, hc, rfl⟩
  · exact h.raise _ _
  have hknown : u.Known c := .inr (State.child_lt hc)
  rcases hu with rfl | hr | ⟨hfull, rfl⟩
  · exact (h.setEncCur hknown).respond _ _ _
  · exact (((h.packWord s.encCur).register hr).setEncCur hknown).respond _ _ _
  · exact ((h.packWord s.encCur).saturate hmode hfull hknown).respond _ _ _

theorem execPackerCommand_inv {i : Instr} {s t : State} (h : s.Inv)
    (hi : i = .pkInit ∨ (∃ w, i = .pkWrite w) ∨ i = .pkClose) (he : exec i s = .next t) : t.Inv := by
  rcases hi with rfl | ⟨w, rfl⟩ | rfl
  · rcases execPkInit_cases he with rfl | rfl
    · exact h.raise _ _
    · exact h.packFresh.respond _ _ _
  · rcases execPkWrite_cases he with ⟨e, rfl⟩ | ⟨v, rfl⟩
    · exact h.raise _ _
    · exact (h.packWord w).respond _ _ _
  · rcases execPkClose_cases he with ⟨e, rfl⟩ | ⟨hmode, v, rfl⟩
    · exact h.raise _ _
    · exact (h.packClose hmode).respond _ _ _

theorem execUnpackerCommand_inv {i : Instr} {s t : State} (h : s.Inv)
    (hi : i = .upInit ∨ i = .upRead) (he : exec i s = .next t) : t.Inv := by
  rcases hi with rfl | rfl
  · rcases execUpInit_cases he with rfl | rfl
    · exact h.raise _ _
    · exact h.unpackFresh.respond _ _ _
  · rcases execUpRead_cases he with rfl | rfl | ⟨v, rfl⟩ | ⟨hready, k, v, rfl⟩
    · exact h.raise _ _
    · exact h
    · exact h.wordTruncated.raise _ _
    · exact (h.wordTaken hready).respond _ _ _

theorem execEncClose_inv {s t : State} (h : s.Inv) (he : execEncClose s = .next t) : t.Inv := by
  rcases execEncClose_cases he with rfl | rfl
  · exact h.raise _ _
  · have hwords := (h.packWord s.encCur).packWord Config.eosCode
    exact ((hwords.noSession .idle (by decide) (by decide)).packClose
      (show Mode.idle ≠ .enc by decide)).respond _ _ _

/-- Every instruction keeps the invariant, but for the stream word RESET in a compression session,
where no step runs it (43_decoder.md R171). -/
theorem exec_inv {i : Instr} {s t : State} (h : s.Inv) (hreset : i = .reset → s.mode ≠ .enc)
    (he : exec i s = .next t) : t.Inv := by
  cases i with
  | lit b => exact execCode_inv h he
  | dict c => exact execCode_inv h he
  | reset => exact execReset_inv h (hreset rfl) he
  | eos => exact execEos_inv h he
  | pkInit => exact execPackerCommand_inv h (.inl rfl) he
  | pkWrite w => exact execPackerCommand_inv h (.inr (.inl ⟨w, rfl⟩)) he
  | pkClose => exact execPackerCommand_inv h (.inr (.inr rfl)) he
  | upInit => exact execUnpackerCommand_inv h (.inl rfl) he
  | upRead => exact execUnpackerCommand_inv h (.inr rfl) he
  | encStart => exact execEncStart_inv h he
  | encByte b => exact execEncByte_inv h he
  | encClose => exact execEncClose_inv h he
  | decStart => exact execDecStart_inv h he
  | decStep => exact execDecStep_inv h he
  | nop =>
    cases he
    exact h.respond _ _ _
  | clrErr =>
    cases he
    exact h.clearSticky.respond _ _ _
  | rdReg idx =>
    rcases execRdReg_cases he with ⟨v, rfl⟩ | rfl
    · exact h.respond _ _ _
    · exact h.raise _ _

/-! ### The host and the step -/

/-- The reset state with another arena of literals and other histories. -/
theorem State.inv_reset_of_literals {m : Memory} (hwf : m.wf = true)
    (hlit : ∀ c, c < Config.literalLimit → m.read c = some (literalNode c))
    (outw outd : List Byte) (resp : List RespWord) (host : List HostAction) :
    ({ State.reset with nodes := m, outw := outw, outd := outd, resp := resp,
                        host := host } : State).Inv :=
  { resetMeetsInvariant with
    literals := hlit
    dynamics := fun _ hlo hhi => absurd hhi (BitVec.not_lt.2 hlo)
    arena := hwf }

/-- RST resets every register, so only the arena's canonical form is needed of s (R230). -/
theorem State.Inv.applyReset {s : State} (h : s.Inv) : s.applyReset.Inv := by
  simp only [State.applyReset, State.trieReset]
  exact State.inv_reset_of_literals (Memory.wf_restoreLiterals h.arena)
    (Memory.read_restoreLiterals_literal h.arena) _ _ _ _

theorem hostStep_inv {s t : State} (h : s.Inv) (he : hostStep s = .next t) : t.Inv := by
  rcases hostStep_cases he with ⟨inq, inEnd, cmd, host, rfl⟩ | ⟨host, rfl⟩
  · exact h.hostPorts inq inEnd cmd host
  · exact (h.hostPorts s.inq s.inEnd s.cmd host).applyReset

/-- Settles O54: a step is the host's, an ILLEGAL response or a command, and each keeps the
invariant. -/
theorem stepKeepsInvariant : Obligations.StepKeepsInvariant := by
  intro s t h he
  rcases step_cases he with hhost | rfl | ⟨i, hi, hexec⟩
  · exact hostStep_inv h hhost
  · exact h.raise _ _
  · exact exec_inv h (fun e => absurd e hi) hexec

end Sys2Proof.Machine

/-! PROOFS. The state file 10_state.md, fourth part: R55 (d), (e), (f) as the rule words them are broken
by a dictionary reset (O55) and by nothing else (O57). -/

namespace Sys2Proof.Machine

/-! ### DEC_START after a compression -/

/-- After a compression that ended at the dynamic code 0x100, with a DEC_START on CMD. -/
def compressedState : State :=
  { State.reset with encCur := 0x100#14, cmd := some 0x20000000#32 }.filled 1

theorem compressedState_inv : compressedState.Inv :=
  State.filled_inv _ (by decide) (by decide)

theorem compressedState_asWorded : compressedState.SessionInvAsWorded :=
  ⟨fun _ => rfl, .inr (by decide), .inl rfl⟩

/-- DEC_START resets the dictionary and leaves ENC_CUR (43_decoder.md R170). -/
theorem step_compressedState : ∃ t, step compressedState = .next t ∧
    t.encCur = 0x100#14 ∧ t.nextFree = 0x100#14 := by
  have hrun : step compressedState = execDecStart compressedState :=
    step_of_decode rfl (show decode (.command 0x20000000#32) = .ok .decStart from rfl)
  exact ⟨_, hrun, rfl, rfl⟩

/-- Refutes O55: DEC_START after a compression leaves ENC_CUR at a code that is no longer defined. -/
theorem not_sessionInvAsWordedIsKept : ¬ Obligations.SessionInvAsWordedIsKept := by
  intro h
  obtain ⟨t, hstep, hcur, hfree⟩ := step_compressedState
  obtain ⟨_, hknown, _⟩ := h _ t compressedState_inv compressedState_asWorded hstep
  rw [hcur, hfree] at hknown
  exact absurd hknown (by decide)

/-! ### What is written to the sessions' registers -/

/-- From s to t, ENC_SAT, ENC_CUR and DEC_PREV are each kept or written with a value that R55 (d), (e),
(f) allow in t. -/
def SessionWrites (s t : State) : Prop :=
  (t.encSat = s.encSat ∨ t.encSat = 0#10 ∨ ¬ t.nextFree < Config.resetCode) ∧
    (t.encCur = s.encCur ∨ t.Known t.encCur) ∧ (t.decPrev = s.decPrev ∨ t.Known t.decPrev)

/-- What was allowed stays allowed while NEXT_FREE is not lowered. -/
theorem SessionWrites.asWorded {s t : State} (h : SessionWrites s t) (hs : s.SessionInvAsWorded)
    (hle : s.nextFree ≤ t.nextFree) : t.SessionInvAsWorded := by
  obtain ⟨hsat, hcur, hprev⟩ := hs
  refine ⟨fun hfree => ?_, ?_, ?_⟩
  · rcases h.1 with e | e | hfull
    · exact e.trans (hsat (BitVec.lt_def.2 (Nat.lt_of_le_of_lt hle hfree)))
    · exact e
    · exact absurd hfree hfull
  · rcases h.2.1 with e | hknown
    · exact e ▸ State.Known.mono hcur hle
    · exact hknown
  · rcases h.2.2 with e | hknown
    · exact e ▸ State.Known.mono hprev hle
    · exact hknown

/-- A literal or DICT word writes DEC_PREV with a code that is known afterwards. -/
theorem execCode_sessionWrites {w : Code} {s t : State} (hnf : s.NextFreeInv)
    (h : execCode w s = .next t) : SessionWrites s t := by
  rcases execCode_cases h with rfl | ⟨hw, x, u, out, k, v, hl, rfl⟩
  · exact ⟨.inl rfl, .inl rfl, .inl rfl⟩
  · have hknown := State.known_of_learn hnf hw hl
    obtain ⟨m, nf, rfl⟩ := State.learn_frame hl
    exact ⟨.inl rfl, .inl rfl, .inr hknown⟩

theorem execStreamWord_sessionWrites {w : Code} {s t : State} (hnf : s.NextFreeInv)
    (h : execStreamWord w s = .next t) : SessionWrites s t := by
  unfold execStreamWord at h
  split at h
  · exact execCode_sessionWrites hnf h
  · cases h
    exact ⟨.inl rfl, .inl rfl, .inr (.inl rfl)⟩
  · cases h
    exact ⟨.inl rfl, .inl rfl, .inl rfl⟩
  · exact execCode_sessionWrites hnf h

theorem execDecStep_sessionWrites {s t : State} (hnf : s.NextFreeInv)
    (h : execDecStep s = .next t) : SessionWrites s t := by
  rcases execDecStep_frame h with ⟨_, rfl⟩ | ⟨_, ⟨_, rfl⟩ | ⟨_, _, rfl⟩ | ⟨_, _, hword⟩⟩
  · exact ⟨.inl rfl, .inl rfl, .inl rfl⟩
  · exact ⟨.inl rfl, .inl rfl, .inl rfl⟩
  · exact ⟨.inl rfl, .inl rfl, .inl rfl⟩
  · have hnf' : s.wordTaken.NextFreeInv := hnf
    obtain ⟨hsat, hcur, hprev⟩ := execStreamWord_sessionWrites hnf' hword
    exact ⟨hsat, hcur, hprev⟩

/-- ENC_BYTE moves ENC_CUR to a child, and counts exhausted misses only. -/
theorem execEncByte_sessionWrites {b : Byte} {s t : State} (h : execEncByte b s = .next t) :
    SessionWrites s t := by
  rcases execEncByte_cases h with rfl | ⟨_, u, p, c, v, hu, hc, rfl⟩
  · exact ⟨.inl rfl, .inl rfl, .inl rfl⟩
  have hknown : u.Known c := .inr (State.child_lt hc)
  rcases hu with rfl | hr | ⟨hfull, rfl⟩
  · exact ⟨.inl rfl, .inr hknown, .inl rfl⟩
  · obtain ⟨m, nf, rfl⟩ := State.register_frame hr
    exact ⟨.inl rfl, .inr hknown, .inl rfl⟩
  · rcases (s.packWord s.encCur).saturate_cases with ⟨_, e⟩ | e
    · rw [e] at hknown ⊢
      exact ⟨.inr (.inr hfull), .inr hknown, .inl rfl⟩
    · rw [e] at hknown ⊢
      exact ⟨.inr (.inl rfl), .inr (hknown.mono (BitVec.le_refl Config.firstDyn)), .inl rfl⟩

theorem exec_sessionWrites {i : Instr} {s t : State} (hnf : s.NextFreeInv)
    (h : exec i s = .next t) : SessionWrites s t := by
  cases i with
  | lit b => exact execCode_sessionWrites hnf h
  | dict c => exact execCode_sessionWrites hnf h
  | decStep => exact execDecStep_sessionWrites hnf h
  | encByte b => exact execEncByte_sessionWrites h
  | encStart =>
    cases h
    exact ⟨.inr (.inl rfl), .inr (.inl rfl), .inl rfl⟩
  | decStart | reset =>
    cases h
    exact ⟨.inl rfl, .inl rfl, .inr (.inl rfl)⟩
  | nop | clrErr | eos =>
    cases h
    exact ⟨.inl rfl, .inl rfl, .inl rfl⟩
  | pkInit =>
    rcases execPkInit_cases h with rfl | rfl <;> exact ⟨.inl rfl, .inl rfl, .inl rfl⟩
  | pkWrite w =>
    rcases execPkWrite_cases h with ⟨_, rfl⟩ | ⟨_, rfl⟩ <;> exact ⟨.inl rfl, .inl rfl, .inl rfl⟩
  | pkClose =>
    rcases execPkClose_cases h with ⟨_, rfl⟩ | ⟨_, _, rfl⟩ <;>
      exact ⟨.inl rfl, .inl rfl, .inl rfl⟩
  | upInit =>
    rcases execUpInit_cases h with rfl | rfl <;> exact ⟨.inl rfl, .inl rfl, .inl rfl⟩
  | upRead =>
    rcases execUpRead_cases h with rfl | rfl | ⟨_, rfl⟩ | ⟨_, _, _, rfl⟩ <;>
      exact ⟨.inl rfl, .inl rfl, .inl rfl⟩
  | encClose =>
    rcases execEncClose_cases h with rfl | rfl <;> exact ⟨.inl rfl, .inl rfl, .inl rfl⟩
  | rdReg idx =>
    rcases execRdReg_cases h with ⟨_, rfl⟩ | rfl <;> exact ⟨.inl rfl, .inl rfl, .inl rfl⟩

theorem hostStep_sessionWrites {s t : State} (h : hostStep s = .next t) : SessionWrites s t := by
  rcases hostStep_cases h with ⟨_, _, _, _, rfl⟩ | ⟨_, rfl⟩
  · exact ⟨.inl rfl, .inl rfl, .inl rfl⟩
  · exact ⟨.inr (.inl rfl), .inr (.inl rfl), .inr (.inl rfl)⟩

/-- Settles O57. -/
theorem sessionInvAsWordedKeptWithinEpoch : Obligations.SessionInvAsWordedKeptWithinEpoch := by
  intro s t h hs hstep hle
  have hwrites : SessionWrites s t := by
    rcases step_cases hstep with hhost | rfl | ⟨i, _, hexec⟩
    · exact hostStep_sessionWrites hhost
    · exact ⟨.inl rfl, .inl rfl, .inl rfl⟩
    · exact exec_sessionWrites h.nextFree hexec
  exact hwrites.asWorded hs hle

end Sys2Proof.Machine

/-! PROOFS. The state file 10_state.md, fifth part: the content of stale arena slots is never observable
(O60). One lemma per operation on the state says that it keeps State.SameButStale; a meaning that
branches on what both states share, or reads defined nodes only, then takes the same step from both. -/

namespace Sys2Proof.Machine

/-! ### States that are the same but for stale slots -/

/-- s with another arena. -/
def State.withNodes (s : State) (m : Memory) : State := { s with nodes := m }

/-- Two registrations both fail, or leave states that are the same but for stale slots. -/
def SameRegistration (x y : Option State) : Prop :=
  (x = none ∧ y = none) ∨ ∃ s t, x = some s ∧ y = some t ∧ s.SameButStale t

section SameButStale

variable {s t : State}

/-- Two such states differ in their arenas only. -/
theorem State.SameButStale.eq_withNodes (h : s.SameButStale t) : t = s.withNodes t.nodes :=
  (congrArg (State.withNodes · t.nodes) h.1).symm

theorem State.SameButStale.nodeRead (h : s.SameButStale t) (c : Code) :
    s.nodeRead c = t.nodeRead c := h.2.2.2.2 c

/-- What does not depend on the arena is the same in both. -/
theorem State.SameButStale.observe {α : Type} (h : s.SameButStale t) (f : State → α)
    (hf : ∀ u m, f (State.withNodes u m) = f u) : f s = f t :=
  (hf s t.nodes).symm.trans (congrArg f h.eq_withNodes.symm)

theorem State.SameButStale.nextFree (h : s.SameButStale t) : s.nextFree = t.nextFree :=
  h.observe State.nextFree fun _ _ => rfl

theorem State.SameButStale.child (h : s.SameButStale t) (p : Code) (b : Byte) :
    s.child p b = t.child p b := State.child_congr h.nextFree h.nodeRead p b

theorem State.SameButStale.phrase (h : s.SameButStale t) (c : Code) : s.phrase c = t.phrase c :=
  State.phrase_congr h.nodeRead c

theorem State.sameButStale_withNodes {m : Memory} (hs : s.nodes.wf = true) (hm : m.wf = true)
    (hnf : s.NextFreeInv) (hread : ∀ c, s.nodeRead c = (s.withNodes m).nodeRead c) :
    s.SameButStale (s.withNodes m) :=
  ⟨rfl, hs, hm, hnf, hread⟩

/-- An update that neither reads nor writes the dictionary makes no difference. -/
theorem State.SameButStale.update (h : s.SameButStale t) (f : State → State)
    (hnodes : ∀ u m, f (u.withNodes m) = (f u).withNodes m)
    (hfree : ∀ u, (f u).nextFree = u.nextFree) : (f s).SameButStale (f t) := by
  have hkept : (f s).nodes = s.nodes :=
    (congrArg State.nodes (hnodes s s.nodes) : _ = ((f s).withNodes s.nodes).nodes)
  have heq := h.eq_withNodes
  have hmoved : ∀ c, ((f s).withNodes t.nodes).nodeRead c = (s.withNodes t.nodes).nodeRead c :=
    State.nodeRead_congr rfl (hfree s)
  obtain ⟨_, hs, ht, hnf, hread⟩ := h
  rw [heq, hnodes]
  refine State.sameButStale_withNodes (hkept ▸ hs) ht ?_ fun c => ?_
  · rwa [State.NextFreeInv, hfree]
  · calc (f s).nodeRead c = s.nodeRead c := State.nodeRead_congr hkept (hfree s) c
      _ = t.nodeRead c := hread c
      _ = (s.withNodes t.nodes).nodeRead c := congrArg (State.nodeRead · c) heq
      _ = ((f s).withNodes t.nodes).nodeRead c := (hmoved c).symm

theorem State.SameButStale.respond (h : s.SameButStale t) (e k : BitVec 4) (v : BitVec 16) :
    (s.respond e k v).SameButStale (t.respond e k v) :=
  h.update (·.respond e k v) (fun _ _ => rfl) fun _ => rfl

/-- TrieReset gives the same dictionary, and the dynamic slots are stale afterwards
(41_trie.md R131). -/
theorem State.SameButStale.trieReset (h : s.SameButStale t) :
    s.trieReset.SameButStale t.trieReset := by
  rw [h.eq_withNodes]
  have hs := h.2.1
  have ht : (s.withNodes t.nodes).nodes.wf = true := h.2.2.1
  refine ⟨rfl, ?_, ?_, ?_, fun c => ?_⟩
  · rw [State.trieReset_nodes]
    exact Memory.wf_restoreLiterals hs
  · rw [State.trieReset_nodes]
    exact Memory.wf_restoreLiterals ht
  · exact ⟨Nat.le_refl 0x100, show 0x100 ≤ 0x3FFE by decide⟩
  · rw [State.nodeRead_trieReset hs, State.nodeRead_trieReset ht]

/-- A node written at NEXT_FREE makes the same code defined in both. -/
theorem State.SameButStale.writeNode (h : s.SameButStale t) (hfree : s.nextFree < Config.resetCode)
    (nd : Node) :
    ({ s with nodes := s.nodes.write s.nextFree.toNat nd,
              nextFree := s.nextFree + 1#Config.wordBits } : State).SameButStale
      { t with nodes := t.nodes.write t.nextFree.toNat nd,
               nextFree := t.nextFree + 1#Config.wordBits } := by
  have heq := h.eq_withNodes
  have hft := h.nextFree
  obtain ⟨_, hs, ht, hnf, hread⟩ := h
  have hlt : s.nextFree.toNat < 0x3FFE := hfree
  have hlo : 0x100 ≤ s.nextFree.toNat := hnf.1
  have hsucc := nextFree_succ_toNat hfree
  refine ⟨?_, Memory.wf_write hs hfree nd, Memory.wf_write ht (hft ▸ hfree) nd, ⟨?_, ?_⟩,
    fun c => ?_⟩
  · rw [← hft, heq]
    rfl
  · show 0x100 ≤ (s.nextFree + 1#Config.wordBits).toNat
    rw [hsucc]
    omega
  · show (s.nextFree + 1#Config.wordBits).toNat ≤ 0x3FFE
    rw [hsucc]
    omega
  · rw [State.nodeRead_written hs hfree, State.nodeRead_written ht (hft ▸ hfree), hft, hread]

/-- A registration succeeds in both states or in neither, and leaves the same (41_trie.md R133). -/
theorem State.SameButStale.register (h : s.SameButStale t) (p : Code) (b : Byte) :
    SameRegistration (s.register p b) (t.register p b) := by
  by_cases hpre : s.nextFree < Config.resetCode ∧ p ≠ Config.rootCode
  case neg =>
    rw [State.register, if_neg hpre, State.register, if_neg (h.nextFree ▸ hpre)]
    exact .inl ⟨rfl, rfl⟩
  have hpre' : t.nextFree < Config.resetCode ∧ p ≠ Config.rootCode := h.nextFree ▸ hpre
  have hread := h.nodeRead p
  cases hn : s.nodeRead p with
  | none =>
    rw [hn] at hread
    rw [State.register, if_pos hpre, hn, State.register, if_pos hpre', ← hread]
    exact .inl ⟨rfl, rfl⟩
  | some n =>
    rw [hn] at hread
    exact .inr ⟨_, _, State.register_of hpre.1 hpre.2 hn,
      State.register_of hpre'.1 hpre'.2 hread.symm, h.writeNode hpre.1 _⟩

/-- ExecCode's registration, the same way (43_decoder.md R174). -/
theorem State.SameButStale.learn (h : s.SameButStale t) (x : Byte) :
    SameRegistration (s.learn x) (t.learn x) := by
  have hprev : s.decPrev = t.decPrev := h.observe State.decPrev fun _ _ => rfl
  unfold State.learn
  rw [← hprev, ← h.nextFree]
  split
  · exact h.register _ _
  · exact .inr ⟨s, t, rfl, rfl, h⟩

/-- Saturate emits the same words and leaves the same (42_encoder.md R153). -/
theorem State.SameButStale.saturate (h : s.SameButStale t) :
    s.saturate.1 = t.saturate.1 ∧ s.saturate.2.SameButStale t.saturate.2 := by
  have hsat : s.encSat = t.encSat := h.observe State.encSat fun _ _ => rfl
  have hcount := h.update (fun u => { u with encSat := u.encSat + 1#10 }) (fun _ _ => rfl)
    fun _ => rfl
  have hemit := hcount.update (·.packWord Config.resetCode) (fun _ _ => rfl) fun _ => rfl
  by_cases hover : Config.satLimit < s.encSat + 1#10
  · rw [State.saturate, if_pos hover, State.saturate, if_pos (hsat ▸ hover)]
    exact ⟨rfl, hemit.trieReset.update (fun u => { u with encSat := 0#10 }) (fun _ _ => rfl)
      fun _ => rfl⟩
  · rw [State.saturate, if_neg hover, State.saturate, if_neg (hsat ▸ hover)]
    exact ⟨rfl, hcount⟩

end SameButStale

/-! ### Outcomes that are the same but for stale slots -/

/-- Two outcomes are next states that are the same but for stale slots, or the same fault. -/
def SameOutcome (r r' : Result) : Prop :=
  (∃ s t, r = .next s ∧ r' = .next t ∧ s.SameButStale t) ∨ ∃ f, r = .fault f ∧ r' = .fault f

theorem SameOutcome.next {s t : State} (h : s.SameButStale t) :
    SameOutcome (.next s) (.next t) := .inl ⟨s, t, rfl, rfl, h⟩

theorem SameOutcome.fault (f : Fault) : SameOutcome (.fault f) (.fault f) := .inr ⟨f, rfl, rfl⟩

/-- A meaning that cannot tell stale slots. -/
def StaleBlind (f : State → Result) : Prop :=
  ∀ s t, s.SameButStale t → SameOutcome (f s) (f t)

/-- A completion that neither reads nor writes the dictionary. -/
theorem StaleBlind.next {f : State → State}
    (hnodes : ∀ u m, f (u.withNodes m) = (f u).withNodes m)
    (hfree : ∀ u, (f u).nextFree = u.nextFree) : StaleBlind fun s => .next (f s) :=
  fun _ _ h => .next (h.update f hnodes hfree)

/-- A branch on a condition that does not speak of the arena. -/
theorem StaleBlind.ite {c : State → Prop} {dec : ∀ s, Decidable (c s)} {f g : State → Result}
    (hc : ∀ s m, c (s.withNodes m) = c s) (hf : StaleBlind f) (hg : StaleBlind g) :
    StaleBlind fun s => if c s then f s else g s := by
  intro s t h
  have hct : c t = c s := (h.observe c hc).symm
  by_cases hcs : c s
  · simpa only [hct, hcs, if_true] using hf s t h
  · simpa only [hct, hcs, if_false] using hg s t h

/-! ### The meanings -/

theorem execNop_staleBlind : StaleBlind execNop := .next (fun _ _ => rfl) fun _ => rfl

theorem execClrErr_staleBlind : StaleBlind execClrErr := .next (fun _ _ => rfl) fun _ => rfl

theorem execEos_staleBlind : StaleBlind execEos := .next (fun _ _ => rfl) fun _ => rfl

theorem raise_staleBlind (e : Err) : StaleBlind fun s => .next (s.raise e 0#16) :=
  .next (fun _ _ => rfl) fun _ => rfl

theorem execPkInit_staleBlind : StaleBlind execPkInit :=
  .ite (fun _ _ => rfl) (raise_staleBlind _) (.next (fun _ _ => rfl) fun _ => rfl)

theorem execPkWrite_staleBlind (w : Code) : StaleBlind (execPkWrite w) :=
  .ite (fun _ _ => rfl) (raise_staleBlind _) <|
    .ite (fun _ _ => rfl) (raise_staleBlind _) (.next (fun _ _ => rfl) fun _ => rfl)

theorem execPkClose_staleBlind : StaleBlind execPkClose :=
  .ite (fun _ _ => rfl) (raise_staleBlind _) <|
    .ite (fun _ _ => rfl) (raise_staleBlind _) (.next (fun _ _ => rfl) fun _ => rfl)

theorem execUpInit_staleBlind : StaleBlind execUpInit :=
  .ite (fun _ _ => rfl) (raise_staleBlind _) (.next (fun _ _ => rfl) fun _ => rfl)

theorem execUpRead_staleBlind : StaleBlind execUpRead :=
  .ite (fun _ _ => rfl) (raise_staleBlind _) <|
    .ite (fun _ _ => rfl) (.next (fun _ _ => rfl) fun _ => rfl) <|
      .ite (fun _ _ => rfl) (.next (fun _ _ => rfl) fun _ => rfl)
        (.next (fun _ _ => rfl) fun _ => rfl)

theorem execEncClose_staleBlind : StaleBlind execEncClose :=
  .ite (fun _ _ => rfl) (raise_staleBlind _) (.next (fun _ _ => rfl) fun _ => rfl)

theorem execRdReg_staleBlind (idx : Code) : StaleBlind (execRdReg idx) := by
  intro s t h
  have hread : s.readRegister idx = t.readRegister idx :=
    h.observe (·.readRegister idx) fun _ _ => rfl
  unfold execRdReg
  rw [← hread]
  cases s.readRegister idx with
  | none => exact raise_staleBlind .illegal s t h
  | some v => exact .next (h.respond _ _ _)

theorem execEncStart_staleBlind : StaleBlind execEncStart := fun _ _ h =>
  .next (h.trieReset.update
    (fun u => { u.packFresh with encCur := Config.rootCode, encSat := 0#10,
                                 mode := .enc }.respond 0#4 0#4 0#16)
    (fun _ _ => rfl) fun _ => rfl)

theorem encMoveToRootChild_staleBlind (b : Byte) (k : Nat) :
    StaleBlind (encMoveToRootChild b k) := by
  intro s t h
  unfold encMoveToRootChild
  rw [← h.child]
  cases s.child Config.rootCode b with
  | none => exact .fault _
  | some c =>
    exact .next (h.update (fun u => { u with encCur := c }.respond 0#4 0#4 (BitVec.ofNat 16 k))
      (fun _ _ => rfl) fun _ => rfl)

theorem encMiss_staleBlind (b : Byte) : StaleBlind (encMiss b) := by
  refine .ite (fun _ _ => rfl) (fun s t h => ?_) fun s t h => ?_
  all_goals have hpack := h.update (fun u => u.packWord u.encCur) (fun _ _ => rfl) fun _ => rfl
  · have hcur : s.encCur = t.encCur := h.observe State.encCur fun _ _ => rfl
    have hreg := hpack.register s.encCur b
    simp only [State.packWord_encCur, hcur] at hreg ⊢
    rcases hreg with ⟨hs, ht⟩ | ⟨u, v, hs, ht, huv⟩ <;> rw [hs, ht]
    · exact .fault _
    · exact encMoveToRootChild_staleBlind b 1 u v huv
  · obtain ⟨hwords, hsat⟩ := hpack.saturate
    rw [hwords]
    exact encMoveToRootChild_staleBlind b _ _ _ hsat

theorem execEncByte_staleBlind (b : Byte) : StaleBlind (execEncByte b) := by
  refine .ite (fun _ _ => rfl) (raise_staleBlind _) fun s t h => ?_
  have hcur : s.encCur = t.encCur := h.observe State.encCur fun _ _ => rfl
  rw [← hcur, ← h.child]
  cases s.child s.encCur b with
  | none => exact encMiss_staleBlind b s t h
  | some c =>
    exact .next (h.update (fun u => { u with encCur := c }.respond 0#4 0#4 0#16)
      (fun _ _ => rfl) fun _ => rfl)

theorem emitPhrase_staleBlind (w : Code) (ph : Option (List Byte)) :
    StaleBlind (emitPhrase w ph) := by
  intro s t h
  match ph with
  | none => exact .fault _
  | some [] => exact .fault _
  | some (x :: rest) =>
    rcases h.learn x with ⟨hs, ht⟩ | ⟨u, v, hs, ht, huv⟩ <;> simp only [emitPhrase, hs, ht]
    · exact .fault _
    · have hout := huv.update (fun u => { u.outD (x :: rest) with decPrev := w })
        (fun _ _ => rfl) fun _ => rfl
      exact .next (hout.respond _ _ _)

theorem State.SameButStale.selfPhrase {s t : State} (h : s.SameButStale t) :
    s.selfPhrase = t.selfPhrase := by
  have hprev : s.decPrev = t.decPrev := h.observe State.decPrev fun _ _ => rfl
  unfold State.selfPhrase
  rw [hprev, h.phrase]

theorem execCode_staleBlind (w : Code) : StaleBlind (execCode w) := by
  refine .ite (fun _ _ => rfl) (fun s t h => ?_) <|
    .ite (fun _ _ => rfl) (fun s t h => ?_) (.next (fun _ _ => rfl) fun _ => rfl)
  · rw [h.phrase]
    exact emitPhrase_staleBlind w _ s t h
  · rw [h.selfPhrase]
    exact emitPhrase_staleBlind w _ s t h

theorem execReset_staleBlind : StaleBlind execReset := fun _ _ h =>
  .next (h.trieReset.update
    (fun u => { u with decPrev := Config.rootCode }.respond 0#4 (kindOf .reset) 0#16)
    (fun _ _ => rfl) fun _ => rfl)

theorem execStreamWord_staleBlind (w : Code) : StaleBlind (execStreamWord w) := by
  unfold execStreamWord
  cases classify w with
  | lit => exact execCode_staleBlind _
  | reset => exact execReset_staleBlind
  | eos => exact execEos_staleBlind
  | dict => exact execCode_staleBlind w

theorem execDecStart_staleBlind : StaleBlind execDecStart := fun _ _ h =>
  .next (h.trieReset.update
    (fun u => { u.unpackFresh with decPrev := Config.rootCode,
                                   mode := .dec }.respond 0#4 0#4 0#16)
    (fun _ _ => rfl) fun _ => rfl)

theorem execDecStep_staleBlind : StaleBlind execDecStep := by
  refine .ite (fun _ _ => rfl) (raise_staleBlind _) <|
    .ite (fun _ _ => rfl) (.next (fun _ _ => rfl) fun _ => rfl) <|
      .ite (fun _ _ => rfl) (.next (fun _ _ => rfl) fun _ => rfl) fun s t h => ?_
  have hword : s.nextWord = t.nextWord := h.observe State.nextWord fun _ _ => rfl
  rw [hword]
  exact execStreamWord_staleBlind _ _ _ (h.update State.wordTaken (fun _ _ => rfl) fun _ => rfl)

/-- No instruction can tell stale slots. -/
theorem exec_staleBlind (i : Instr) : StaleBlind (exec i) := by
  cases i with
  | lit b => exact execCode_staleBlind _
  | reset => exact execReset_staleBlind
  | eos => exact execEos_staleBlind
  | dict c => exact execCode_staleBlind c
  | nop => exact execNop_staleBlind
  | pkInit => exact execPkInit_staleBlind
  | pkWrite w => exact execPkWrite_staleBlind w
  | pkClose => exact execPkClose_staleBlind
  | upInit => exact execUpInit_staleBlind
  | upRead => exact execUpRead_staleBlind
  | encStart => exact execEncStart_staleBlind
  | encByte b => exact execEncByte_staleBlind b
  | encClose => exact execEncClose_staleBlind
  | decStart => exact execDecStart_staleBlind
  | decStep => exact execDecStep_staleBlind
  | rdReg idx => exact execRdReg_staleBlind idx
  | clrErr => exact execClrErr_staleBlind

/-! ### The host and the step -/

/-- RST keeps what was delivered and the arena that TrieReset leaves (R230). -/
theorem State.SameButStale.applyReset {s t : State} (h : s.SameButStale t) :
    s.applyReset.SameButStale t.applyReset :=
  h.trieReset.update
    (fun u => { State.reset with nodes := u.nodes, nextFree := u.nextFree, outw := u.outw,
                                 outd := u.outd, resp := u.resp, host := u.host })
    (fun _ _ => rfl) fun _ => rfl

theorem State.pushIn_withNodes (b : Byte) (s : State) (m : Memory) :
    (s.withNodes m).pushIn b = (s.pushIn b).withNodes m := by
  unfold State.pushIn
  exact (apply_ite (State.withNodes · m) _ s { s with inq := s.inq ++ [b] }).symm

theorem State.pushIn_nextFree (b : Byte) (s : State) : (s.pushIn b).nextFree = s.nextFree := by
  unfold State.pushIn
  split <;> rfl

theorem hostAction_staleBlind (a : HostAction) : StaleBlind (hostAction a) := by
  intro s t h
  cases a with
  | cmd w =>
    have hcmd : s.cmd = t.cmd := h.observe State.cmd fun _ _ => rfl
    simp only [hostAction, ← hcmd]
    cases s.cmd with
    | none =>
      exact .next (h.update (fun u => { u with cmd := some w }) (fun _ _ => rfl) fun _ => rfl)
    | some _ => exact .fault _
  | inPush b =>
    exact .next (h.update (·.pushIn b) (State.pushIn_withNodes b) (State.pushIn_nextFree b))
  | inFinish =>
    exact .next (h.update (fun u => { u with inEnd := true }) (fun _ _ => rfl) fun _ => rfl)
  | inClear =>
    exact .next (h.update (fun u => { u with inq := [], inEnd := false }) (fun _ _ => rfl)
      fun _ => rfl)
  | takeOutput => exact .next h
  | rst => exact .next h.applyReset

theorem hostStep_staleBlind : StaleBlind hostStep := by
  intro s t h
  have hhost : s.host = t.host := h.observe State.host fun _ _ => rfl
  unfold hostStep
  rw [← hhost]
  cases s.host with
  | nil => exact .next h
  | cons a rest =>
    exact hostAction_staleBlind a _ _
      (h.update (fun u => { u with host := rest }) (fun _ _ => rfl) fun _ => rfl)

theorem runCommand_staleBlind (w : CmdWord) : StaleBlind (runCommand w) := by
  unfold runCommand
  cases decodeCommand w with
  | ok i => exact exec_staleBlind i
  | error _ => exact raise_staleBlind .illegal

/-- Holding depends on MODE and IN only (20_memory.md R65). -/
theorem wordHolds_withNodes (w : CmdWord) (s : State) (m : Memory) :
    (wordHolds w (s.withNodes m) = true) = (wordHolds w s = true) := by
  unfold wordHolds
  cases decodeCommand w with
  | ok i => cases i <;> rfl
  | error _ => rfl

theorem step_staleBlind : StaleBlind step := by
  intro s t h
  have hcmd : s.cmd = t.cmd := h.observe State.cmd fun _ _ => rfl
  unfold step
  rw [← hcmd]
  cases s.cmd with
  | none => exact hostStep_staleBlind s t h
  | some w =>
    have hblind : StaleBlind fun u => if wordHolds w u = true then hostStep u else runCommand w u :=
      .ite (wordHolds_withNodes w) hostStep_staleBlind (runCommand_staleBlind w)
    exact hblind s t h

/-- Settles O60. -/
theorem staleSlotsUnobservable : Obligations.StaleSlotsUnobservable := step_staleBlind

end Sys2Proof.Machine

/-! PROOFS. The streams of 20_memory.md: who writes IN, OUTW and OUTD (O52), a command that waits for
IN (O10), the host's actions on IN (O11), and the layout of a packed stream (O22). -/

namespace Sys2Proof.Machine

/-! ### Waiting for IN (20_memory.md R65) -/

theorem State.wordHeld_of_short {s : State} (hshort : ¬ s.wordReady) (hend : s.inEnd = false) :
    s.wordHeld = true := by
  simp [State.wordHeld, s.inShort_iff.2 hshort, hend]

/-- With no action of the host left, a held command keeps waiting (93_implementation_defined.md I12). -/
theorem step_of_hung {s : State} {w : CmdWord} {i : Instr} (hw : s.cmd = some w)
    (hd : decode (.command w) = .ok i) (hhold : holds i s = true) (hhost : s.host = []) :
    step s = .next s := by
  rw [step_of_decode hw hd, if_pos hhold, hostStep, hhost]

/-- Settles O10: both instructions hold, which is the one reason for all four clauses. -/
theorem heldCommandWaits : Obligations.HeldCommandWaits := by
  intro s hshort hend
  have hheld := State.wordHeld_of_short hshort hend
  have hread (hmode : s.mode ≠ .dec) : holds .upRead s = true := by
    simp [holds, State.unpackerOwned, hmode, hheld]
  have hstep (hmode : s.mode = .dec) : holds .decStep s = true := by
    simp [holds, hmode, hheld]
  exact ⟨fun hmode => exec_of_holds (hread hmode), fun hmode => exec_of_holds (hstep hmode),
    fun hmode hcmd => step_of_hung hcmd (by decide) (hread hmode),
    fun hmode hcmd => step_of_hung hcmd (by decide) (hstep hmode)⟩

/-! ### The host's actions (70_reset_and_hazards.md R236) -/

/-- While no command runs, the step is the first action of the host's list. -/
theorem step_of_hostAction {s : State} {a : HostAction} {rest : List HostAction}
    (hidle : s.cmd = none ∨ ∃ w, s.cmd = some w ∧ wordHolds w s = true)
    (hhost : s.host = a :: rest) : step s = hostAction a { s with host := rest } := by
  rw [step_host hidle, hostStep, hhost]

theorem State.pushIn_open {s : State} (hend : s.inEnd = false) (b : Byte) :
    s.pushIn b = { s with inq := s.inq ++ [b] } := by
  simp [State.pushIn, hend]

theorem State.pushIn_finished {s : State} (hend : s.inEnd = true) (b : Byte) : s.pushIn b = s := by
  simp [State.pushIn, hend]

/-- Settles O11. -/
theorem hostActsOnInput : Obligations.HostActsOnInput := by
  intro s rest hidle
  refine ⟨fun b hhost hend => ?_, fun b hhost hend => ?_, step_of_hostAction hidle,
    step_of_hostAction hidle, step_of_hostAction hidle⟩
  · rw [step_of_hostAction hidle hhost, hostAction,
      State.pushIn_open (s := { s with host := rest }) hend]
  · rw [step_of_hostAction hidle hhost, hostAction,
      State.pushIn_finished (s := { s with host := rest }) hend]

/-! ### Who writes the streams (20_memory.md R63, R64) -/

/-- The unpacker's loop only pops bytes from the front of IN (40_packer.md R114). -/
theorem takeBits_suffix (need v : Nat) (buf : Byte) (avail : Nat) (inq : List Byte) :
    (takeBits need v buf avail inq).2.2.2 <:+ inq := by
  induction inq generalizing need v buf avail with
  | nil => exact List.suffix_rfl
  | cons b inq ih =>
    simp only [takeBits]
    split
    · exact List.suffix_rfl
    · exact (ih ..).trans (List.suffix_cons b inq)

theorem State.wordTaken_inq_suffix (s : State) : s.wordTaken.inq <:+ s.inq := takeBits_suffix ..

theorem State.wordTruncated_inq_suffix (s : State) : s.wordTruncated.inq <:+ s.inq :=
  List.nil_suffix

/-- What O52 says of one instruction from s to t. -/
def StreamClauses (i : Instr) (s t : State) : Prop :=
  s.outw <+: t.outw ∧ s.outd <+: t.outd ∧ t.inq <:+ s.inq ∧ t.host = s.host ∧
  (t.outw ≠ s.outw →
    (∃ w, i = .pkWrite w) ∨ i = .pkClose ∨ (∃ b, i = .encByte b) ∨ i = .encClose) ∧
  (t.outd ≠ s.outd → i = .decStep ∨ (∃ b, i = .lit b) ∨ (∃ c, i = .dict c))

/-- OUTW and OUTD are those of s, and IN is s's but for bytes popped from its front. -/
def InputPopped (s t : State) : Prop :=
  t.outw = s.outw ∧ t.outd = s.outd ∧ t.inq <:+ s.inq ∧ t.host = s.host

/-- Of the streams, only OUTW may be written, and only at its end. -/
def PackerAppends (s t : State) : Prop :=
  s.outw <+: t.outw ∧ t.outd = s.outd ∧ t.inq = s.inq ∧ t.host = s.host

/-- Of the streams, OUTD may be written at its end and IN popped at its front. -/
def DecoderAppends (s t : State) : Prop :=
  t.outw = s.outw ∧ s.outd <+: t.outd ∧ t.inq <:+ s.inq ∧ t.host = s.host

theorem InputPopped.clauses {s t : State} (h : InputPopped s t) (i : Instr) :
    StreamClauses i s t := by
  obtain ⟨hw, hd, hin, hhost⟩ := h
  exact ⟨hw ▸ List.prefix_rfl, hd ▸ List.prefix_rfl, hin, hhost, absurd hw, absurd hd⟩

theorem PackerAppends.clauses {i : Instr} {s t : State} (h : PackerAppends s t)
    (hi : (∃ w, i = .pkWrite w) ∨ i = .pkClose ∨ (∃ b, i = .encByte b) ∨ i = .encClose) :
    StreamClauses i s t := by
  obtain ⟨hw, hd, hin, hhost⟩ := h
  exact ⟨hw, hd ▸ List.prefix_rfl, hin ▸ List.suffix_rfl, hhost, fun _ => hi, absurd hd⟩

theorem DecoderAppends.clauses {i : Instr} {s t : State} (h : DecoderAppends s t)
    (hi : i = .decStep ∨ (∃ b, i = .lit b) ∨ (∃ c, i = .dict c)) : StreamClauses i s t := by
  obtain ⟨hw, hd, hin, hhost⟩ := h
  exact ⟨hw ▸ List.prefix_rfl, hd, hin, hhost, absurd hw, fun _ => hi⟩

theorem inputPopped_of_same {s t : State} (hw : t.outw = s.outw) (hd : t.outd = s.outd)
    (hin : t.inq = s.inq) (hhost : t.host = s.host) : InputPopped s t :=
  ⟨hw, hd, hin ▸ List.suffix_rfl, hhost⟩

theorem execPkWrite_appends {w : Code} {s t : State} (h : execPkWrite w s = .next t) :
    PackerAppends s t := by
  rcases execPkWrite_cases h with ⟨_, rfl⟩ | ⟨_, rfl⟩
  · exact ⟨List.prefix_rfl, rfl, rfl, rfl⟩
  · exact ⟨List.prefix_append .., rfl, rfl, rfl⟩

theorem execPkClose_appends {s t : State} (h : execPkClose s = .next t) : PackerAppends s t := by
  rcases execPkClose_cases h with ⟨_, rfl⟩ | ⟨_, _, rfl⟩
  · exact ⟨List.prefix_rfl, rfl, rfl, rfl⟩
  · exact ⟨List.prefix_append .., rfl, rfl, rfl⟩

theorem execEncByte_appends {b : Byte} {s t : State} (h : execEncByte b s = .next t) :
    PackerAppends s t := by
  rcases execEncByte_frame h with ⟨_, _, _, _, _, _, _, _, _, rfl⟩ | ⟨_, rfl⟩
  · exact ⟨List.prefix_append .., rfl, rfl, rfl⟩
  · exact ⟨List.prefix_rfl, rfl, rfl, rfl⟩

/-- ENC_CLOSE appends to OUTW three times: two words and the close (42_encoder.md R154). -/
theorem execEncClose_appends {s t : State} (h : execEncClose s = .next t) : PackerAppends s t := by
  rcases execEncClose_cases h with rfl | rfl
  · exact ⟨List.prefix_rfl, rfl, rfl, rfl⟩
  · have hwords : s.outw <+: ((s.packWord s.encCur).packWord Config.eosCode).outw :=
      (List.prefix_append ..).trans (List.prefix_append ..)
    exact ⟨hwords.trans (List.prefix_append ..), rfl, rfl, rfl⟩

theorem execCode_appends {w : Code} {s t : State} (h : execCode w s = .next t) :
    DecoderAppends s t := by
  rcases execCode_frame h with ⟨_, _, _, _, _, _, _, rfl⟩ | rfl
  · exact ⟨rfl, List.prefix_append .., List.suffix_rfl, rfl⟩
  · exact ⟨rfl, List.prefix_rfl, List.suffix_rfl, rfl⟩

theorem execStreamWord_appends {w : Code} {s t : State} (h : execStreamWord w s = .next t) :
    DecoderAppends s t := by
  rcases execStreamWord_frame h with ⟨_, _, _, _, _, _, _, _, _, rfl⟩ | ⟨_, rfl⟩
  · exact ⟨rfl, List.prefix_append .., List.suffix_rfl, rfl⟩
  · exact ⟨rfl, List.prefix_rfl, List.suffix_rfl, rfl⟩

theorem execDecStep_appends {s t : State} (h : execDecStep s = .next t) : DecoderAppends s t := by
  rcases execDecStep_frame h with ⟨_, rfl⟩ | ⟨_, ⟨_, rfl⟩ | ⟨_, _, rfl⟩ | ⟨_, _, hword⟩⟩
  · exact ⟨rfl, List.prefix_rfl, List.suffix_rfl, rfl⟩
  · exact ⟨rfl, List.prefix_rfl, List.suffix_rfl, rfl⟩
  · exact ⟨rfl, List.prefix_rfl, s.wordTruncated_inq_suffix, rfl⟩
  · obtain ⟨hw, hd, hin, hhost⟩ := execStreamWord_appends hword
    exact ⟨hw, hd, hin.trans s.wordTaken_inq_suffix, hhost⟩

theorem execUpRead_pops {s t : State} (h : execUpRead s = .next t) : InputPopped s t := by
  rcases execUpRead_cases h with rfl | rfl | ⟨_, rfl⟩ | ⟨_, _, _, rfl⟩
  · exact inputPopped_of_same rfl rfl rfl rfl
  · exact inputPopped_of_same rfl rfl rfl rfl
  · exact ⟨rfl, rfl, s.wordTruncated_inq_suffix, rfl⟩
  · exact ⟨rfl, rfl, s.wordTaken_inq_suffix, rfl⟩

/-- Settles O52, one case per instruction. -/
theorem streamWriters : Obligations.StreamWriters := by
  intro i s t h
  show StreamClauses i s t
  cases i with
  | lit b => exact (execCode_appends h).clauses (.inr (.inl ⟨b, rfl⟩))
  | dict c => exact (execCode_appends h).clauses (.inr (.inr ⟨c, rfl⟩))
  | decStep => exact (execDecStep_appends h).clauses (.inl rfl)
  | pkWrite w => exact (execPkWrite_appends h).clauses (.inl ⟨w, rfl⟩)
  | pkClose => exact (execPkClose_appends h).clauses (.inr (.inl rfl))
  | encByte b => exact (execEncByte_appends h).clauses (.inr (.inr (.inl ⟨b, rfl⟩)))
  | encClose => exact (execEncClose_appends h).clauses (.inr (.inr (.inr rfl)))
  | upRead => exact (execUpRead_pops h).clauses _
  | pkInit =>
    rcases execPkInit_cases h with rfl | rfl <;>
      exact (inputPopped_of_same rfl rfl rfl rfl).clauses _
  | upInit =>
    rcases execUpInit_cases h with rfl | rfl <;>
      exact (inputPopped_of_same rfl rfl rfl rfl).clauses _
  | rdReg idx =>
    rcases execRdReg_cases h with ⟨_, rfl⟩ | rfl <;>
      exact (inputPopped_of_same rfl rfl rfl rfl).clauses _
  | reset | eos | nop | encStart | decStart | clrErr =>
    cases h
    exact (inputPopped_of_same rfl rfl rfl rfl).clauses _

/-! ### What the packer's operations do to the bit stream (40_packer.md R111, R112) -/

theorem State.packWord_pkNbits_toNat (s : State) (w : Code) :
    (s.packWord w).pkNbits.toNat = (s.pkNbits.toNat + 14) % 8 := by
  rw [State.packWord_pkNbits, BitVec.toNat_ofNat]
  exact Nat.mod_mod _ 8

theorem State.packWord_pkAcc_toNat (s : State) (w : Code) :
    (s.packWord w).pkAcc.toNat = s.packTotal w % 2 ^ ((s.pkNbits.toNat + 14) % 8) := by
  have hle : 2 ^ ((s.pkNbits.toNat + 14) % 8) ≤ 2 ^ 7 :=
    Nat.pow_le_pow_right (by decide) (by omega)
  have hlt : s.packTotal w % 2 ^ ((s.pkNbits.toNat + 14) % 8) < 2 ^ 7 :=
    (Nat.mod_lt _ (Nat.two_pow_pos _)).trans_le hle
  rw [State.packWord_pkAcc, BitVec.toNat_ofNat, Nat.mod_eq_of_lt hlt]

/-- The pending bits of the packer, first one first (40_packer.md R111; 20_memory.md R66). -/
def State.pendingOutput (s : State) : List Bool := msbBits s.pkNbits.toNat s.pkAcc.toNat

/-- PackWord splits the pending bits and the word's bits into whole bytes and new pending bits. -/
theorem State.packWord_bits (s : State) (w : Code) :
    s.pendingOutput ++ msbBits 14 w.toNat =
      streamBits (s.packedBytes w) ++ (s.packWord w).pendingOutput := by
  have hglue : msbBits (s.pkNbits.toNat + 14) (s.packTotal w) =
      s.pendingOutput ++ msbBits 14 w.toNat :=
    msbBits_glue s.pkNbits.toNat 14 s.pkAcc.toNat w.toNat w.isLt
  have hnew : (s.packWord w).pendingOutput =
      msbBits ((s.pkNbits.toNat + 14) % 8) (s.packTotal w) := by
    rw [State.pendingOutput, State.packWord_pkNbits_toNat, State.packWord_pkAcc_toNat, msbBits_mod]
  rw [← hglue, hnew]
  exact (emitBytes_bits (s.packTotal w) (s.pkNbits.toNat + 14)).symm

theorem msbBits_zero_value (n : Nat) : msbBits n 0 = List.replicate n false := by
  induction n with
  | zero => rfl
  | succ n ih => rw [msbBits, ih, Nat.zero_testBit, List.replicate_succ]

/-- PackClose writes the pending bits, fewer than eight bits of 0, and the sentinel. -/
theorem State.closeBytes_bits (s : State) :
    ∃ padded pad, s.closeBytes = padded ++ [Config.sentinel] ∧ pad < 8 ∧
      streamBits padded = s.pendingOutput ++ List.replicate pad false := by
  have hlt : s.pkNbits.toNat < 8 := s.pkNbits.isLt
  unfold State.closeBytes State.pendingOutput
  split
  next hpos =>
    have hpos : 0 < s.pkNbits.toNat := hpos
    refine ⟨[_], 8 - s.pkNbits.toNat, rfl, by omega, ?_⟩
    have hglue := msbBits_glue s.pkNbits.toNat (8 - s.pkNbits.toNat) s.pkAcc.toNat 0
      (Nat.two_pow_pos _)
    rw [Nat.add_sub_cancel' hlt.le, Nat.add_zero, msbBits_zero_value] at hglue
    rw [streamBits_cons, streamBits_nil, List.append_nil, BitVec.toNat_ofNat, msbBits_mod,
      Nat.shiftLeft_eq, hglue]
  next hzero =>
    have hzero : s.pkNbits.toNat = 0 := Nat.eq_zero_of_not_pos hzero
    exact ⟨[], 0, rfl, by decide, by rw [hzero]; rfl⟩

/-! ### The packer's commands outside a compression session (40_packer.md R110, R116, R117) -/

theorem exec_pkInit_of_mode {s : State} (hmode : s.mode ≠ .enc) :
    exec .pkInit s = .next (s.packFresh.respond 0#4 0#4 0#16) := by
  show execPkInit s = _
  simp [execPkInit, State.packerOwned, hmode]

theorem exec_pkWrite_of_open {s : State} (hmode : s.mode ≠ .enc) (hopen : s.pkClosed = false)
    (w : Code) : exec (.pkWrite w) s =
      .next ((s.packWord w).respond 0#4 0#4 (BitVec.ofNat 16 (s.packedBytes w).length)) := by
  show execPkWrite w s = _
  simp [execPkWrite, State.packerOwned, hmode, hopen]

theorem exec_pkClose_of_open {s : State} (hmode : s.mode ≠ .enc) (hopen : s.pkClosed = false) :
    exec .pkClose s =
      .next (s.packClose.respond 0#4 0#4 (BitVec.ofNat 16 s.closeBytes.length)) := by
  show execPkClose s = _
  simp [execPkClose, State.packerOwned, hmode, hopen]

/-! ### A packed stream (40_packer.md R119) -/

/-- The packer is open to the host, and since OUTW was `base` it has taken the words ws: their bits
are those of the bytes appended and then the pending ones. -/
def State.Packed (s : State) (base : List Byte) (ws : List Code) : Prop :=
  s.mode ≠ .enc ∧ s.pkClosed = false ∧
    ∃ bytes, s.outw = base ++ bytes ∧ streamBits bytes ++ s.pendingOutput = wordStreamBits ws

theorem exec_pkInit_packed {s : State} (hmode : s.mode ≠ .enc) :
    ∃ t, exec .pkInit s = .next t ∧ t.Packed s.outw [] :=
  ⟨_, exec_pkInit_of_mode hmode, hmode, rfl, [], by simp, rfl⟩

theorem State.Packed.pkWrite {s : State} {base : List Byte} {ws : List Code} (h : s.Packed base ws)
    (w : Code) : ∃ t, exec (.pkWrite w) s = .next t ∧ t.Packed base (ws ++ [w]) := by
  obtain ⟨hmode, hopen, bytes, hout, hbits⟩ := h
  refine ⟨_, exec_pkWrite_of_open hmode hopen w, hmode, hopen, bytes ++ s.packedBytes w, ?_, ?_⟩
  · rw [State.respond_outw, State.packWord_outw, hout, List.append_assoc]
  · calc streamBits (bytes ++ s.packedBytes w) ++ (s.packWord w).pendingOutput
        = streamBits bytes ++ (s.pendingOutput ++ msbBits 14 w.toNat) := by
          rw [State.packWord_bits, streamBits_append, List.append_assoc]
      _ = wordStreamBits (ws ++ [w]) := by
          rw [← List.append_assoc, hbits, wordStreamBits_append, wordStreamBits_cons,
            wordStreamBits_nil, List.append_nil]

theorem State.Packed.pkWrites {s : State} {base : List Byte} {ws : List Code}
    (h : s.Packed base ws) (vs : List Code) :
    ∃ t, execAll (vs.map .pkWrite) s = .next t ∧ t.Packed base (ws ++ vs) := by
  induction vs generalizing s ws with
  | nil => exact ⟨s, rfl, by rwa [List.append_nil]⟩
  | cons v vs ih =>
    obtain ⟨u, hu, hpacked⟩ := h.pkWrite v
    obtain ⟨t, ht, hpacked⟩ := ih hpacked
    refine ⟨t, ?_, by rwa [List.append_assoc] at hpacked⟩
    rw [List.map_cons, execAll, hu]
    exact ht

theorem State.Packed.pkClose {s : State} {base : List Byte} {ws : List Code}
    (h : s.Packed base ws) :
    ∃ t bytes pad, exec .pkClose s = .next t ∧ t.outw = base ++ bytes ++ [Config.sentinel] ∧
      pad < 8 ∧ streamBits bytes = wordStreamBits ws ++ List.replicate pad false := by
  obtain ⟨hmode, hopen, bytes, hout, hbits⟩ := h
  obtain ⟨padded, pad, hclose, hpad, hpadded⟩ := s.closeBytes_bits
  refine ⟨_, bytes ++ padded, pad, exec_pkClose_of_open hmode hopen, ?_, hpad, ?_⟩
  · rw [State.respond_outw, State.packClose_outw, hout, hclose]
    simp only [List.append_assoc]
  · rw [streamBits_append, hpadded, ← List.append_assoc, hbits]

/-- Settles O22: PK_INIT opens a packed stream, the writes extend it, and PK_CLOSE pads it to whole
bytes, from which the lengths follow. -/
theorem packedStreamLayout : Obligations.PackedStreamLayout := by
  intro s ws hmode
  obtain ⟨u, hinit, hu⟩ := exec_pkInit_packed hmode
  obtain ⟨v, hwrites, hv⟩ := hu.pkWrites ws
  obtain ⟨t, bytes, pad, hclose, hout, hpad, hbits⟩ := hv.pkClose
  rw [List.nil_append] at hbits
  have hlen : 8 * bytes.length = 14 * ws.length + pad := by
    simpa using congrArg List.length hbits
  have hopened : execAll (.pkInit :: ws.map .pkWrite) s = .next v := by
    rw [execAll, hinit]
    exact hwrites
  refine ⟨t, bytes, ?_, hout, by omega, ?_⟩
  · rw [execAll_append _ _ s v hopened, execAll, hclose]
    rfl
  · rwa [hlen, Nat.add_sub_cancel_left]

end Sys2Proof.Machine

/-! PROOFS. The encodings of 30_encoding.md: the class of a stream word (O3), decoding and encoding
as one relation (O1, O2, O4), the illegal command words (O9), the response word (O5), the
pseudo-instructions (O6), and the commands that report a number of bytes (O21). -/

namespace Sys2Proof.Machine

/-! ### Stream words (30_encoding.md R81, R82) -/

/-- R81's classes by value ranges. -/
theorem classify_eq (w : Code) :
    classify w = if w.toNat ≤ 0xFF then .lit else if w.toNat = 0x3FFE then .reset
      else if w.toNat = 0x3FFF then .eos else .dict := by
  have hreset : w = Config.resetCode ↔ w.toNat = 0x3FFE := BitVec.toNat_inj.symm
  have heos : w = Config.eosCode ↔ w.toNat = 0x3FFF := BitVec.toNat_inj.symm
  simp only [classify, hreset, heos, Config.literalLimit, Nat.lt_succ_iff]

theorem classify_eq_lit_iff (w : Code) : classify w = .lit ↔ w.toNat ≤ 0xFF := by
  rw [classify_eq]
  split_ifs <;> simp <;> omega

theorem classify_eq_reset_iff (w : Code) : classify w = .reset ↔ w.toNat = 0x3FFE := by
  rw [classify_eq]
  split_ifs <;> simp <;> omega

theorem classify_eq_eos_iff (w : Code) : classify w = .eos ↔ w.toNat = 0x3FFF := by
  rw [classify_eq]
  split_ifs <;> simp <;> omega

theorem classify_eq_dict_iff (w : Code) :
    classify w = .dict ↔ 0x100 ≤ w.toNat ∧ w.toNat ≤ 0x3FFD := by
  have := Code.lt w
  rw [classify_eq]
  split_ifs <;> simp <;> omega

/-- Settles O3, class by class. -/
theorem wordClassFollowsValue : Obligations.WordClassFollowsValue := fun w =>
  ⟨classify_eq_lit_iff w, classify_eq_reset_iff w, classify_eq_eos_iff w, classify_eq_dict_iff w,
    rfl, rfl, rfl, rfl⟩

theorem wf_dict_iff (c : Code) : Instr.wf (.dict c) = true ↔ classify c = .dict := by
  rw [classify_eq_dict_iff]
  simp only [Instr.wf, Bool.and_eq_true, decide_eq_true_iff, BitVec.le_def]
  rfl

/-- A code that fits a byte is that byte as a code (30_encoding.md R90). -/
theorem byte_byteCode {c : Code} (h : c.toNat < 2 ^ 8) :
    (c.setWidth 8).setWidth Config.wordBits = c := by
  apply BitVec.eq_of_toNat_eq
  rw [byteCode_toNat, BitVec.toNat_setWidth, Nat.mod_eq_of_lt h]

/-- A stream word decodes to the one well-formed instruction that it encodes (R82). -/
theorem decodeStream_eq_iff (w : Code) (i : Instr) :
    decodeStream w = i ↔ i.wf = true ∧ encode i = .stream w := by
  constructor
  · rintro rfl
    unfold decodeStream
    cases hclass : classify w with
    | lit =>
      have hlit := (classify_eq_lit_iff w).1 hclass
      exact ⟨rfl, congrArg Encoded.stream (byte_byteCode (by omega))⟩
    | reset =>
      have hval := (classify_eq_reset_iff w).1 hclass
      exact ⟨rfl, congrArg Encoded.stream (BitVec.eq_of_toNat_eq hval.symm)⟩
    | eos =>
      have hval := (classify_eq_eos_iff w).1 hclass
      exact ⟨rfl, congrArg Encoded.stream (BitVec.eq_of_toNat_eq hval.symm)⟩
    | dict => exact ⟨(wf_dict_iff w).2 hclass, rfl⟩
  · rintro ⟨hwf, henc⟩
    cases i with
    | lit b =>
      cases henc
      have hclass : classify (b.setWidth Config.wordBits) = .lit := by
        rw [classify_eq_lit_iff, byteCode_toNat]
        omega
      simp only [decodeStream, hclass, byteCode_byte]
    | dict c =>
      cases henc
      simp only [decodeStream, (wf_dict_iff w).1 hwf]
    | reset | eos =>
      cases henc
      rfl
    | _ => cases henc

/-! ### Command words (30_encoding.md R88 to R92) -/

/-- The commands without an operand, with their opcodes (R89). -/
def plainCommands : List (BitVec 8 × Instr) :=
  [(0x00#8, .nop), (0x01#8, .pkInit), (0x03#8, .pkClose), (0x04#8, .upInit), (0x05#8, .upRead),
   (0x10#8, .encStart), (0x12#8, .encClose), (0x20#8, .decStart), (0x21#8, .decStep),
   (0x31#8, .clrErr)]

/-- The fields OPC and OPERAND of the well-formed commands (R89, R90): what decoding and encoding
both have to agree with. -/
inductive CommandFields : BitVec 8 → Code → Instr → Prop
  | plain {opc : BitVec 8} {i : Instr} (h : (opc, i) ∈ plainCommands) :
      CommandFields opc noOperand i
  | pkWrite (w : Code) : CommandFields 0x02#8 w (.pkWrite w)
  | encByte (b : Byte) : CommandFields 0x11#8 (b.setWidth Config.wordBits) (.encByte b)
  | rdReg {idx : Code} (h : idx ≤ Config.lastRegister) : CommandFields 0x30#8 idx (.rdReg idx)

theorem plainCommand_eq_ok_iff {op : Code} {i j : Instr} :
    plainCommand op i = .ok j ↔ op = noOperand ∧ i = j := by
  unfold plainCommand
  split <;> simp [*]

/-- The opcode map decodes a command without an operand by the check that OPERAND is 0. -/
theorem decodeOpcode_of_plain {opc : BitVec 8} {i : Instr} (h : (opc, i) ∈ plainCommands)
    (op : Code) : decodeOpcode opc op = plainCommand op i := by
  have hall : ∀ p ∈ plainCommands, decodeOpcode p.1 op = plainCommand op p.2 := by
    simp [plainCommands, decodeOpcode]
  exact hall _ h

theorem encode_of_plain {opc : BitVec 8} {i : Instr} (h : (opc, i) ∈ plainCommands) :
    i.wf = true ∧ encode i = .command (commandWord opc noOperand) := by
  have hall : ∀ p ∈ plainCommands,
      p.2.wf = true ∧ encode p.2 = .command (commandWord p.1 noOperand) := by decide
  exact hall _ h

/-- An opcode belongs to a command without an operand, is one of the three others, or is not in the
table of R89. -/
theorem opcode_cases (opc : BitVec 8) :
    (∃ i, (opc, i) ∈ plainCommands) ∨ opc = 0x02#8 ∨ opc = 0x11#8 ∨ opc = 0x30#8 ∨
      opc ∉ legalOpcodes := by
  by_cases hlegal : opc ∈ legalOpcodes
  · have hall : ∀ k ∈ legalOpcodes,
        (∃ p ∈ plainCommands, p.1 = k) ∨ k = 0x02#8 ∨ k = 0x11#8 ∨ k = 0x30#8 := by decide
    rcases hall opc hlegal with ⟨⟨_, i⟩, hmem, rfl⟩ | h | h | h
    · exact .inl ⟨i, hmem⟩
    · exact .inr (.inl h)
    · exact .inr (.inr (.inl h))
    · exact .inr (.inr (.inr (.inl h)))
  · exact .inr (.inr (.inr (.inr hlegal)))

theorem decodeOpcode_pkWrite (op : Code) : decodeOpcode 0x02#8 op = .ok (.pkWrite op) := rfl

theorem decodeOpcode_encByte (op : Code) : decodeOpcode 0x11#8 op =
    if op.toNat < 2 ^ 8 then .ok (.encByte (op.setWidth 8)) else .error .byteOperand := rfl

theorem decodeOpcode_rdReg (op : Code) : decodeOpcode 0x30#8 op =
    if op ≤ Config.lastRegister then .ok (.rdReg op) else .error .indexOperand := rfl

theorem decodeOpcode_unknown {opc : BitVec 8} (h : opc ∉ legalOpcodes) (op : Code) :
    decodeOpcode opc op = .error .unknownOpcode := by
  simp only [legalOpcodes, List.mem_cons, List.not_mem_nil, or_false, not_or,
    ← BitVec.toNat_inj] at h
  unfold decodeOpcode
  split
  case h_14 => rfl
  all_goals simp_all

/-- The opcode map answers exactly the commands whose fields it is given (R89, R90, R92). -/
theorem decodeOpcode_eq_ok_iff {opc : BitVec 8} {op : Code} {i : Instr} :
    decodeOpcode opc op = .ok i ↔ CommandFields opc op i := by
  constructor
  · intro h
    rcases opcode_cases opc with ⟨j, hj⟩ | rfl | rfl | rfl | hunknown
    · rw [decodeOpcode_of_plain hj, plainCommand_eq_ok_iff] at h
      obtain ⟨rfl, rfl⟩ := h
      exact .plain hj
    · cases h
      exact .pkWrite op
    · rw [decodeOpcode_encByte] at h
      split_ifs at h with hbyte
      cases h
      have hfields := CommandFields.encByte (op.setWidth 8)
      rwa [byte_byteCode hbyte] at hfields
    · rw [decodeOpcode_rdReg] at h
      split_ifs at h with hidx
      cases h
      exact .rdReg hidx
    · rw [decodeOpcode_unknown hunknown] at h
      cases h
  · rintro (h | w | b | h)
    · rw [decodeOpcode_of_plain h, plainCommand_eq_ok_iff]
      exact ⟨rfl, rfl⟩
    · rfl
    · rw [decodeOpcode_encByte, byteCode_toNat, if_pos b.isLt, byteCode_byte]
    · rw [decodeOpcode_rdReg, if_pos h]

theorem CommandFields.encode_eq {opc : BitVec 8} {op : Code} {i : Instr}
    (h : CommandFields opc op i) : i.wf = true ∧ encode i = .command (commandWord opc op) := by
  rcases h with h | w | b | h
  · exact encode_of_plain h
  · exact ⟨rfl, rfl⟩
  · exact ⟨rfl, rfl⟩
  · exact ⟨decide_eq_true h, rfl⟩

/-- Every well-formed command is encoded by its fields (R88, R89, R90). -/
theorem commandFields_of_encode {i : Instr} {w : CmdWord} (hwf : i.wf = true)
    (henc : encode i = .command w) :
    ∃ opc op, CommandFields opc op i ∧ commandWord opc op = w := by
  cases i with
  | lit | reset | eos | dict => cases henc
  | pkWrite v =>
    cases henc
    exact ⟨_, _, .pkWrite v, rfl⟩
  | encByte b =>
    cases henc
    exact ⟨_, _, .encByte b, rfl⟩
  | rdReg idx =>
    cases henc
    exact ⟨_, _, .rdReg (of_decide_eq_true hwf), rfl⟩
  | _ =>
    cases henc
    refine ⟨_, _, .plain ?_, rfl⟩
    decide

theorem decodeCommand_eq_ok_iff_fields (w : CmdWord) (i : Instr) :
    decodeCommand w = .ok i ↔
      rsvField w = 0#(24 - Config.wordBits) ∧
        CommandFields (opcField w) (operandField w) i := by
  rw [← decodeOpcode_eq_ok_iff, decodeCommand]
  split_ifs with hrsv
  · exact (and_iff_right hrsv).symm
  · simp only [hrsv, false_and]

/-- A command word decodes to the one well-formed command that it encodes (R91). -/
theorem decodeCommand_eq_ok_iff (w : CmdWord) (i : Instr) :
    decodeCommand w = .ok i ↔ i.wf = true ∧ encode i = .command w := by
  rw [decodeCommand_eq_ok_iff_fields]
  constructor
  · rintro ⟨hrsv, hfields⟩
    have henc := hfields.encode_eq
    rwa [commandWord_fields w hrsv] at henc
  · rintro ⟨hwf, henc⟩
    obtain ⟨opc, op, hfields, rfl⟩ := commandFields_of_encode hwf henc
    rw [opcField_commandWord, operandField_commandWord]
    exact ⟨rsvField_commandWord opc op, hfields⟩

/-! ### Both instruction sets -/

/-- Decoding is encoding read backwards, of the well-formed instructions. -/
theorem decode_eq_ok_iff (e : Encoded) (i : Instr) :
    decode e = .ok i ↔ i.wf = true ∧ encode i = e := by
  cases e with
  | stream w => rw [← decodeStream_eq_iff, decode, Except.ok.injEq]
  | command w => exact decodeCommand_eq_ok_iff w i

/-- Settles O1: an encoding decodes to the well-formed instruction it encodes. -/
theorem decodeInvertsEncode : Obligations.DecodeInvertsEncode :=
  fun i hwf => (decode_eq_ok_iff (encode i) i).2 ⟨hwf, rfl⟩

/-- Settles O2, the other half of the same equivalence. -/
theorem encodeInvertsDecode : Obligations.EncodeInvertsDecode :=
  fun e i => (decode_eq_ok_iff e i).1

/-- Settles O4. -/
theorem specWordsDecode : Obligations.SpecWordsDecode := by
  unfold Obligations.SpecWordsDecode
  decide

/-! ### Illegal command words (30_encoding.md R91; 60_exceptions.md R204) -/

/-- The fields of a command word that break the opcode map or an operand constraint (R89, R90): the
clauses of IllegalCommandWord but the one about RSV. -/
def IllegalFields (opc : BitVec 8) (op : Code) : Prop :=
  opc ∉ legalOpcodes ∨ (opc = 0x11#8 ∧ op.extractLsb' 8 6 ≠ 0#6) ∨
    (opc = 0x30#8 ∧ 6#14 < op) ∨ (opc ∉ [0x02#8, 0x11#8, 0x30#8] ∧ op ≠ 0#14)

/-- The statement reads the same fields as the decoder (R88), with RSV as its second clause. -/
theorem illegalCommandWord_iff (w : CmdWord) :
    IllegalCommandWord w ↔ rsvField w ≠ 0#(24 - Config.wordBits) ∨
      IllegalFields (opcField w) (operandField w) :=
  or_left_comm

theorem legal_of_plain {opc : BitVec 8} {i : Instr} (h : (opc, i) ∈ plainCommands) :
    opc ∈ legalOpcodes ∧ opc ≠ 0x02#8 ∧ opc ≠ 0x11#8 ∧ opc ≠ 0x30#8 := by
  have hall : ∀ p ∈ plainCommands,
      p.1 ∈ legalOpcodes ∧ p.1 ≠ 0x02#8 ∧ p.1 ≠ 0x11#8 ∧ p.1 ≠ 0x30#8 := by decide
  exact hall _ h

/-- The illegal fields are those that are no command's (R91). -/
theorem illegalFields_iff (opc : BitVec 8) (op : Code) :
    IllegalFields opc op ↔ ¬ ∃ i, decodeOpcode opc op = .ok i := by
  unfold IllegalFields
  rcases opcode_cases opc with ⟨j, hj⟩ | rfl | rfl | rfl | hunknown
  · obtain ⟨hlegal, hword, hbyte, hidx⟩ := legal_of_plain hj
    simp [hlegal, hword, hbyte, hidx, decodeOpcode_of_plain hj, plainCommand_eq_ok_iff]
  · simp [decodeOpcode_pkWrite, legalOpcodes]
  · rw [decodeOpcode_encByte, ne_eq, byteOperand_iff]
    split_ifs with hbyte <;> simp [hbyte, legalOpcodes, -Nat.reducePow]
  · have habove : 6#14 < op ↔ ¬ op ≤ Config.lastRegister := BitVec.not_le.symm
    rw [decodeOpcode_rdReg, habove]
    split_ifs with hidx <;> simp [hidx, legalOpcodes]
  · simp [hunknown, decodeOpcode_unknown hunknown]

/-- The illegal command words are those that decode to no command (R91). -/
theorem illegalCommandWord_iff_decode (w : CmdWord) :
    IllegalCommandWord w ↔ ¬ ∃ i, decodeCommand w = .ok i := by
  rw [illegalCommandWord_iff, illegalFields_iff, decodeCommand]
  split_ifs with hrsv
  · simp only [hrsv, ne_eq, not_true, false_or]
  · simp only [hrsv, ne_eq, not_false_eq_true, true_or, exists_false]

/-- The step with a word on CMD that decodes to no command: it never holds, and ILLEGAL is reported
(30_encoding.md R91; 60_exceptions.md R204). -/
theorem step_of_decode_error {s : State} {w : CmdWord} {why : IllegalWord} (hw : s.cmd = some w)
    (hd : decodeCommand w = .error why) : step s = .next (s.raise .illegal 0#16) := by
  simp [step, hw, wordHolds, runCommand, hd]

/-- Settles O9: the illegal words are those the decoder refuses. -/
theorem illegalWordsOnlyReport : Obligations.IllegalWordsOnlyReport := by
  intro s w hw
  rw [illegalCommandWord_iff_decode, not_not]
  constructor
  · intro hillegal
    cases hd : decodeCommand w with
    | ok i => exact absurd ⟨i, hd⟩ hillegal
    | error why =>
      rw [step_of_decode_error hw hd]
      exact next_raise rfl (by decide)
  · rintro ⟨i, hd⟩
    exact ⟨i, hd, ((decodeCommand_eq_ok_iff w i).1 hd).1⟩

/-! ### Response words (30_encoding.md R95) -/

theorem respWord_toNat (e k : BitVec 4) (v : BitVec 16) :
    (respWord e k v).toNat = e.toNat * 2 ^ 28 + k.toNat * 2 ^ 24 + v.toNat := by
  simp only [respWord, append_toNat, BitVec.toNat_ofNat]
  omega

/-- Settles O5. -/
theorem responseWordLayout : Obligations.ResponseWordLayout := respWord_toNat

/-! ### Pseudo-instructions (30_encoding.md R98, R99) -/

/-- An operand is added into the command word of its opcode (R88). -/
theorem issue_eq_add (opc : BitVec 8) (op : Code) :
    issue opc op = .cmd (commandWord opc noOperand + op.setWidth 32) := by
  have := Code.lt op
  have hsum : commandWord opc op = commandWord opc noOperand + op.setWidth 32 := by
    apply BitVec.eq_of_toNat_eq
    rw [BitVec.toNat_add, commandWord_toNat, commandWord_toNat, BitVec.toNat_setWidth,
      BitVec.toNat_ofNat, Nat.zero_mod]
    omega
  rw [issue, hsum]

/-- Settles O6: a list of operands is issued under one opcode, to which each operand is added. -/
theorem pseudoInstructionsExpand : Obligations.PseudoInstructionsExpand := by
  intro ops n
  have hwrite : issue 0x02#8 = fun w => .cmd (0x02000000#32 + w.setWidth 32) :=
    funext (issue_eq_add 0x02#8)
  have hbyte : issue 0x11#8 = fun b => .cmd (0x11000000#32 + b.setWidth 32) :=
    funext (issue_eq_add 0x11#8)
  refine ⟨?_, ?_, ?_, rfl, rfl⟩
  · rw [AsmLine.expand, hwrite]
  · rw [AsmLine.expand, hbyte]
  · rw [AsmLine.expand, hbyte]
    rfl

/-! ### The number of bytes PK_WRITE and PK_CLOSE report (30_encoding.md R97) -/

/-- PackWord appends one byte or two, by whether the pending bits and the word's 14 fill two
(40_packer.md R111). -/
theorem State.packedBytes_length (s : State) (w : Code) :
    (s.packedBytes w).length = if s.pkNbits.toNat ≤ 1 then 1 else 2 := by
  have hlen : (s.packedBytes w).length = (s.pkNbits.toNat + 14) / 8 := emitBytes_length _ _
  have := s.pkNbits.isLt
  split <;> omega

/-- PackClose appends the sentinel, and before it a byte for the pending bits, if any
(40_packer.md R112). -/
theorem State.closeBytes_length (s : State) :
    s.closeBytes.length = if s.pkNbits.toNat = 0 then 1 else 2 := by
  have hpending : 0#3 < s.pkNbits ↔ ¬ s.pkNbits.toNat = 0 := Nat.pos_iff_ne_zero
  simp only [State.closeBytes, hpending]
  split <;> simp [*]

/-- Settles O21, with the lengths of what is appended. -/
theorem pkWriteAndCloseComplete : Obligations.PkWriteAndCloseComplete := by
  intro s hmode hopen
  constructor
  · intro w
    rw [exec_pkWrite_of_open hmode hopen, State.packedBytes_length]
    exact next_respond (by split <;> rfl)
  · rw [exec_pkClose_of_open hmode hopen, State.closeBytes_length]
    exact next_respond (by split <;> rfl)

end Sys2Proof.Machine

/-! PROOFS. The packer and the unpacker of 40_packer.md: what PackWord and PackClose write (O18,
O19), the packer's commands (O20, O48), the unpacker's commands (O24, O25, O26), the word DEC_STEP
takes (O39), and that n UP_READs return the n words packed (O23). -/

namespace Sys2Proof.Machine

/-! ### The packer (40_packer.md R110 to R112, R116, R117) -/

/-- PackWord leaves no bit above the pending ones (10_state.md R55 (a)). -/
theorem State.packWord_pkAcc_lt (s : State) (w : Code) :
    (s.packWord w).pkAcc.toNat < 2 ^ (s.packWord w).pkNbits.toNat := by
  rw [State.packWord_pkAcc_toNat, State.packWord_pkNbits_toNat]
  exact Nat.mod_lt _ (Nat.two_pow_pos _)

/-- Settles O18. -/
theorem packWordEmitsMsbFirst : Obligations.PackWordEmitsMsbFirst := fun s w _ =>
  ⟨s.packedBytes w, (s.packWord w).pkAcc, (s.packWord w).pkNbits, rfl, s.packWord_bits w,
    s.packWord_pkAcc_lt w, s.packWord_pkNbits_toNat w, s.packedBytes_length w⟩

/-- The byte PackClose flushes loses no bit: n pending bits, shifted up by 8 - n, fit a byte
(40_packer.md R112). -/
theorem flushedByte_toNat {acc n : Nat} (hn : n ≤ 8) (hacc : acc < 2 ^ n) :
    (BitVec.ofNat 8 (acc <<< (8 - n))).toNat = acc * 2 ^ (8 - n) := by
  have hlt : acc * 2 ^ (8 - n) < 2 ^ 8 :=
    calc acc * 2 ^ (8 - n) < 2 ^ n * 2 ^ (8 - n) :=
          Nat.mul_lt_mul_of_pos_right hacc (Nat.two_pow_pos _)
      _ = 2 ^ 8 := by rw [← pow_add, Nat.add_sub_cancel' hn]
  rw [BitVec.toNat_ofNat, Nat.shiftLeft_eq, Nat.mod_eq_of_lt hlt]

theorem State.closeBytes_of_empty {s : State} (h : s.pkNbits.toNat = 0) :
    s.closeBytes = [] ++ [0x00#8] :=
  if_neg fun hpos : 0 < s.pkNbits.toNat => hpos.ne' h

theorem State.closeBytes_of_pending {s : State} (h : 0 < s.pkNbits.toNat) :
    s.closeBytes = [BitVec.ofNat 8 (s.pkAcc.toNat <<< (8 - s.pkNbits.toNat))] ++ [0x00#8] :=
  if_pos h

theorem State.packClose_of_closeBytes {s : State} {bytes : List Byte}
    (h : s.closeBytes = bytes ++ [0x00#8]) :
    s.packClose = { s with outw := s.outw ++ bytes ++ [0x00#8], pkAcc := 0#7, pkNbits := 0#3,
                           pkClosed := true } := by
  rw [State.packClose, h, List.append_assoc]

/-- Settles O19, by whether a bit is pending. -/
theorem packCloseFlushes : Obligations.PackCloseFlushes := by
  intro s hacc
  have hnbits : s.pkNbits.toNat < 8 := s.pkNbits.isLt
  rcases Nat.eq_zero_or_pos s.pkNbits.toNat with hempty | hpending
  · exact ⟨[], State.packClose_of_closeBytes (State.closeBytes_of_empty hempty), fun _ => rfl,
      fun hpos => absurd hempty hpos.ne'⟩
  · exact ⟨_, State.packClose_of_closeBytes (State.closeBytes_of_pending hpending),
      fun hzero => absurd hzero hpending.ne',
      fun _ => ⟨_, rfl, flushedByte_toNat hnbits.le hacc⟩⟩

/-- Settles O20. -/
theorem pkInitOpensPacker : Obligations.PkInitOpensPacker := by
  intro s hmode
  rw [exec_pkInit_of_mode hmode]
  exact next_respond (by decide)

theorem exec_pkWrite_of_closed {s : State} (hmode : s.mode ≠ .enc) (hclosed : s.pkClosed = true)
    (w : Code) : exec (.pkWrite w) s = .next (s.raise .closed 0#16) := by
  show execPkWrite w s = _
  simp [execPkWrite, State.packerOwned, hmode, hclosed]

theorem exec_pkClose_of_closed {s : State} (hmode : s.mode ≠ .enc) (hclosed : s.pkClosed = true) :
    exec .pkClose s = .next (s.raise .closed 0#16) := by
  show execPkClose s = _
  simp [execPkClose, State.packerOwned, hmode, hclosed]

/-- Settles O48, for each of the two commands. -/
theorem closedPackerFails : Obligations.ClosedPackerFails := by
  rintro s _ hmode hclosed (⟨w, rfl⟩ | rfl)
  · rw [exec_pkWrite_of_closed hmode hclosed]
    exact next_raise rfl (by decide)
  · rw [exec_pkClose_of_closed hmode hclosed]
    exact next_raise rfl (by decide)

/-! ### The unpacker (40_packer.md R113 to R115, R118; 43_decoder.md R171, R176) -/

theorem exec_upInit_of_mode {s : State} (hmode : s.mode ≠ .dec) :
    exec .upInit s = .next (s.unpackFresh.respond 0#4 0#4 0#16) := by
  show execUpInit s = _
  simp [execUpInit, State.unpackerOwned, hmode]

/-- Settles O24. -/
theorem upInitEmptiesBuffer : Obligations.UpInitEmptiesBuffer := by
  intro s hmode
  rw [exec_upInit_of_mode hmode]
  exact next_respond (by decide)

theorem State.wordHeld_of_ready {s : State} (h : s.wordReady) : s.wordHeld = false := by
  simp [State.wordHeld, State.inShort_of_ready h]

theorem State.wordHeld_of_finished {s : State} (h : s.inEnd = true) : s.wordHeld = false := by
  simp [State.wordHeld, h]

theorem exec_upRead_of_ready {s : State} (hmode : s.mode ≠ .dec) (hready : s.wordReady) :
    exec .upRead s = .next (s.wordTaken.respond 0#4 (kindOf (classify s.nextWord))
      (s.nextWord.setWidth 16)) := by
  show execUpRead s = _
  simp [execUpRead, State.unpackerOwned, hmode, State.wordHeld_of_ready hready,
    State.inShort_of_ready hready]

theorem exec_decStep_of_ready {s : State} (hmode : s.mode = .dec) (hready : s.wordReady) :
    exec .decStep s = exec (decodeStream s.nextWord) s.wordTaken := by
  rw [← execStreamWord_eq]
  show execDecStep s = _
  simp [execDecStep, hmode, State.wordHeld_of_ready hready, State.inShort_of_ready hready]

theorem exec_upRead_of_cut {s : State} (hmode : s.mode ≠ .dec) (hshort : ¬ s.wordReady)
    (hend : s.inEnd = true) : exec .upRead s =
      .next (s.wordTruncated.raise .truncated (BitVec.ofNat 16 s.truncatedBits)) := by
  show execUpRead s = _
  simp [execUpRead, State.unpackerOwned, hmode, State.wordHeld_of_finished hend,
    s.inShort_iff.2 hshort]

theorem exec_decStep_of_cut {s : State} (hmode : s.mode = .dec) (hshort : ¬ s.wordReady)
    (hend : s.inEnd = true) : exec .decStep s =
      .next ({ s.wordTruncated with mode := .decErr }.raise .truncated
        (BitVec.ofNat 16 s.truncatedBits)) := by
  show execDecStep s = _
  simp [execDecStep, hmode, State.wordHeld_of_finished hend, s.inShort_iff.2 hshort]

/-- Settles O26. -/
theorem truncatedWordFails : Obligations.TruncatedWordFails := by
  intro s hshort hend
  constructor
  · intro hmode
    rw [exec_upRead_of_cut hmode hshort hend]
    exact next_raise rfl rfl
  · intro hmode
    rw [exec_decStep_of_cut hmode hshort hend]
    exact next_raise rfl rfl

theorem State.pendingInput_eq {s : State} (h : s.upAvail.toNat ≤ 8) :
    s.pendingInput = msbBits s.upAvail.toNat s.upBuf.toNat ++ streamBits s.inq := by
  rw [State.pendingInput, msbBits_drop h]

theorem State.pendingInput_length {s : State} (h : s.upAvail.toNat ≤ 8) :
    s.pendingInput.length = s.upAvail.toNat + 8 * s.inq.length := by
  rw [State.pendingInput_eq h, List.length_append, msbBits_length, streamBits_length]

/-- UnpackWord takes the next word's bits from the front of the pending input
(40_packer.md R114). -/
theorem State.wordTaken_pendingInput {s : State} (ha : s.upAvail.toNat ≤ 8) (hr : s.wordReady) :
    s.wordTaken.upAvail.toNat < 8 ∧
      s.pendingInput = msbBits 14 s.nextWord.toNat ++ s.wordTaken.pendingInput := by
  obtain ⟨_, _, _, hleft, _, hbits⟩ := State.wordTaken_spec ha hr
  refine ⟨hleft, ?_⟩
  rw [State.pendingInput_eq ha, State.pendingInput_eq hleft.le, hbits, List.append_assoc]

/-- The bytes UnpackWord takes are those that the word needs, and the last of them stays in UP_BUF
(40_packer.md R114). -/
theorem State.wordTaken_bytes {s : State} (ha : s.upAvail.toNat ≤ 8) (hr : s.wordReady) :
    ∃ taken, s.inq = taken ++ s.wordTaken.inq ∧
      taken.length = (14 - s.upAvail.toNat + 7) / 8 ∧
      taken.getLast? = some s.wordTaken.upBuf ∧
      s.upAvail.toNat + 8 * taken.length = 14 + s.wordTaken.upAvail.toNat ∧
      s.pendingInput = msbBits 14 s.nextWord.toNat ++
        (msbBits 8 s.wordTaken.upBuf.toNat).drop (8 - s.wordTaken.upAvail.toNat) ++
        streamBits s.wordTaken.inq := by
  obtain ⟨taken, hin, hlast, hleft, hlen, _⟩ := State.wordTaken_spec ha hr
  refine ⟨taken, hin, by omega, hlast, hlen, ?_⟩
  rw [(State.wordTaken_pendingInput ha hr).2, State.pendingInput, List.append_assoc]

/-- Settles O25. -/
theorem upReadTakesNextWord : Obligations.UpReadTakesNextWord := by
  intro s hmode ha hr
  obtain ⟨taken, hbytes⟩ := State.wordTaken_bytes ha hr
  exact ⟨s.nextWord, s.wordTaken.upBuf, s.wordTaken.upAvail, taken, s.wordTaken.inq,
    exec_upRead_of_ready hmode hr, hbytes⟩

/-- Settles O39: DEC_STEP takes the word as UP_READ does. -/
theorem decStepRunsNextWord : Obligations.DecStepRunsNextWord := by
  intro s hmode ha hr
  obtain ⟨taken, hbytes⟩ := State.wordTaken_bytes ha hr
  exact ⟨s.nextWord, s.wordTaken.upBuf, s.wordTaken.upAvail, taken, s.wordTaken.inq,
    exec_decStep_of_ready hmode hr, hbytes⟩

/-! ### Reading a packed stream back (40_packer.md R119) -/

/-- What every instruction of a list keeps, a run of the list keeps. -/
theorem execAll_keeps {α : Type} {f : State → α} {is : List Instr} {s t : State}
    (hkeep : ∀ i ∈ is, ∀ u v, exec i u = .next v → f v = f u) (h : execAll is s = .next t) :
    f t = f s := by
  induction is generalizing s with
  | nil =>
    cases h
    rfl
  | cons i is ih =>
    rw [execAll] at h
    split at h
    next u hu =>
      exact (ih (fun j hj => hkeep j (List.mem_cons_of_mem i hj)) h).trans
        (hkeep i List.mem_cons_self s u hu)
    next => cases h
    next => cases h

/-- The packer's commands do not write MODE. -/
theorem execAll_pack_mode {ws : List Code} {s t : State}
    (h : execAll (.pkInit :: ws.map .pkWrite ++ [.pkClose]) s = .next t) : t.mode = s.mode := by
  refine execAll_keeps (fun i hi u v huv => ?_) h
  have hi : i = .pkInit ∨ (∃ w ∈ ws, .pkWrite w = i) ∨ i = .pkClose := by simpa [or_assoc] using hi
  rcases hi with rfl | ⟨w, _, rfl⟩ | rfl
  · rcases execPkInit_cases huv with rfl | rfl <;> rfl
  · rcases execPkWrite_cases huv with ⟨_, rfl⟩ | ⟨_, rfl⟩ <;> rfl
  · rcases execPkClose_cases huv with ⟨_, rfl⟩ | ⟨_, _, rfl⟩ <;> rfl

/-- The unpacker is free for the host, and has the bits of the words ws to give and then `tail`. -/
def State.Unread (s : State) (ws : List Code) (tail : List Bool) : Prop :=
  s.mode ≠ .dec ∧ s.upAvail.toNat < 8 ∧ s.pendingInput = wordStreamBits ws ++ tail

/-- The response of an UP_READ that returns w (40_packer.md R118). -/
def readResponse (w : Code) : RespWord := respWord 0#4 (kindOf (classify w)) (w.setWidth 16)

theorem exec_upInit_unread {s : State} {ws : List Code} {tail : List Bool} (hmode : s.mode ≠ .dec)
    (hbits : streamBits s.inq = wordStreamBits ws ++ tail) :
    ∃ t, exec .upInit s = .next t ∧ t.resp = s.resp ++ [0x00000000#32] ∧ t.Unread ws tail :=
  ⟨_, exec_upInit_of_mode hmode, by rw [State.respond_resp]; rfl, hmode, Nat.zero_lt_succ 7, hbits⟩

theorem State.Unread.upRead {s : State} {w : Code} {ws : List Code} {tail : List Bool}
    (h : s.Unread (w :: ws) tail) :
    ∃ t, exec .upRead s = .next t ∧ t.resp = s.resp ++ [readResponse w] ∧ t.Unread ws tail := by
  obtain ⟨hmode, havail, hbits⟩ := h
  have hready : s.wordReady := by
    have hlen := congrArg List.length hbits
    rw [State.pendingInput_length havail.le, wordStreamBits_cons, List.append_assoc,
      List.length_append, msbBits_length] at hlen
    rw [State.wordReady_iff]
    omega
  obtain ⟨hleft, htaken⟩ := State.wordTaken_pendingInput havail.le hready
  rw [hbits, wordStreamBits_cons, List.append_assoc] at htaken
  obtain ⟨hword, hrest⟩ := List.append_inj htaken (by rw [msbBits_length, msbBits_length])
  have hword : s.nextWord = w :=
    BitVec.eq_of_toNat_eq (msbBits_injective (Code.lt w) (Code.lt _) hword).symm
  refine ⟨_, exec_upRead_of_ready hmode hready, ?_, hmode, hleft, hrest.symm⟩
  rw [State.respond_resp, hword, readResponse, State.wordTaken_resp]

theorem State.Unread.upReads {s : State} {ws : List Code} {tail : List Bool}
    (h : s.Unread ws tail) :
    ∃ t, execAll (List.replicate ws.length .upRead) s = .next t ∧
      t.resp = s.resp ++ ws.map readResponse ∧ t.Unread [] tail := by
  induction ws generalizing s with
  | nil => exact ⟨s, rfl, (List.append_nil _).symm, h⟩
  | cons w ws ih =>
    obtain ⟨u, hu, hresp, hunread⟩ := h.upRead
    obtain ⟨t, ht, htresp, hend⟩ := ih hunread
    refine ⟨t, ?_, by rw [htresp, hresp, List.append_assoc]; rfl, hend⟩
    rw [List.length_cons, List.replicate_succ, execAll, hu]
    exact ht

/-- With less than a byte of pad and one byte to give, that byte alone is left in IN: the pad is in
UP_BUF. -/
theorem State.Unread.inq_of_pad {s : State} {pad : List Bool} {b : Byte} (hpad : pad.length < 8)
    (h : s.Unread [] (pad ++ streamBits [b])) : s.inq = [b] := by
  obtain ⟨_, havail, hbits⟩ := h
  have hlen := congrArg List.length hbits
  rw [State.pendingInput_length havail.le, wordStreamBits_nil, List.nil_append, List.length_append,
    streamBits_length, List.length_singleton] at hlen
  obtain ⟨c, hc⟩ : ∃ c, s.inq = [c] := List.length_eq_one_iff.1 (by omega)
  rw [State.pendingInput_eq havail.le, hc, wordStreamBits_nil, List.nil_append] at hbits
  have hbyte : msbBits 8 c.toNat = msbBits 8 b.toNat := by
    simpa using List.append_inj_right' hbits (by simp)
  rw [hc, BitVec.eq_of_toNat_eq (msbBits_injective c.isLt b.isLt hbyte)]

/-- Settles O23: the packed bytes are the words' bits, a pad and the sentinel (O22); UP_INIT makes
them the pending input, of which each UP_READ takes one word. -/
theorem unpackInvertsPack : Obligations.UnpackInvertsPack := by
  intro s ws henc hdec
  obtain ⟨t, bytes, hpack, hout, hlen, hbits⟩ := packedStreamLayout s ws henc
  have hmode : t.mode ≠ .dec := by rwa [execAll_pack_mode hpack]
  have hinput : streamBits (bytes ++ [0x00#8]) = wordStreamBits ws ++
      (List.replicate (8 * bytes.length - 14 * ws.length) false ++ streamBits [0x00#8]) := by
    rw [streamBits_append, hbits, List.append_assoc]
  obtain ⟨v, hinit, hvresp, hv⟩ :=
    exec_upInit_unread (s := { t with inq := bytes ++ [0x00#8] }) hmode hinput
  obtain ⟨u, hreads, huresp, hu⟩ := hv.upReads
  have hleft : u.inq = [0x00#8] := hu.inq_of_pad (by rw [List.length_replicate]; omega)
  obtain ⟨_, havail, _⟩ := hu
  refine ⟨t, bytes ++ [0x00#8], u, hpack, by rw [hout, List.append_assoc], ?_, ?_, hleft, havail⟩
  · rw [execAll, hinit]
    exact hreads
  · rw [huresp, hvresp, List.append_assoc]
    rfl

end Sys2Proof.Machine

/-! PROOFS. The trie primitives of 41_trie.md, first part: Child, TrieReset, Phrase and Register
(O27, O28, O29, O30, O31). Phrases are built by one induction over the defined nodes, from the
literals up. -/

namespace Sys2Proof.Machine

/-! ### Child (41_trie.md R132) -/

/-- c is defined, with parent p and last byte b. -/
def State.IsChild (s : State) (p : Code) (b : Byte) (c : Code) : Prop :=
  ∃ n, s.nodeRead c = some n ∧ n.parent = p ∧ n.value = b

theorem State.IsChild.lt {s : State} {p c : Code} {b : Byte} (h : s.IsChild p b c) :
    c < s.nextFree := by
  obtain ⟨n, hn, _⟩ := h
  exact State.nodeRead_lt hn

theorem State.child_eq_some_iff {s : State} {p : Code} {b : Byte} (c : Code) :
    s.child p b = some c ↔ s.IsChild p b c ∧ ∀ d, d < c → ¬ s.IsChild p b d := by
  have hfind : (List.range s.nextFree.toNat).find? (s.isChild p b) = some c.toNat ↔
      s.IsChild p b c ∧ ∀ d, d < c → ¬ s.IsChild p b d := by
    rw [List.find?_range_eq_some, State.isChild_iff]
    constructor
    · rintro ⟨hc, _, hleast⟩
      refine ⟨hc, fun d hd hchild => ?_⟩
      have := hleast d.toNat hd
      rw [State.isChild_iff.2 hchild] at this
      cases this
    · rintro ⟨hc, hleast⟩
      refine ⟨hc, List.mem_range.2 hc.lt, fun j hj => ?_⟩
      have hj' : (BitVec.ofNat Config.wordBits j).toNat = j := Code.ofNat_toNat (hj.trans c.lt)
      have := hleast (BitVec.ofNat Config.wordBits j) (by rwa [BitVec.lt_def, hj'])
      rw [State.IsChild, ← State.isChild_iff, hj'] at this
      simpa using this
  rw [← hfind, State.child]
  constructor
  · intro h
    obtain ⟨k, hk, rfl⟩ := Option.map_eq_some_iff.1 h
    have hlt := List.mem_range.1 (List.mem_of_find?_eq_some hk)
    rwa [Code.ofNat_toNat (hlt.trans s.nextFree.lt)]
  · intro h
    rw [h]
    rw [Option.map_some, BitVec.ofNat_toNat, BitVec.setWidth_eq]

theorem State.child_eq_none_iff {s : State} {p : Code} {b : Byte} :
    s.child p b = none ↔ ∀ c, ¬ s.IsChild p b c := by
  rw [State.child, Option.map_eq_none_iff, List.find?_range_eq_none]
  constructor
  · intro h c hc
    have := h c.toNat hc.lt
    rw [State.isChild_iff.2 hc] at this
    cases this
  · intro h k hk
    have hk' := Code.ofNat_toNat (hk.trans s.nextFree.lt)
    have := h (BitVec.ofNat Config.wordBits k)
    rw [State.IsChild, ← State.isChild_iff, hk'] at this
    simpa using this

/-- Settles O28. -/
theorem childIsLeastMatch : Obligations.ChildIsLeastMatch := fun _ _ _ =>
  ⟨State.child_eq_some_iff, State.child_eq_none_iff.trans not_exists.symm⟩

/-! ### The literals (41_trie.md R131) -/

/-- A literal code is defined and reads its literal node. -/
theorem State.DictInv.nodeRead_literal {s : State} (h : s.DictInv) {c : Code}
    (hc : c.toNat < Config.literalLimit) : s.nodeRead c = some (literalNode c.toNat) := by
  have hfree : 0x100 ≤ s.nextFree.toNat := h.nextFree.1
  rw [State.nodeRead_of_lt (BitVec.lt_def.2 (Nat.lt_of_lt_of_le hc hfree)), h.literals _ hc]

/-- The literal of byte b is the root's least child for b: a lower literal has another value. -/
theorem State.DictInv.child_root {s : State} (h : s.DictInv) (b : Byte) :
    s.child Config.rootCode b = some (b.setWidth Config.wordBits) := by
  have hliteral : (b.setWidth Config.wordBits).toNat < Config.literalLimit := by
    rw [byteCode_toNat]
    exact b.isLt
  rw [State.child_eq_some_iff]
  refine ⟨⟨_, h.nodeRead_literal hliteral, rfl, ?_⟩, ?_⟩
  · rw [byteCode_toNat, literalNode_byte]
  · rintro d hd ⟨n, hn, _, hvalue⟩
    have hlt : d.toNat < b.toNat := byteCode_toNat b ▸ BitVec.lt_def.1 hd
    have hb : b.toNat < 0x100 := b.isLt
    rw [h.nodeRead_literal (hlt.trans hb)] at hn
    cases hn
    have := congrArg BitVec.toNat hvalue
    rw [literalNode, BitVec.toNat_ofNat, Nat.mod_eq_of_lt (hlt.trans hb)] at this
    omega

/-- Settles O29. -/
theorem rootChildIsLiteral : Obligations.RootChildIsLiteral := fun _ b h => h.dict.child_root b

/-- Settles O27. -/
theorem trieResetRestoresLiterals : Obligations.TrieResetRestoresLiterals := by
  intro s hwf
  refine ⟨s.nodes.restoreLiterals, rfl, Memory.wf_restoreLiterals hwf,
    Memory.read_restoreLiterals hwf, fun c hc => ?_⟩
  exact State.nodeRead_of_not_lt (BitVec.not_lt.2 hc)

/-! ### Defined nodes, from the literals up -/

theorem State.DictInv.nodeRead_defined {s : State} (h : s.DictInv) {c : Code}
    (hc : c < s.nextFree) : ∃ n, s.nodeRead c = some n := by
  by_cases hlit : c.toNat < Config.literalLimit
  · exact ⟨_, h.nodeRead_literal hlit⟩
  · obtain ⟨n, _, hn, _⟩ := h.dynamics c (Nat.not_lt.1 hlit) hc
    exact ⟨n, hn⟩

/-- A defined code is not the root's: NEXT_FREE stops there (R55 (c)). -/
theorem State.NextFreeInv.ne_root {s : State} (h : s.NextFreeInv) {c : Code}
    (hc : c < s.nextFree) : c ≠ Config.rootCode :=
  BitVec.ne_of_lt (BitVec.lt_def.2 (Nat.lt_of_lt_of_le hc h.2))

/-- What holds of the literals, and of a node when it holds of its parent, holds of every defined
node, since a parent's code is lower (R55 (g)). -/
theorem State.DictInv.node_induction {s : State} (h : s.DictInv) {motive : Code → Node → Prop}
    (literal : ∀ c : Code, c.toNat < Config.literalLimit → motive c (literalNode c.toNat))
    (dynamic : ∀ (c : Code) (n m : Node), s.nodeRead c = some n → Config.literalLimit ≤ c.toNat →
      n.parent < c → s.nodeRead n.parent = some m → n.depth.toNat = m.depth.toNat + 1 →
      n.first = m.first → motive n.parent m → motive c n)
    {c : Code} {n : Node} (hn : s.nodeRead c = some n) : motive c n := by
  induction hk : c.toNat using Nat.strongRecOn generalizing c n with
  | ind k ih =>
    by_cases hlit : c.toNat < Config.literalLimit
    · cases (h.nodeRead_literal hlit).symm.trans hn
      exact literal c hlit
    · have hlo := Nat.not_lt.1 hlit
      obtain ⟨n', m, hn', hparent, hm, hdepth, hfirst⟩ := h.dynamics c hlo (State.nodeRead_lt hn)
      cases hn'.symm.trans hn
      exact dynamic c n m hn hlo hparent hm hdepth hfirst (ih _ (hk ▸ hparent) hm rfl)

/-- A phrase gets at most one byte longer with each dynamic code (41_trie.md R136). -/
theorem State.DictInv.depth_le_dynamic {s : State} (h : s.DictInv) {c : Code} {n : Node}
    (hn : s.nodeRead c = some n) : n.depth.toNat ≤ 1 + (c.toNat - 0xFF) := by
  refine h.node_induction (motive := fun c n => n.depth.toNat ≤ 1 + (c.toNat - 0xFF))
    (fun c _ => Nat.le_add_right 1 _) (fun c n m _ hlo hparent _ hdepth _ ih => ?_) hn
  have hparent : n.parent.toNat < c.toNat := hparent
  have hlo : 0x100 ≤ c.toNat := hlo
  omega

/-- A phrase is at most 16127 bytes long (41_trie.md R136). -/
theorem State.DictInv.depth_le_max {s : State} (h : s.DictInv) {c : Code} {n : Node}
    (hn : s.nodeRead c = some n) : n.depth.toNat ≤ 16127 := by
  have hle := h.depth_le_dynamic hn
  have hc : c.toNat < s.nextFree.toNat := State.nodeRead_lt hn
  have hfree : s.nextFree.toNat ≤ 0x3FFE := h.nextFree.2
  omega

/-! ### Phrase (41_trie.md R134, R135) -/

theorem State.phraseWalk_root (s : State) (fuel : Nat) :
    s.phraseWalk (fuel + 1) Config.rootCode [] = some [] := rfl

/-- A node's phrase is its parent's phrase and its value. -/
theorem State.phraseWalk_node {s : State} {fuel : Nat} {c : Code} {n : Node} {ph : List Byte}
    (hroot : c ≠ Config.rootCode) (hn : s.nodeRead c = some n)
    (hparent : s.phraseWalk fuel n.parent [] = some ph) :
    s.phraseWalk (fuel + 1) c [] = some (ph ++ [n.value]) := by
  simp only [State.phraseWalk, hroot, if_false, hn]
  rw [State.phraseWalk_acc, hparent, Option.map_some]

/-- Node n of code c describes the phrase ph ++ [VALUE] (41_trie.md R135). The walks are given
fuel by the code, since a parent's code is lower. -/
structure State.Describes (s : State) (c : Code) (n : Node) (ph : List Byte) : Prop where
  walk : s.phraseWalk (c.toNat + 2) c [] = some (ph ++ [n.value])
  parentPhrase : s.phrase n.parent = some ph
  first : (ph ++ [n.value]).head? = some n.first
  depth : n.depth.toNat = ph.length + 1

/-- The fuel of Phrase is enough for every defined code. -/
theorem State.Describes.phrase {s : State} {c : Code} {n : Node} {ph : List Byte}
    (h : s.Describes c n ph) (hc : c.toNat < Config.nodeCount) :
    s.phrase c = some (ph ++ [n.value]) :=
  State.phraseWalk_mono h.walk (Nat.succ_le_succ hc)

theorem State.NextFreeInv.lt_nodeCount {s : State} (h : s.NextFreeInv) {c : Code}
    (hc : c < s.nextFree) : c.toNat < Config.nodeCount :=
  Nat.lt_of_lt_of_le hc h.2

/-- Every defined node describes a phrase. -/
theorem State.DictInv.describes {s : State} (h : s.DictInv) {c : Code} {n : Node}
    (hn : s.nodeRead c = some n) : ∃ ph, s.Describes c n ph := by
  refine h.node_induction (motive := fun c n => ∃ ph, s.Describes c n ph) ?literal ?dynamic hn
  case literal =>
    intro c hc
    have hread := h.nodeRead_literal hc
    have hroot := h.nextFree.ne_root (State.nodeRead_lt hread)
    have hwalk := s.phraseWalk_root c.toNat
    exact ⟨[], State.phraseWalk_node hroot hread hwalk, rfl, rfl, rfl⟩
  case dynamic =>
    rintro c n m hread _ hparent hm hdepth hfirst ⟨ph, hph⟩
    have hroot := h.nextFree.ne_root (State.nodeRead_lt hread)
    have hfuel : n.parent.toNat + 2 ≤ c.toNat + 1 := Nat.succ_le_succ hparent
    refine ⟨ph ++ [m.value], ?_, ?_, ?_, ?_⟩
    · exact State.phraseWalk_node hroot hread (State.phraseWalk_mono hph.walk hfuel)
    · exact hph.phrase (h.nextFree.lt_nodeCount (State.nodeRead_lt hm))
    · rw [List.head?_append, hph.first, hfirst, Option.some_or]
    · rw [hdepth, hph.depth, List.length_append, List.length_singleton]

/-- Settles O31. -/
theorem phraseMatchesNode : Obligations.PhraseMatchesNode := by
  intro s c h hc
  obtain ⟨n, hn⟩ := h.dict.nodeRead_defined hc
  obtain ⟨ph, hph⟩ := h.dict.describes hn
  exact ⟨n, ph, hn, hph.phrase (h.nextFree.lt_nodeCount hc), hph.first, hph.depth,
    h.dict.depth_le_max hn, hph.parentPhrase⟩

/-! ### Register (41_trie.md R133) -/

/-- NodeRead after a registration: the new code reads the new node, the others are as before. -/
theorem State.nodeRead_registered {s t : State} {p : Code} {b : Byte} {n : Node}
    (hwf : s.nodes.wf = true) (hr : s.register p b = some t) (hn : s.nodeRead p = some n)
    (c : Code) : t.nodeRead c =
      if c = s.nextFree then
        some { parent := p, depth := n.depth + 1#Config.depthBits, value := b, first := n.first }
      else s.nodeRead c := by
  obtain ⟨hfree, _, n', hn', rfl⟩ := State.register_eq_some hr
  cases hn'.symm.trans hn
  exact State.nodeRead_written hwf hfree _ c

/-- A registration changes no phrase. -/
theorem State.DictInv.phrase_registered {s t : State} (h : s.DictInv) {p : Code} {b : Byte}
    (hr : s.register p b = some t) {c : Code} (hc : c < s.nextFree) :
    t.phrase c = s.phrase c := by
  obtain ⟨_, _, n, hn, _⟩ := State.register_eq_some hr
  have hkept : ∀ d m, s.nodeRead d = some m → t.nodeRead d = some m := fun d m hd => by
    have hold := BitVec.ne_of_lt (State.nodeRead_lt hd)
    rw [State.nodeRead_registered h.arena hr hn, if_neg hold, hd]
  obtain ⟨m, hm⟩ := h.nodeRead_defined hc
  obtain ⟨ph, hph⟩ := h.describes hm
  have hphrase := hph.phrase (h.nextFree.lt_nodeCount hc)
  exact (State.phraseWalk_of_reads hkept hphrase).trans hphrase.symm

/-- Settles O30: the new node describes its phrase in the new state (O31), where its parent has the
phrase that it had. -/
theorem registerAddsNode : Obligations.RegisterAddsNode := by
  intro s p b h hfree hp
  obtain ⟨n, hn⟩ := h.dict.nodeRead_defined hp
  have hr := State.register_of (b := b) hfree (h.nextFree.ne_root hp) hn
  have hread := State.nodeRead_registered h.arena hr hn s.nextFree
  rw [if_pos rfl] at hread
  obtain ⟨ph, hph⟩ := (h.dict.register hr).describes hread
  refine ⟨n, _, _, ph, hn, hr, rfl, Memory.read_write h.arena _ _, ?_, ?_,
    fun c hc => h.dict.phrase_registered hr hc⟩
  · exact (h.dict.phrase_registered hr hp).symm.trans hph.parentPhrase
  · exact hph.phrase hfree

end Sys2Proof.Machine

/-! PROOFS. The trie primitives of 41_trie.md, second part: a compression session keeps its children
unique (O58), and no command meets a broken trie (O59). -/

namespace Sys2Proof.Machine

/-! ### Commands that leave the dictionary alone -/

/-- The dictionary of t is that of s. -/
def State.SameDict (s t : State) : Prop := t.nodes = s.nodes ∧ t.nextFree = s.nextFree

theorem State.DictInv.congr {s t : State} (hs : s.DictInv) (h : s.SameDict t) : t.DictInv := by
  obtain ⟨hnodes, hfree⟩ := h
  have hread := State.nodeRead_congr hnodes hfree
  obtain ⟨hnf, hlit, hdyn, harena⟩ := hs
  refine ⟨?_, ?_, ?_, hnodes ▸ harena⟩
  · rwa [State.NextFreeInv, hfree]
  · rwa [State.LiteralInv, hnodes]
  · simpa only [State.DynamicInv, hread, hfree] using hdyn

theorem State.ChildrenUnique.congr {s t : State} (hs : s.ChildrenUnique) (h : s.SameDict t) :
    t.ChildrenUnique := by
  simpa only [State.ChildrenUnique, State.nodeRead_congr h.1 h.2] using hs

/-- A DEC_STEP leaves no compression session open, or leaves MODE and the dictionary as they are. -/
theorem execDecStep_dict {s t : State} (h : execDecStep s = .next t) :
    t.mode ≠ .enc ∨ (t.mode = s.mode ∧ s.SameDict t) := by
  by_cases hmode : s.mode = .dec
  · have hflags := (execDecStep_flags h).2.2
    rw [hmode] at hflags
    refine .inl fun henc => ?_
    rw [henc] at hflags
    exact absurd hflags (by decide)
  · rcases execDecStep_frame h with ⟨_, rfl⟩ | ⟨hdec, _⟩
    · exact .inr ⟨rfl, rfl, rfl⟩
    · exact absurd hdec hmode

/-- A command other than ENC_START and ENC_BYTE leaves no compression session open, or leaves MODE
and the dictionary as they are. -/
theorem exec_dict {i : Instr} {w : CmdWord} {s t : State} (hi : encode i = .command w)
    (hstart : i ≠ .encStart) (hbyte : ∀ b, i ≠ .encByte b) (h : exec i s = .next t) :
    t.mode ≠ .enc ∨ (t.mode = s.mode ∧ s.SameDict t) := by
  cases i with
  | lit | reset | eos | dict => cases hi
  | encStart => exact absurd rfl hstart
  | encByte b => exact absurd rfl (hbyte b)
  | decStep => exact execDecStep_dict h
  | decStart =>
    cases h
    exact .inl nofun
  | encClose =>
    rcases execEncClose_cases h with rfl | rfl
    · exact .inr ⟨rfl, rfl, rfl⟩
    · exact .inl nofun
  | nop | clrErr =>
    cases h
    exact .inr ⟨rfl, rfl, rfl⟩
  | pkInit => rcases execPkInit_cases h with rfl | rfl <;> exact .inr ⟨rfl, rfl, rfl⟩
  | pkWrite w =>
    rcases execPkWrite_cases h with ⟨_, rfl⟩ | ⟨_, rfl⟩ <;> exact .inr ⟨rfl, rfl, rfl⟩
  | pkClose =>
    rcases execPkClose_cases h with ⟨_, rfl⟩ | ⟨_, _, rfl⟩ <;> exact .inr ⟨rfl, rfl, rfl⟩
  | upInit => rcases execUpInit_cases h with rfl | rfl <;> exact .inr ⟨rfl, rfl, rfl⟩
  | upRead =>
    rcases execUpRead_cases h with rfl | rfl | ⟨_, rfl⟩ | ⟨_, _, _, rfl⟩ <;>
      exact .inr ⟨rfl, rfl, rfl⟩
  | rdReg idx => rcases execRdReg_cases h with ⟨_, rfl⟩ | rfl <;> exact .inr ⟨rfl, rfl, rfl⟩

/-! ### ENC_BYTE under the invariant (42_encoder.md R152) -/

theorem execEncByte_of_child {s : State} {b : Byte} {c : Code} (hmode : s.mode = .enc)
    (hc : s.child s.encCur b = some c) :
    execEncByte b s = .next (({ s with encCur := c } : State).respond 0#4 0#4 0#16) := by
  rw [execEncByte, if_neg (not_not.2 hmode), hc]

theorem execEncByte_of_miss {s : State} {b : Byte} (hmode : s.mode = .enc)
    (hmiss : s.child s.encCur b = none) : execEncByte b s = encMiss b s := by
  rw [execEncByte, if_neg (not_not.2 hmode), hmiss]

theorem encMoveToRootChild_of_inv {s : State} (h : s.DictInv) (b : Byte) (k : Nat) :
    encMoveToRootChild b k s = .next
      (({ s with encCur := b.setWidth Config.wordBits } : State).respond 0#4 0#4
        (BitVec.ofNat 16 k)) := by
  rw [encMoveToRootChild, h.child_root]

/-- The root has a child for every byte, so a miss happens at a defined node (R55 (e)). -/
theorem State.Inv.encCur_lt_of_miss {s : State} (h : s.Inv) {b : Byte} (hmode : s.mode = .enc)
    (hmiss : s.child s.encCur b = none) : s.encCur < s.nextFree := by
  refine (h.encCur hmode).resolve_left fun hroot => ?_
  rw [hroot, h.dict.child_root] at hmiss
  cases hmiss

/-- A miss with a free code registers the missing child of the current node. -/
theorem encMiss_of_free {s : State} (h : s.Inv) {b : Byte} (hmode : s.mode = .enc)
    (hmiss : s.child s.encCur b = none) (hfree : s.nextFree < Config.resetCode) :
    ∃ u, (s.packWord s.encCur).register s.encCur b = some u ∧ encMiss b s = .next
      (({ u with encCur := b.setWidth Config.wordBits } : State).respond 0#4 0#4 1#16) := by
  have hcur := h.encCur_lt_of_miss hmode hmiss
  have hpacked := (h.packWord s.encCur).dict
  obtain ⟨n, hn⟩ := hpacked.nodeRead_defined hcur
  have hr := State.register_of (b := b) (s := s.packWord s.encCur) hfree
    (h.nextFree.ne_root hcur) hn
  refine ⟨_, hr, ?_⟩
  rw [encMiss, if_pos (show (s.packWord s.encCur).nextFree < Config.resetCode from hfree),
    State.packWord_encCur, hr]
  exact encMoveToRootChild_of_inv (hpacked.register hr) b 1

/-- A miss with no free code counts, or resets the dictionary (42_encoder.md R153). -/
theorem encMiss_of_full {s : State} (h : s.Inv) (b : Byte) (hmode : s.mode = .enc)
    (hfull : ¬ s.nextFree < Config.resetCode) :
    encMiss b s = .next (({ (s.packWord s.encCur).saturate.2 with
      encCur := b.setWidth Config.wordBits } : State).respond 0#4 0#4
        (BitVec.ofNat 16 (1 + (s.packWord s.encCur).saturate.1))) := by
  have hsat := ((h.packWord s.encCur).saturate hmode hfull (.inl rfl)).dict
  rw [encMiss, if_neg (show ¬ (s.packWord s.encCur).nextFree < Config.resetCode from hfull)]
  exact encMoveToRootChild_of_inv (hsat.congr ⟨rfl, rfl⟩) b _

/-! ### Unique children (41_trie.md R137) -/

/-- The literals are pairwise distinct in their values. -/
theorem State.childrenUnique_trieReset {s : State} (h : s.nodes.wf = true) :
    s.trieReset.ChildrenUnique := by
  have hliteral : ∀ c n, s.trieReset.nodeRead c = some n →
      c.toNat < 256 ∧ n = literalNode c.toNat := fun c n hn => by
    rw [State.nodeRead_trieReset h] at hn
    split at hn
    · exact ⟨by assumption, (Option.some.inj hn).symm⟩
    · cases hn
  intro c d n m hc hd _ hvalue
  obtain ⟨hclt, rfl⟩ := hliteral c n hc
  obtain ⟨hdlt, rfl⟩ := hliteral d m hd
  have := congrArg BitVec.toNat hvalue
  simp only [literalNode, BitVec.toNat_ofNat] at this
  exact BitVec.eq_of_toNat_eq (by omega)

/-- A registration of a missing child keeps the children unique. -/
theorem State.ChildrenUnique.register {s t : State} (hs : s.ChildrenUnique)
    (hwf : s.nodes.wf = true) {p : Code} {b : Byte} (hmiss : s.child p b = none)
    (hr : s.register p b = some t) : t.ChildrenUnique := by
  have hmissing := State.child_eq_none_iff.1 hmiss
  obtain ⟨_, _, k, hk, _⟩ := State.register_eq_some hr
  intro c d n m hc hd hparent hvalue
  rw [State.nodeRead_registered hwf hr hk] at hc hd
  split_ifs at hc hd with hcnew hdnew hdnew
  · exact hcnew.trans hdnew.symm
  · cases hc
    exact absurd ⟨m, hd, hparent.symm, hvalue.symm⟩ (hmissing d)
  · cases hd
    exact absurd ⟨n, hc, hparent, hvalue⟩ (hmissing c)
  · exact hs c d n m hc hd hparent hvalue

/-- Saturate leaves the dictionary as it is or resets it (42_encoder.md R153). -/
theorem State.ChildrenUnique.saturate {s : State} (hs : s.ChildrenUnique)
    (hwf : s.nodes.wf = true) : s.saturate.2.ChildrenUnique := by
  rcases s.saturate_cases with ⟨_, e⟩ | e
  · exact hs.congr (by rw [e]; exact ⟨rfl, rfl⟩)
  · have hreset : (s.packWord Config.resetCode).trieReset.ChildrenUnique :=
      State.childrenUnique_trieReset hwf
    rw [e]
    generalize (s.packWord Config.resetCode).trieReset = u at hreset
    exact hreset.congr ⟨rfl, rfl⟩

theorem execEncByte_childrenUnique {b : Byte} {s t : State} (h : s.Inv) (hmode : s.mode = .enc)
    (hs : s.ChildrenUnique) (he : execEncByte b s = .next t) : t.ChildrenUnique := by
  cases hc : s.child s.encCur b with
  | some c =>
    rw [execEncByte_of_child hmode hc] at he
    cases he
    exact hs.congr ⟨rfl, rfl⟩
  | none =>
    rw [execEncByte_of_miss hmode hc] at he
    have hpacked : (s.packWord s.encCur).ChildrenUnique := hs.congr ⟨rfl, rfl⟩
    by_cases hfree : s.nextFree < Config.resetCode
    · obtain ⟨u, hr, hu⟩ := encMiss_of_free h hmode hc hfree
      cases hu.symm.trans he
      exact (hpacked.register h.arena hc hr).congr ⟨rfl, rfl⟩
    · cases (encMiss_of_full h b hmode hfree).symm.trans he
      exact (hpacked.saturate h.arena).congr ⟨rfl, rfl⟩

/-- A step is the host's, an ILLEGAL response, or the meaning of an instruction that a command word
encodes. -/
theorem step_command_cases (s : State) :
    step s = hostStep s ∨ step s = .next (s.raise .illegal 0#16) ∨
      ∃ i w, encode i = .command w ∧ step s = exec i s := by
  unfold step
  split
  · exact .inl rfl
  · rename_i w _
    split
    · exact .inl rfl
    · unfold runCommand
      split
      · rename_i i hd
        exact .inr (.inr ⟨i, w, ((decodeCommand_eq_ok_iff w i).1 hd).2, rfl⟩)
      · exact .inr (.inl rfl)

/-- Settles O58: ENC_START begins with the literals, ENC_BYTE registers missing children only, and
nothing else changes the dictionary of an open compression session. -/
theorem stepKeepsChildrenUnique : Obligations.StepKeepsChildrenUnique := by
  intro s t h hs he henc
  have hkept (hmode : t.mode = s.mode) (hdict : s.SameDict t) : t.ChildrenUnique :=
    (hs (hmode.symm.trans henc)).congr hdict
  rcases step_command_cases s with hstep | hstep | ⟨i, w, hi, hstep⟩ <;> rw [hstep] at he
  · rcases hostStep_cases he with ⟨_, _, _, _, rfl⟩ | ⟨_, rfl⟩
    · exact hkept rfl ⟨rfl, rfl⟩
    · cases henc
  · cases he
    exact hkept rfl ⟨rfl, rfl⟩
  · by_cases hstart : i = .encStart
    · subst hstart
      have hreset := State.childrenUnique_trieReset h.arena
      simp only [exec, execEncStart] at he
      generalize s.trieReset = u at hreset he
      cases he
      exact hreset.congr ⟨rfl, rfl⟩
    by_cases hbyte : ∃ b, i = .encByte b
    · obtain ⟨b, rfl⟩ := hbyte
      have he : execEncByte b s = .next t := he
      rcases execEncByte_frame he with ⟨hmode, _⟩ | ⟨_, rfl⟩
      · exact execEncByte_childrenUnique h hmode (hs hmode) he
      · exact hkept rfl ⟨rfl, rfl⟩
    rcases exec_dict hi hstart (not_exists.1 hbyte) he with hclosed | ⟨hmode, hdict⟩
    · exact absurd henc hclosed
    · exact hkept hmode hdict

/-! ### No command meets a broken trie (41_trie.md R133, R134) -/

/-- The phrase of a defined code begins with its node's FIRST, so it is not empty. -/
theorem State.DictInv.phrase_defined {s : State} (h : s.DictInv) {c : Code}
    (hc : c < s.nextFree) :
    ∃ n rest, s.nodeRead c = some n ∧ s.phrase c = some (n.first :: rest) := by
  obtain ⟨n, hn⟩ := h.nodeRead_defined hc
  obtain ⟨ph, hph⟩ := h.describes hn
  obtain ⟨rest, hrest⟩ := List.head?_eq_some_iff.1 hph.first
  exact ⟨n, rest, hn, hrest ▸ hph.phrase (h.nextFree.lt_nodeCount hc)⟩

/-- ExecCode's registration succeeds when the previous code is the root or defined. -/
theorem State.DictInv.learn_some {s : State} (h : s.DictInv) (hprev : s.Known s.decPrev)
    (x : Byte) : ∃ t, s.learn x = some t := by
  unfold State.learn
  split
  · rename_i hc
    obtain ⟨hroot, hfree⟩ := hc
    obtain ⟨n, hn⟩ := h.nodeRead_defined (hprev.resolve_left hroot)
    exact ⟨_, State.register_of hfree hroot hn⟩
  · exact ⟨s, rfl⟩

theorem emitPhrase_next {s : State} (h : s.DictInv) (hprev : s.Known s.decPrev) (w : Code)
    (x : Byte) (rest : List Byte) : ∃ t, emitPhrase w (some (x :: rest)) s = .next t := by
  obtain ⟨u, hu⟩ := h.learn_some hprev x
  rw [emitPhrase, hu]
  exact ⟨_, rfl⟩

/-- A literal or DICT word goes on when the previous code is the root or defined (R55 (f)). -/
theorem execCode_next {s : State} (h : s.DictInv) (hprev : s.Known s.decPrev) (w : Code) :
    ∃ t, execCode w s = .next t := by
  unfold execCode
  split
  · rename_i hw
    obtain ⟨n, rest, _, hphrase⟩ := h.phrase_defined hw
    rw [hphrase]
    exact emitPhrase_next h hprev w _ _
  split
  · rename_i hw
    obtain ⟨n, rest, _, hphrase⟩ := h.phrase_defined (hprev.resolve_left hw.2)
    rw [State.selfPhrase, hphrase]
    exact emitPhrase_next h hprev w _ _
  · exact ⟨_, rfl⟩

theorem execStreamWord_next {s : State} (h : s.DictInv) (hprev : s.Known s.decPrev) (w : Code) :
    ∃ t, execStreamWord w s = .next t := by
  unfold execStreamWord
  split
  · exact execCode_next h hprev _
  · exact ⟨_, rfl⟩
  · exact ⟨_, rfl⟩
  · exact execCode_next h hprev _

theorem execDecStep_next {s : State} (h : s.Inv) : ∃ t, execDecStep s = .next t := by
  unfold execDecStep
  split_ifs with hmode
  · exact ⟨_, rfl⟩
  · exact ⟨_, rfl⟩
  · exact ⟨_, rfl⟩
  · have hprev : s.wordTaken.Known s.wordTaken.decPrev := h.decPrev (not_not.1 hmode)
    have hdict : s.wordTaken.DictInv := h.dict.congr ⟨rfl, rfl⟩
    exact execStreamWord_next hdict hprev s.nextWord

theorem execEncByte_next {s : State} (h : s.Inv) (b : Byte) : ∃ t, execEncByte b s = .next t := by
  by_cases hmode : s.mode = .enc
  case neg => exact ⟨_, if_pos hmode⟩
  cases hc : s.child s.encCur b with
  | some c => exact ⟨_, execEncByte_of_child hmode hc⟩
  | none =>
    rw [execEncByte_of_miss hmode hc]
    by_cases hfree : s.nextFree < Config.resetCode
    · obtain ⟨u, _, hu⟩ := encMiss_of_free h hmode hc hfree
      exact ⟨_, hu⟩
    · exact ⟨_, encMiss_of_full h b hmode hfree⟩

/-- Every command goes on from a state with the invariant. -/
theorem exec_next {i : Instr} {w : CmdWord} {s : State} (hi : encode i = .command w) (h : s.Inv) :
    ∃ t, exec i s = .next t := by
  cases i with
  | lit | reset | eos | dict => cases hi
  | encByte b => exact execEncByte_next h b
  | decStep => exact execDecStep_next h
  | nop | clrErr | encStart | decStart => exact ⟨_, rfl⟩
  | pkInit | pkWrite | pkClose | upInit | upRead | encClose =>
    simp only [exec, execPkInit, execPkWrite, execPkClose, execUpInit, execUpRead, execEncClose]
    split_ifs <;> exact ⟨_, rfl⟩
  | rdReg idx =>
    show ∃ t, execRdReg idx s = .next t
    unfold execRdReg
    split <;> exact ⟨_, rfl⟩

/-- The host's step goes on, but for a second CMD (93_implementation_defined.md I13). -/
theorem hostStep_next_or_fault (s : State) :
    (∃ t, hostStep s = .next t) ∨
      (hostStep s = .fault .commandWhilePending ∧
        ∃ w rest, s.host = .cmd w :: rest ∧ s.cmd ≠ none) := by
  unfold hostStep
  split
  · exact .inl ⟨_, rfl⟩
  · rename_i a rest hhost
    cases a with
    | cmd w =>
      cases hcmd : s.cmd with
      | none => exact .inl ⟨{ s with host := rest, cmd := some w }, by simp only [hostAction]⟩
      | some v => exact .inr ⟨by simp only [hostAction], w, rest, hhost, nofun⟩
    | inPush | inFinish | inClear | takeOutput | rst => exact .inl ⟨_, rfl⟩

/-- Settles O59. -/
theorem stepNeverBreaksTrie : Obligations.StepNeverBreaksTrie := by
  intro s h
  rcases step_command_cases s with hstep | hstep | ⟨i, w, hi, hstep⟩ <;> rw [hstep]
  · exact hostStep_next_or_fault s
  · exact .inl ⟨_, rfl⟩
  · exact .inl (exec_next hi h)

end Sys2Proof.Machine

/-! PROOFS. The compressor of 42_encoder.md: ENC_START (O32), what ENC_BYTE does on a hit (O33) and
on a miss with and without a free code (O34, O35), ENC_CLOSE (O36), the stream of an empty session
(O37) and DOC's worked example in both directions (O45). -/

namespace Sys2Proof.Machine

/-! ### Opening and closing a session (42_encoder.md R151, R154) -/

theorem exec_encStart (s : State) :
    exec .encStart s = .next (({ s with
      nodes := s.nodes.restoreLiterals, nextFree := 0x100#14, encCur := 0x3FFE#14, encSat := 0#10,
      pkAcc := 0#7, pkNbits := 0#3, pkClosed := false, mode := .enc } : State).delivered
        0x00000000#32) := by
  show execEncStart s = _
  rw [execEncStart, State.trieReset]
  generalize s.nodes.restoreLiterals = m
  exact next_respond rfl

/-- Settles O32. -/
theorem encStartOpensSession : Obligations.EncStartOpensSession := fun s hwf =>
  ⟨_, exec_encStart s, Memory.read_restoreLiterals hwf⟩

/-- Settles O36. -/
theorem encCloseEndsSession : Obligations.EncCloseEndsSession := by
  intro s hmode
  show execEncClose s = _
  rw [execEncClose, if_neg (not_not.2 hmode)]
  exact next_respond rfl

/-! ### ENC_BYTE on a hit and on a miss with a free code (42_encoder.md R152) -/

/-- Settles O33. -/
theorem encByteDescends : Obligations.EncByteDescends := by
  intro s b c hmode hchild
  show execEncByte b s = _
  rw [execEncByte_of_child hmode hchild]
  exact next_respond rfl

/-- Settles O34: the miss registers a node after the word is packed, and packing leaves the arena as
it is. -/
theorem encByteRegisters : Obligations.EncByteRegisters := by
  intro s b h hmode hmiss hfree
  obtain ⟨u, hregister, hexec⟩ := encMiss_of_free h hmode hmiss hfree
  obtain ⟨_, _, p, hp, rfl⟩ := State.register_eq_some hregister
  rw [s.packWord_nodes, s.packWord_nextFree] at hexec
  rw [State.nodeRead_congr (s.packWord_nodes _) (s.packWord_nextFree _)] at hp
  refine ⟨h.encCur_lt_of_miss hmode hmiss, p, _, hp, ?_, Memory.read_write h.arena _ _⟩
  show execEncByte b s = _
  rw [execEncByte_of_miss hmode hmiss, hexec]
  generalize s.packWord s.encCur = u
  exact next_respond rfl

/-! ### ENC_BYTE on a miss with no free code (42_encoder.md R153) -/

theorem State.saturate_of_lt {s : State} (h : s.encSat < Config.satLimit) :
    s.saturate = (0, { s with encSat := s.encSat + 1#10 }) := by
  have hcount : ¬ Config.satLimit < s.encSat + 1#10 := by
    simp only [BitVec.lt_def, BitVec.toNat_add, BitVec.toNat_ofNat] at h ⊢
    omega
  rw [State.saturate, if_neg hcount]

theorem State.saturate_of_limit {s : State} (h : s.encSat = Config.satLimit) :
    s.saturate = (1, { (s.packWord Config.resetCode).trieReset with encSat := 0#10 }) := by
  rw [State.saturate, h]
  exact if_pos (show Config.satLimit < Config.satLimit + 1#10 by decide)

/-- The literal slots are never overwritten, so TrieReset moves NEXT_FREE only. -/
theorem State.DictInv.trieReset_eq {s : State} (h : s.DictInv) :
    s.trieReset = { s with nextFree := Config.firstDyn } := by
  rw [State.trieReset, Memory.restoreLiterals_eq h.arena h.literals]

/-- Settles O35, by whether the counter has reached SAT_LIMIT. -/
theorem encByteSaturates : Obligations.EncByteSaturates := by
  intro s b h hmode hmiss hfull
  have hfull : ¬ s.nextFree < Config.resetCode := hfull ▸ BitVec.lt_irrefl 0x3FFE#14
  have hexec : exec (.encByte b) s = _ :=
    (execEncByte_of_miss hmode hmiss).trans (encMiss_of_full h b hmode hfull)
  rw [hexec, ← s.packWord_encSat s.encCur]
  constructor
  · intro hsat
    rw [State.saturate_of_lt hsat]
    exact next_respond (v := 1#16) rfl
  · intro hsat
    have hdict := ((h.packWord s.encCur).packWord Config.resetCode).dict
    rw [State.saturate_of_limit hsat, hdict.trieReset_eq]
    exact next_respond (v := 2#16) rfl

/-! ### The empty session (42_encoder.md R157) -/

/-- The root's code, EOS and four pad bits are 32 bits: the bytes FF FB FF F0, then the sentinel. -/
theorem State.outw_rootCode_eos_close {s : State} (hacc : s.pkAcc = 0#7) (hn : s.pkNbits = 0#3) :
    ((s.packWord 0x3FFE#14).packWord 0x3FFF#14).packClose.outw =
      s.outw ++ [0xFF#8, 0xFB#8, 0xFF#8, 0xF0#8, 0x00#8] := by
  have hroot : s.packedBytes 0x3FFE#14 = [0xFF#8] := by
    rw [State.packedBytes, State.packTotal, hacc, hn]
    rfl
  have hrootAcc : (s.packWord 0x3FFE#14).pkAcc = 0x3E#7 := by
    rw [State.packWord_pkAcc, State.packTotal, hacc, hn]
    rfl
  have hrootBits : (s.packWord 0x3FFE#14).pkNbits = 6#3 := by
    rw [State.packWord_pkNbits, hn]
    rfl
  generalize hu : s.packWord 0x3FFE#14 = u at *
  have heos : u.packedBytes 0x3FFF#14 = [0xFB#8, 0xFF#8] := by
    rw [State.packedBytes, State.packTotal, hrootAcc, hrootBits]
    rfl
  have hclose : (u.packWord 0x3FFF#14).closeBytes = [0xF0#8, 0x00#8] := by
    rw [State.closeBytes, State.packWord_pkAcc, State.packWord_pkNbits, State.packTotal, hrootAcc,
      hrootBits]
    rfl
  rw [State.packClose_outw, State.packWord_outw, heos, hclose, ← hu, State.packWord_outw, hroot]
  simp only [List.append_assoc, List.cons_append, List.nil_append]

theorem exec_encStart_fresh (s : State) : ∃ u, exec .encStart s = .next u ∧ u.mode = .enc ∧
    u.encCur = 0x3FFE#14 ∧ u.pkAcc = 0#7 ∧ u.pkNbits = 0#3 ∧ u.outw = s.outw :=
  ⟨_, exec_encStart s, rfl, rfl, rfl, rfl, rfl⟩

theorem execAll_cons_of_next {i : Instr} {is : List Instr} {s t : State} (h : exec i s = .next t) :
    execAll (i :: is) s = execAll is t := by
  rw [execAll, h]

/-- Settles O37. -/
theorem emptySessionStream : Obligations.EmptySessionStream := by
  intro s
  obtain ⟨u, hstart, hmode, hcur, hacc, hn, hout⟩ := exec_encStart_fresh s
  have hclose := encCloseEndsSession u hmode
  rw [hcur] at hclose
  refine ⟨_, (execAll_cons_of_next hstart).trans (execAll_cons_of_next hclose), ?_⟩
  rw [← hout]
  exact State.outw_rootCode_eos_close hacc hn

/-! ### DOC's worked example (43_decoder.md R177) -/

/-- The next state of an outcome, if it is one: what a run of fixed instructions evaluates to. -/
def nextState (r : Result) : Option State :=
  match r with
  | .next t => some t
  | .fault _ => none
  | .refused _ => none

theorem exists_next_of_nextState {α : Type} {r : Result} {f : State → α} {v : α}
    (h : (nextState r).map f = some v) : ∃ t, r = .next t ∧ f t = v := by
  cases r with
  | next t => exact ⟨t, rfl, Option.some.inj h⟩
  | fault => cases h
  | refused => cases h

/-- The bytes of DOC's example, compressed: the words 0001, 0002, 0101 and 3FFF, and the sentinel
(95_test_vectors.md V-SRC-1). -/
def docStream : List Byte :=
  [0x00#8, 0x04#8, 0x00#8, 0x20#8, 0x40#8, 0x7F#8, 0xFF#8, 0x00#8]

theorem docStream_compressed :
    (nextState (execAll
      [.encStart, .encByte 1#8, .encByte 2#8, .encByte 2#8, .encByte 2#8, .encClose]
      State.reset)).map State.outw = some docStream := by
  decide +kernel

theorem docStream_decompressed :
    (nextState (execAll [.decStart, .decStep, .decStep, .decStep, .decStep]
      { State.reset with inq := docStream })).map
        (fun t => (t.outd, t.mode, t.nextFree, t.decPrev, t.inq)) =
      some ([1#8, 2#8, 2#8, 2#8], .decDone, 0x102#14, 0x101#14, [0x00#8]) := by
  decide +kernel

/-- Settles O45, by evaluating the two runs. -/
theorem docExampleBothWays : Obligations.DocExampleBothWays := by
  refine ⟨exists_next_of_nextState docStream_compressed, ?_⟩
  obtain ⟨t, hrun, hview⟩ := exists_next_of_nextState docStream_decompressed
  simp only [Prod.mk.injEq] at hview
  exact ⟨t, hrun, hview⟩

end Sys2Proof.Machine

/-! PROOFS. The decompressor of 43_decoder.md, first part: DEC_START (O38), the control words (O44), a
code with no phrase (O43), a code with one (O41, O42), DEC_STEP on each of them (O40), and an
instruction placed where the next step takes it (O8). -/

namespace Sys2Proof.Machine

/-! ### Opening a session and the control words (43_decoder.md R170, R172, R173) -/

theorem exec_decStart (s : State) :
    exec .decStart s = .next (({ s with
      nodes := s.nodes.restoreLiterals, nextFree := 0x100#14, decPrev := 0x3FFE#14, upBuf := 0#8,
      upAvail := 0#4, mode := .dec } : State).delivered 0x00000000#32) := by
  show execDecStart s = _
  rw [execDecStart, State.trieReset]
  generalize s.nodes.restoreLiterals = m
  exact next_respond rfl

/-- Settles O38. -/
theorem decStartOpensSession : Obligations.DecStartOpensSession := fun s hwf =>
  ⟨_, exec_decStart s, Memory.read_restoreLiterals hwf⟩

theorem exec_reset (s : State) :
    exec .reset s = .next (({ s with
      nodes := s.nodes.restoreLiterals, nextFree := 0x100#14,
      decPrev := 0x3FFE#14 } : State).delivered 0x02000000#32) := by
  show execReset s = _
  rw [execReset, State.trieReset]
  generalize s.nodes.restoreLiterals = m
  exact next_respond rfl

theorem exec_eos (s : State) :
    exec .eos s = .next (({ s with mode := .decDone } : State).delivered 0x03000000#32) :=
  next_respond rfl

/-- Settles O44. -/
theorem resetAndEosWordsComplete : Obligations.ResetAndEosWordsComplete := fun s =>
  ⟨fun hwf => ⟨_, exec_reset s, Memory.read_restoreLiterals hwf⟩, exec_eos s⟩

/-! ### A code without a phrase (43_decoder.md R175) -/

/-- The stream words below the control codes are LIT and DICT, and both are ExecCode. -/
theorem exec_eq_execCode {i : Instr} {w : Code} (henc : encode i = .stream w)
    (hw : w < Config.resetCode) (s : State) : exec i s = execCode w s := by
  cases i with
  | lit b =>
    cases henc
    rfl
  | dict c =>
    cases henc
    rfl
  | reset =>
    cases henc
    exact absurd hw (by decide)
  | eos =>
    cases henc
    exact absurd hw (by decide)
  | _ => cases henc

/-- Settles O43. -/
theorem invalidCodeStops : Obligations.InvalidCodeStops := by
  intro s i w _ henc hw hbad
  obtain ⟨_, hunknown, hnew⟩ : ¬ Config.resetCode ≤ w ∧ ¬ w < s.nextFree ∧
      ¬ (w = s.nextFree ∧ s.decPrev ≠ Config.rootCode) := by
    simpa only [State.decodable, not_or] using hbad
  rw [exec_eq_execCode henc hw, execCode, if_neg hunknown, if_neg hnew]
  exact next_raise rfl rfl

/-! ### A code with a phrase (43_decoder.md R174) -/

/-- ph is the phrase ExecCode outputs for w: that of a defined code, or the last phrase and its own
first byte for the code about to be created. -/
def State.Outputs (s : State) (w : Code) (ph : List Byte) : Prop :=
  (w < s.nextFree ∧ s.phrase w = some ph) ∨
    (w = s.nextFree ∧ s.decPrev ≠ Config.rootCode ∧ s.selfPhrase = some ph)

theorem State.Outputs.execCode_eq {s : State} {w : Code} {ph : List Byte} (h : s.Outputs w ph) :
    execCode w s = emitPhrase w (some ph) s := by
  rcases h with ⟨hw, hphrase⟩ | ⟨hw, hprev, hself⟩
  · rw [execCode, if_pos hw, hphrase]
  · rw [execCode, if_neg (hw ▸ BitVec.lt_irrefl _), if_pos ⟨hw, hprev⟩, hself]

theorem State.selfPhrase_of_phrase {s : State} {x : Byte} {rest : List Byte}
    (h : s.phrase s.decPrev = some (x :: rest)) : s.selfPhrase = some (x :: rest ++ [x]) := by
  rw [State.selfPhrase, h]

/-- A code with a known phrase, or the next one after a previous code, outputs at least one byte. -/
theorem State.DictInv.outputs {s : State} (h : s.DictInv) (hprev : s.Known s.decPrev) {w : Code}
    (hw : w < s.nextFree ∨ (w = s.nextFree ∧ s.decPrev ≠ Config.rootCode)) :
    ∃ x rest, s.Outputs w (x :: rest) := by
  rcases hw with hw | ⟨hw, hroot⟩
  · obtain ⟨n, rest, _, hphrase⟩ := h.phrase_defined hw
    exact ⟨n.first, rest, .inl ⟨hw, hphrase⟩⟩
  · obtain ⟨n, rest, _, hphrase⟩ := h.phrase_defined (hprev.resolve_left hroot)
    exact ⟨n.first, rest ++ [n.first], .inr ⟨hw, hroot, State.selfPhrase_of_phrase hphrase⟩⟩

/-- The response of a code whose phrase has `length` bytes (30_encoding.md R96, R97). -/
def codeResponse (w : Code) (length : Nat) : RespWord :=
  respWord 0#4 (if w.toNat < 0x100 then 0#4 else 1#4) (BitVec.ofNat 16 length)

/-- ExecCode when the phrase is known and the registration, if any, leads to u. -/
theorem State.Outputs.execCode_next {s u : State} {w : Code} {x : Byte} {rest : List Byte}
    (h : s.Outputs w (x :: rest)) (hl : s.learn x = some u) :
    execCode w s = .next (({ u with outd := u.outd ++ x :: rest, decPrev := w } : State).delivered
      (codeResponse w (rest.length + 1))) := by
  rw [h.execCode_eq, emitPhrase, hl]
  refine next_respond ?_
  rw [codeResponse, apply_ite kindOf]
  rfl

/-- ExecCode's registration is what State.Learned says. -/
theorem State.learned_of_learn {s u : State} {x : Byte} (hwf : s.nodes.wf = true)
    (h : s.learn x = some u) :
    ∃ m nf, u = { s with nodes := m, nextFree := nf } ∧ s.Learned x m nf := by
  rcases State.learn_cases h with hr | ⟨hnone, rfl⟩
  · obtain ⟨hfree, hprev, p, hp, rfl⟩ := State.register_eq_some hr
    refine ⟨_, _, rfl, ?_⟩
    rw [State.Learned, if_pos ⟨hprev, hfree⟩]
    exact ⟨rfl, p, hp, Memory.read_write hwf _ _⟩
  · refine ⟨_, _, rfl, ?_⟩
    rw [State.Learned, if_neg hnone]
    exact ⟨rfl, rfl⟩

/-- Settles O41. -/
theorem knownCodeDecodes : Obligations.KnownCodeDecodes := by
  intro s i w h hmode _ henc hw hcode
  obtain ⟨n, rest, _, hphrase⟩ := h.dict.phrase_defined hw
  obtain ⟨u, hl⟩ := h.dict.learn_some (h.decPrev hmode) n.first
  obtain ⟨m, nf, rfl, hlearned⟩ := State.learned_of_learn h.arena hl
  have hout : s.Outputs w (n.first :: rest) := .inl ⟨hw, hphrase⟩
  exact ⟨n.first, rest, m, nf, hphrase, hlearned,
    (exec_eq_execCode henc hcode s).trans (hout.execCode_next hl)⟩

/-- A registration defines the next free code, with the parent's phrase and the byte
(41_trie.md R133). -/
theorem State.DictInv.phrase_new {s t : State} (h : s.DictInv) {p : Code} {b : Byte}
    (hr : s.register p b = some t) :
    ∃ ph, s.phrase p = some ph ∧ t.phrase s.nextFree = some (ph ++ [b]) := by
  obtain ⟨hfree, _, n, hn, _⟩ := State.register_eq_some hr
  have hread := State.nodeRead_registered h.arena hr hn s.nextFree
  rw [if_pos rfl] at hread
  obtain ⟨ph, hph⟩ := (h.register hr).describes hread
  refine ⟨ph, ?_, hph.phrase hfree⟩
  exact (h.phrase_registered hr (State.nodeRead_lt hn)).symm.trans hph.parentPhrase

/-- Settles O42: the code output is the one that the registration defines. -/
theorem selfReferenceDecodes : Obligations.SelfReferenceDecodes := by
  intro s h hmode hprev hfree
  have hdefined : s.decPrev < s.nextFree := (h.decPrev hmode).resolve_left hprev
  obtain ⟨n, rest, _, hphrase⟩ := h.dict.phrase_defined hdefined
  have hout : s.Outputs s.nextFree (n.first :: (rest ++ [n.first])) :=
    .inr ⟨rfl, hprev, State.selfPhrase_of_phrase hphrase⟩
  obtain ⟨u, hl⟩ := h.dict.learn_some (h.decPrev hmode) n.first
  have hr : s.register s.decPrev n.first = some u := (if_pos ⟨hprev, hfree⟩).symm.trans hl
  obtain ⟨ph, hph, hnew⟩ := h.dict.phrase_new hr
  cases hphrase.symm.trans hph
  have hexec := hout.execCode_next hl
  obtain ⟨m, nf, rfl, hlearned⟩ := State.learned_of_learn h.arena hl
  refine ⟨n.first, rest, m, nf, _, hphrase, hlearned, hexec, ?_, ?_⟩
  · have hlo : ¬ s.nextFree.toNat < 0x100 := Nat.not_lt.2 h.nextFree.1
    rw [codeResponse, if_neg hlo, List.length_append]
    rfl
  · refine (State.phrase_congr (fun c => ?_) _).trans hnew
    exact State.nodeRead_congr rfl rfl c

/-! ### DEC_STEP on a word that it can execute (43_decoder.md R171) -/

/-- The encoding of the instruction a stream word decodes to is that word (R82). -/
theorem encode_decodeStream (w : Code) : encode (decodeStream w) = .stream w :=
  ((decodeStream_eq_iff w _).1 rfl).2

/-- A control code is Reset's or EOS's (30_encoding.md R81). -/
theorem control_cases {w : Code} (h : Config.resetCode ≤ w) :
    w = Config.resetCode ∨ w = Config.eosCode := by
  have hreset : w = Config.resetCode ↔ w.toNat = 0x3FFE := BitVec.toNat_inj.symm
  have heos : w = Config.eosCode ↔ w.toNat = 0x3FFF := BitVec.toNat_inj.symm
  have hlo : 0x3FFE ≤ w.toNat := h
  have := Code.lt w
  rw [hreset, heos]
  omega

/-- A word the decompressor can execute completes without error, and writes the dictionary, OUTD,
DEC_PREV and MODE only. -/
theorem exec_of_decodable {s : State} (h : s.DictInv) (hprev : s.Known s.decPrev) {w : Code}
    (hw : s.decodable w) :
    ∃ m nf out prev mode r, errField r = 0#4 ∧ exec (decodeStream w) s =
      .next (({ s with nodes := m, nextFree := nf, outd := out, decPrev := prev,
                       mode := mode } : State).delivered r) := by
  by_cases hcode : w < Config.resetCode
  · obtain ⟨x, rest, hout⟩ := h.outputs hprev (hw.resolve_left (BitVec.not_le.2 hcode))
    obtain ⟨u, hl⟩ := h.learn_some hprev x
    have hexec := hout.execCode_next hl
    obtain ⟨m, nf, rfl⟩ := State.learn_frame hl
    exact ⟨m, nf, _, w, s.mode, _, errField_respWord ..,
      (exec_eq_execCode (encode_decodeStream w) hcode s).trans hexec⟩
  · rcases control_cases (BitVec.not_lt.1 hcode) with rfl | rfl
    · exact ⟨_, _, _, _, _, 0x02000000#32, by decide, exec_reset s⟩
    · exact ⟨_, _, _, _, _, 0x03000000#32, by decide, exec_eos s⟩

/-- Settles O40. -/
theorem decStepCompletes : Obligations.DecStepCompletes := by
  intro s h hmode hready hw
  have hdict : s.wordTaken.DictInv := h.dict.congr ⟨rfl, rfl⟩
  have hprev : s.wordTaken.Known s.wordTaken.decPrev := h.decPrev hmode
  have hword : s.wordTaken.decodable s.nextWord := hw
  obtain ⟨m, nf, out, prev, mode, r, hr, hexec⟩ := exec_of_decodable hdict hprev hword
  exact ⟨_, r, (exec_decStep_of_ready hmode hready).trans hexec, hr, rfl⟩

/-! ### An instruction placed where the next step takes it (20_memory.md R66; log 25) -/

/-- When the bits still to give begin with w's, UnpackWord returns w and leaves the others. -/
theorem State.nextWord_of_pendingInput {s : State} {w : Code} {tail : List Bool}
    (ha : s.upAvail.toNat < 8) (hbits : s.pendingInput = msbBits 14 w.toNat ++ tail) :
    s.wordReady ∧ s.nextWord = w ∧ s.wordTaken.upAvail.toNat < 8 ∧
      s.wordTaken.pendingInput = tail := by
  have hready : s.wordReady := by
    have hlen := congrArg List.length hbits
    rw [State.pendingInput_length ha.le, List.length_append, msbBits_length] at hlen
    rw [State.wordReady_iff]
    omega
  obtain ⟨hleft, htaken⟩ := State.wordTaken_pendingInput ha.le hready
  obtain ⟨hword, hrest⟩ := List.append_inj (hbits.symm.trans htaken)
    (by rw [msbBits_length, msbBits_length])
  have hword := msbBits_injective (Code.lt w) (Code.lt s.nextWord) hword
  exact ⟨hready, (BitVec.eq_of_toNat_eq hword).symm, hleft, hrest.symm⟩

theorem streamBytes_eq (w : Code) :
    streamBytes w = [w.extractLsb' 6 8, w.extractLsb' 0 6 ++ 0#2] := rfl

/-- A word's two bytes are its bits and two bits of 0. -/
theorem streamBits_streamBytes (w : Code) :
    streamBits (streamBytes w) = msbBits 14 w.toNat ++ msbBits 2 0 := by
  have hhigh : (w.extractLsb' 6 8).toNat = w.toNat >>> 6 % 2 ^ 8 := BitVec.extractLsb'_toNat ..
  have hlow : (w.extractLsb' 0 6 ++ 0#2).toNat = w.toNat % 2 ^ 6 * 2 ^ 2 + 0 := by
    rw [append_toNat, field_toNat, Nat.pow_zero, Nat.div_one, BitVec.toNat_ofNat, Nat.zero_mod]
  calc streamBits (streamBytes w)
      = msbBits 8 (w.extractLsb' 6 8).toNat ++ msbBits 8 (w.extractLsb' 0 6 ++ 0#2).toNat := by
        rw [streamBytes_eq, streamBits_cons, streamBits_cons, streamBits_nil, List.append_nil]
    _ = msbBits 8 (w.toNat >>> 6) ++ (msbBits 6 w.toNat ++ msbBits 2 0) := by
        rw [hhigh, hlow, msbBits_mod, msbBits_glue 6 2 _ 0 (by decide), msbBits_mod]
    _ = msbBits 14 w.toNat ++ msbBits 2 0 := by rw [← List.append_assoc, ← msbBits_add]

theorem getLast?_streamBytes (w : Code) :
    (streamBytes w).getLast? = some (w.setWidth 8 <<< 2) := by
  have hlast : w.extractLsb' 0 6 ++ 0#2 = w.setWidth 8 <<< 2 := by
    apply BitVec.eq_of_toNat_eq
    rw [append_toNat, field_toNat, BitVec.toNat_shiftLeft, BitVec.toNat_setWidth,
      Nat.shiftLeft_eq, BitVec.toNat_ofNat]
    omega
  rw [streamBytes_eq, ← hlast]
  rfl

/-- From a byte boundary, a word's two bytes at the front of IN are the next word, and taking it leaves
the rest of IN and the two bits of 0 in UP_BUF. -/
theorem State.wordTaken_of_streamBytes {s : State} {w : Code} {rest : List Byte}
    (ha : s.upAvail = 0#4) (hin : s.inq = streamBytes w ++ rest) :
    s.wordReady ∧ s.nextWord = w ∧
      s.wordTaken = { s with upBuf := w.setWidth 8 <<< 2, upAvail := 2#4, inq := rest } := by
  have ha : s.upAvail.toNat = 0 := congrArg BitVec.toNat ha
  have hbits : s.pendingInput = msbBits 14 w.toNat ++ (msbBits 2 0 ++ streamBits rest) := by
    rw [State.pendingInput_eq (by omega), ha, hin, streamBits_append, streamBits_streamBytes,
      msbBits_zero, List.nil_append, List.append_assoc]
  obtain ⟨hready, hword, _, _⟩ := State.nextWord_of_pendingInput (by omega) hbits
  obtain ⟨taken, htaken, hlen, hlast, havail, _⟩ := State.wordTaken_bytes (by omega) hready
  rw [ha] at hlen havail
  obtain ⟨rfl, hrest⟩ := List.append_inj (hin.symm.trans htaken) hlen.symm
  have hleft : s.wordTaken.upAvail = 2#4 := BitVec.eq_of_toNat_eq (show _ = 2 by omega)
  have hbuf := Option.some.inj ((getLast?_streamBytes w).symm.trans hlast)
  refine ⟨hready, hword, ?_⟩
  rw [hbuf, ← hleft, hrest]
  rfl

/-- Settles O8: a command does not hold by hypothesis, and DEC_STEP does not because the word is
there. -/
theorem placedInstructionRuns : Obligations.PlacedInstructionRuns := by
  intro s i hwf
  constructor
  · intro w henc hrun
    rw [henc] at hrun ⊢
    have hd : decode (.command w) = .ok i := (decode_eq_ok_iff _ i).2 ⟨hwf, henc⟩
    rw [step_of_decode rfl hd, hrun]
    rfl
  · intro w henc
    obtain ⟨hready, hword, htaken⟩ := State.wordTaken_of_streamBytes
      (s := s.placeEncoded (.stream w)) (w := w) (rest := s.inq) rfl rfl
    have hd : decode (.command (commandWord 0x21#8 noOperand)) = .ok .decStep := by decide
    have hrun : holds .decStep (s.placeEncoded (.stream w)) = false := by
      simp [holds, State.wordHeld_of_ready hready]
    have hexec := exec_decStep_of_ready (s := s.placeEncoded (.stream w)) rfl hready
    rw [hword, htaken, (decodeStream_eq_iff w i).2 ⟨hwf, henc⟩] at hexec
    rw [henc, step_of_decode rfl hd, hrun]
    exact hexec

end Sys2Proof.Machine

/-! PROOFS. The decompressor of 43_decoder.md, second part: it inverts the compressor (O46). The
decompressor's trie follows the compressor's: it learns from each word the node that the compressor
registered when it emitted the word before. -/

namespace Sys2Proof.Machine

/-! ### Equal tries -/

/-- The same codes are defined in s and t, with the same nodes. -/
def State.SameTrie (s t : State) : Prop :=
  s.nextFree = t.nextFree ∧ ∀ c, s.nodeRead c = t.nodeRead c

theorem State.SameDict.sameTrie {s t : State} (h : s.SameDict t) : s.SameTrie t :=
  ⟨h.2.symm, fun c => (State.nodeRead_congr h.1 h.2 c).symm⟩

theorem State.SameTrie.symm {s t : State} (h : s.SameTrie t) : t.SameTrie s :=
  ⟨h.1.symm, fun c => (h.2 c).symm⟩

theorem State.SameTrie.trans {s t u : State} (h : s.SameTrie t) (h' : t.SameTrie u) :
    s.SameTrie u :=
  ⟨h.1.trans h'.1, fun c => (h.2 c).trans (h'.2 c)⟩

theorem State.SameTrie.phrase {s t : State} (h : s.SameTrie t) (c : Code) :
    s.phrase c = t.phrase c := State.phrase_congr h.2 c

/-- The same registration leaves equal tries equal (41_trie.md R133). -/
theorem State.SameTrie.register {s t u : State} {p : Code} {b : Byte} (h : s.SameTrie t)
    (hs : s.nodes.wf = true) (ht : t.nodes.wf = true) (hr : s.register p b = some u) :
    ∃ v, t.register p b = some v ∧ u.SameTrie v := by
  obtain ⟨hfree, hroot, n, hn, hu⟩ := State.register_eq_some hr
  obtain ⟨hnf, hread⟩ := h
  have hn' : t.nodeRead p = some n := hread p ▸ hn
  have hr' := State.register_of (b := b) (hnf ▸ hfree) hroot hn'
  refine ⟨_, hr', by rw [hu, hnf], fun c => ?_⟩
  rw [State.nodeRead_registered hs hr hn, State.nodeRead_registered ht hr' hn', hnf, hread]

theorem State.SameTrie.learn {s t u : State} {x : Byte} (h : s.SameTrie t)
    (hs : s.nodes.wf = true) (ht : t.nodes.wf = true) (hprev : t.decPrev = s.decPrev)
    (hl : s.learn x = some u) : ∃ v, t.learn x = some v ∧ u.SameTrie v := by
  unfold State.learn at hl ⊢
  rw [hprev, ← h.1]
  split_ifs at hl ⊢
  · exact h.register hs ht hl
  · cases hl
    exact ⟨t, rfl, h⟩

/-- Two tries of literals alone are equal (41_trie.md R131). -/
theorem State.DictInv.sameTrie_of_literals {s t : State} (hs : s.DictInv) (ht : t.DictInv)
    (hsf : s.nextFree = Config.firstDyn) (htf : t.nextFree = Config.firstDyn) : s.SameTrie t := by
  refine ⟨hsf.trans htf.symm, fun c => ?_⟩
  by_cases hc : c.toNat < Config.literalLimit
  · rw [hs.nodeRead_literal hc, ht.nodeRead_literal hc]
  · rw [State.nodeRead_of_not_lt (hsf ▸ hc), State.nodeRead_of_not_lt (htf ▸ hc)]

/-- The arena TrieReset leaves has the invariant (41_trie.md R131). -/
theorem State.dictInv_restored {s : State} (h : s.nodes.wf = true) :
    ({ s with nodes := s.nodes.restoreLiterals, nextFree := Config.firstDyn } : State).DictInv :=
  State.dictInv_of_literals (Memory.wf_restoreLiterals h)
    (Memory.read_restoreLiterals_literal h)

theorem State.dictInv_trieReset {s : State} (h : s.nodes.wf = true) : s.trieReset.DictInv := by
  rw [State.trieReset]
  exact State.dictInv_restored h

/-! ### Phrases of children and literals -/

theorem State.phrase_root (s : State) : s.phrase Config.rootCode = some [] := s.phraseWalk_root _

/-- A child's phrase is its parent's and the byte (41_trie.md R134). -/
theorem State.DictInv.phrase_child {s : State} (h : s.DictInv) {p c : Code} {b : Byte}
    (hc : s.IsChild p b c) : ∃ ph, s.phrase p = some ph ∧ s.phrase c = some (ph ++ [b]) := by
  obtain ⟨n, hn, rfl, rfl⟩ := hc
  obtain ⟨ph, hph⟩ := h.describes hn
  exact ⟨ph, hph.parentPhrase, hph.phrase (h.nextFree.lt_nodeCount (State.nodeRead_lt hn))⟩

theorem State.DictInv.isChild_literal {s : State} (h : s.DictInv) (b : Byte) :
    s.IsChild Config.rootCode b (b.setWidth Config.wordBits) :=
  ((State.child_eq_some_iff _).1 (h.child_root b)).1

theorem State.DictInv.phrase_literal {s : State} (h : s.DictInv) (b : Byte) :
    s.phrase (b.setWidth Config.wordBits) = some [b] := by
  obtain ⟨ph, hroot, hphrase⟩ := h.phrase_child (h.isChild_literal b)
  cases s.phrase_root.symm.trans hroot
  exact hphrase

/-! ### The decompressor follows the compressor -/

/-- The phrase of p is empty or begins with x. -/
def State.Begins (e : State) (p : Code) (x : Byte) : Prop :=
  ∃ ph, e.phrase p = some ph ∧ ∀ y, ph.head? = some y → y = x

/-- A decompressor d follows a compressor e whose position is p: once d has learnt the first byte of
p's phrase, it has e's trie. -/
structure State.Follows (d e : State) (p : Code) : Prop where
  mode : d.mode = .dec
  dict : d.DictInv
  learns : ∀ x, e.Begins p x → ∃ u, d.learn x = some u ∧ e.SameTrie u

/-- A decompressor d has just decoded the word p that the compressor e emitted, and has e's trie. -/
structure State.CaughtUp (d e : State) (p : Code) : Prop where
  mode : d.mode = .dec
  dict : d.DictInv
  decPrev : d.decPrev = p
  trie : e.SameTrie d

theorem State.Begins.congr {e e' : State} {p : Code} {x : Byte} (h : e.Begins p x)
    (he : e.SameTrie e') : e'.Begins p x := by
  rwa [State.Begins, ← he.phrase]

theorem State.Follows.congr {d e e' : State} {p : Code} (h : d.Follows e p)
    (he : e.SameTrie e') : d.Follows e' p where
  mode := h.mode
  dict := h.dict
  learns x hx := by
    obtain ⟨u, hl, hu⟩ := h.learns x (hx.congr he.symm)
    exact ⟨u, hl, he.symm.trans hu⟩

theorem State.CaughtUp.congr {d e e' : State} {p : Code} (h : d.CaughtUp e p)
    (he : e.SameTrie e') : d.CaughtUp e' p :=
  { h with trie := he.symm.trans h.trie }

/-- What the decompressor's ports hold makes no difference. -/
theorem State.Follows.congr_ports {d d' e : State} {p : Code} (h : d.Follows e p)
    (hd : d.SameDict d') (hmode : d'.mode = d.mode) (hprev : d'.decPrev = d.decPrev) :
    d'.Follows e p where
  mode := hmode.trans h.mode
  dict := h.dict.congr hd
  learns x hx := by
    obtain ⟨u, hl, hu⟩ := h.learns x hx
    obtain ⟨v, hl', hv⟩ :=
      hd.sameTrie.learn h.dict.arena (h.dict.congr hd).arena hprev hl
    exact ⟨v, hl', hu.trans hv⟩

theorem State.learn_of_nothing {s : State}
    (h : ¬ (s.decPrev ≠ Config.rootCode ∧ s.nextFree < Config.resetCode)) (x : Byte) :
    s.learn x = some s := if_neg h

/-- With no previous code, equal tries follow. -/
theorem State.follows_of_no_previous {d e : State} (hmode : d.mode = .dec) (hd : d.DictInv)
    (hprev : d.decPrev = Config.rootCode) (h : e.SameTrie d) (p : Code) : d.Follows e p where
  mode := hmode
  dict := hd
  learns x _ := ⟨d, State.learn_of_nothing (fun hn => hn.1 hprev) x, h⟩

/-- A descent emits nothing and keeps the first byte of the phrase. -/
theorem State.Follows.descend {d e : State} {p c : Code} {b : Byte} (h : d.Follows e p)
    (he : e.DictInv) (hc : e.IsChild p b c) : d.Follows e c where
  mode := h.mode
  dict := h.dict
  learns x hx := by
    obtain ⟨ph, hp, hphrase⟩ := he.phrase_child hc
    obtain ⟨ph', hph', hfirst⟩ := hx
    cases hphrase.symm.trans hph'
    refine h.learns x ⟨ph, hp, fun y hy => hfirst y ?_⟩
    rw [List.head?_append, hy, Option.some_or]

/-- The compressor registers (p, b) and moves to the literal b: the decompressor learns it when the
next phrase turns out to begin with b. -/
theorem State.CaughtUp.register {d e e' : State} {p : Code} {b : Byte} (h : d.CaughtUp e p)
    (he : e.DictInv) (hr : e.register p b = some e') :
    d.Follows e' (b.setWidth Config.wordBits) where
  mode := h.mode
  dict := h.dict
  learns x hx := by
    obtain ⟨hfree, hroot, _⟩ := State.register_eq_some hr
    obtain ⟨ph, hph, hfirst⟩ := hx
    cases ((he.register hr).phrase_literal b).symm.trans hph
    cases hfirst b rfl
    obtain ⟨u, hu, hsame⟩ := h.trie.register he.arena h.dict.arena hr
    refine ⟨u, ?_, hsame⟩
    rw [State.learn, h.decPrev, ← h.trie.1, if_pos ⟨hroot, hfree⟩, hu]

/-- With no free code neither side registers. -/
theorem State.CaughtUp.follows_of_full {d e : State} {p : Code} (h : d.CaughtUp e p)
    (hfull : ¬ e.nextFree < Config.resetCode) (q : Code) : d.Follows e q where
  mode := h.mode
  dict := h.dict
  learns x _ := ⟨d, State.learn_of_nothing (fun hn => hfull (h.trie.1 ▸ hn.2)) x, h.trie⟩

/-- ExecCode's registration keeps the dictionary's invariant. -/
theorem State.DictInv.learn {s t : State} (h : s.DictInv) {x : Byte} (hl : s.learn x = some t) :
    t.DictInv := by
  rcases State.learn_cases hl with hr | ⟨_, rfl⟩
  · exact h.register hr
  · exact h

/-- The phrase of a code that is defined once x is learnt is the phrase ExecCode outputs for it before,
if it begins with x. -/
theorem State.DictInv.outputs_of_learn {d u : State} (h : d.DictInv) {x : Byte} {rest : List Byte}
    {w : Code} (hl : d.learn x = some u) (hw : w < u.nextFree)
    (hphrase : u.phrase w = some (x :: rest)) : d.Outputs w (x :: rest) := by
  rcases State.learn_cases hl with hr | ⟨_, rfl⟩
  case inr => exact .inl ⟨hw, hphrase⟩
  have hw' : w.toNat < d.nextFree.toNat + 1 := State.register_nextFree hr ▸ hw
  by_cases hnew : w = d.nextFree
  · subst hnew
    obtain ⟨_, hprev, n, hn, _⟩ := State.register_eq_some hr
    obtain ⟨m, tail, _, hlast⟩ := h.phrase_defined (State.nodeRead_lt hn)
    obtain ⟨ph, hph, hself⟩ := h.phrase_new hr
    cases hlast.symm.trans hph
    have heq := Option.some.inj (hphrase.symm.trans hself)
    obtain ⟨rfl, htail⟩ := List.cons.inj heq
    exact .inr ⟨rfl, hprev, (State.selfPhrase_of_phrase hlast).trans (hself.symm.trans hphrase)⟩
  · have hne : w.toNat ≠ d.nextFree.toNat := fun e => hnew (BitVec.eq_of_toNat_eq e)
    have hold : w < d.nextFree := BitVec.lt_def.2 (by omega)
    exact .inl ⟨hold, (h.phrase_registered hr hold).symm.trans hphrase⟩

/-- The word of the compressor's position decodes to its phrase. -/
theorem State.Follows.exec_word {d e : State} {p : Code} (h : d.Follows e p) (he : e.DictInv)
    (hp : p < e.nextFree) :
    ∃ t m nf ph, e.phrase p = some ph ∧ exec (decodeStream p) d = .next t ∧ t.CaughtUp e p ∧
      t = ({ d with
        nodes := m, nextFree := nf, outd := d.outd ++ ph, decPrev := p } : State).delivered
          (codeResponse p ph.length) := by
  obtain ⟨n, rest, _, hphrase⟩ := he.phrase_defined hp
  have hbegins : e.Begins p n.first := ⟨_, hphrase, fun y hy => (Option.some.inj hy).symm⟩
  obtain ⟨u, hl, hsame⟩ := h.learns n.first hbegins
  have hout := h.dict.outputs_of_learn hl (hsame.1 ▸ hp) ((hsame.phrase p).symm.trans hphrase)
  have hcode : p < Config.resetCode := BitVec.lt_def.2 (Nat.lt_of_lt_of_le hp he.nextFree.2)
  have hexec := (exec_eq_execCode (encode_decodeStream p) hcode d).trans (hout.execCode_next hl)
  have hu := h.dict.learn hl
  obtain ⟨m, nf, rfl⟩ := State.learn_frame hl
  exact ⟨_, m, nf, _, hphrase, hexec, ⟨h.mode, hu.congr ⟨rfl, rfl⟩, rfl,
    hsame.trans (State.SameDict.sameTrie ⟨rfl, rfl⟩)⟩, rfl⟩

/-! ### DEC_STEPs over a packed stream -/

/-- The unpacker has `bits` to give, less than a byte of them from UP_BUF. -/
def State.Reading (s : State) (bits : List Bool) : Prop :=
  s.upAvail.toNat < 8 ∧ s.pendingInput = bits

theorem State.Reading.congr {s t : State} {bits : List Bool} (h : s.Reading bits)
    (hbuf : t.upBuf = s.upBuf) (havail : t.upAvail = s.upAvail) (hin : t.inq = s.inq) :
    t.Reading bits := by
  rwa [State.Reading, State.pendingInput, hbuf, havail, hin]

theorem State.Reading.exec_decStep {d : State} {w : Code} {tail : List Bool}
    (h : d.Reading (msbBits 14 w.toNat ++ tail)) (hmode : d.mode = .dec) :
    exec .decStep d = exec (decodeStream w) d.wordTaken ∧ d.wordTaken.Reading tail := by
  obtain ⟨hready, hword, hreading⟩ := State.nextWord_of_pendingInput h.1 h.2
  exact ⟨hword ▸ exec_decStep_of_ready hmode hready, hreading⟩

/-- n DEC_STEPs lead from d to t and append `out` to OUTD; no response is an error or has KIND 3. -/
structure DecRun (n : Nat) (d t : State) (out : List Byte) : Prop where
  run : execAll (List.replicate n .decStep) d = .next t
  outd : t.outd = d.outd ++ out
  resp : ∃ rs, t.resp = d.resp ++ rs ∧ ∀ r ∈ rs, errField r = 0#4 ∧ kindField r ≠ 3#4

theorem DecRun.zero (d : State) : DecRun 0 d d [] :=
  ⟨rfl, (List.append_nil _).symm, [], (List.append_nil _).symm, nofun⟩

theorem DecRun.one {d t : State} {out : List Byte} {r : RespWord} (hexec : exec .decStep d = .next t)
    (hout : t.outd = d.outd ++ out) (hresp : t.resp = d.resp ++ [r]) (herr : errField r = 0#4)
    (hkind : kindField r ≠ 3#4) : DecRun 1 d t out where
  run := execAll_cons_of_next hexec
  outd := hout
  resp := ⟨[r], hresp, List.forall_mem_singleton.2 ⟨herr, hkind⟩⟩

theorem DecRun.trans {m n : Nat} {d t u : State} {out out' : List Byte} (h : DecRun m d t out)
    (h' : DecRun n t u out') : DecRun (m + n) d u (out ++ out') where
  run := by rw [List.replicate_add, execAll_append _ _ d t h.run, h'.run]
  outd := by rw [h'.outd, h.outd, List.append_assoc]
  resp := by
    obtain ⟨rs, hrs, hgood⟩ := h.resp
    obtain ⟨rs', hrs', hgood'⟩ := h'.resp
    exact ⟨rs ++ rs', by rw [hrs', hrs, List.append_assoc],
      List.forall_mem_append.2 ⟨hgood, hgood'⟩⟩

/-- From a decompressor with P, the words ws at the front of the stream decode to `out` and leave one
with Q and the rest of the stream. -/
def Decodes (P : State → Prop) (ws : List Code) (out : List Byte) (Q : State → Prop) : Prop :=
  ∀ d tail, P d → d.Reading (wordStreamBits ws ++ tail) →
    ∃ t, DecRun ws.length d t out ∧ t.Reading tail ∧ Q t

theorem Decodes.nil {P Q : State → Prop} (h : ∀ d, P d → Q d) : Decodes P [] [] Q :=
  fun d _ hd hr => ⟨d, DecRun.zero d, hr, h d hd⟩

theorem Decodes.mono {P Q R : State → Prop} {ws : List Code} {out : List Byte}
    (h : Decodes P ws out Q) (hQ : ∀ d, Q d → R d) : Decodes P ws out R := fun d tail hd hr => by
  obtain ⟨t, hrun, hreading, ht⟩ := h d tail hd hr
  exact ⟨t, hrun, hreading, hQ t ht⟩

theorem Decodes.append {P Q R : State → Prop} {ws vs : List Code} {out out' : List Byte}
    (h : Decodes P ws out Q) (h' : Decodes Q vs out' R) :
    Decodes P (ws ++ vs) (out ++ out') R := fun d tail hd hr => by
  rw [wordStreamBits_append, List.append_assoc] at hr
  obtain ⟨t, hrun, hreading, ht⟩ := h d _ hd hr
  obtain ⟨u, hrun', hreading', hu⟩ := h' t tail ht hreading
  exact ⟨u, List.length_append ▸ hrun.trans hrun', hreading', hu⟩

/-- The bits of one word, and what follows. -/
theorem wordStreamBits_singleton (w : Code) (tail : List Bool) :
    wordStreamBits [w] ++ tail = msbBits 14 w.toNat ++ tail := by
  rw [wordStreamBits_cons, wordStreamBits_nil, List.append_nil]

theorem kindField_codeResponse (w : Code) (n : Nat) : kindField (codeResponse w n) ≠ 3#4 := by
  rw [codeResponse, kindField_respWord]
  split <;> decide

theorem decodes_word {e : State} {p : Code} {ph : List Byte} (he : e.DictInv)
    (hp : p < e.nextFree) (hph : e.phrase p = some ph) :
    Decodes (·.Follows e p) [p] ph (·.CaughtUp e p) := by
  intro d tail hd hr
  rw [wordStreamBits_singleton] at hr
  obtain ⟨hstep, hreading⟩ := hr.exec_decStep hd.mode
  have hd' : d.wordTaken.Follows e p := hd.congr_ports ⟨rfl, rfl⟩ rfl rfl
  obtain ⟨t, m, nf, ph', hph', hexec, hcaught, rfl⟩ := hd'.exec_word he hp
  cases hph.symm.trans hph'
  exact ⟨_, .one (hstep.trans hexec) rfl rfl (errField_respWord ..) (kindField_codeResponse _ _),
    hreading.congr rfl rfl rfl, hcaught⟩

/-- A decompressor with the trie of literals and no previous code. -/
structure State.Fresh (d : State) : Prop where
  mode : d.mode = .dec
  dict : d.DictInv
  decPrev : d.decPrev = Config.rootCode
  nextFree : d.nextFree = Config.firstDyn

theorem State.Fresh.follows {d e : State} (h : d.Fresh) (he : e.DictInv)
    (hf : e.nextFree = Config.firstDyn) (p : Code) : d.Follows e p :=
  State.follows_of_no_previous h.mode h.dict h.decPrev
    (he.sameTrie_of_literals h.dict hf h.nextFree) p

/-- The Reset word forgets the dynamic codes and the previous code (43_decoder.md R173). -/
theorem exec_reset_fresh {d : State} (hmode : d.mode = .dec) (hwf : d.nodes.wf = true) :
    ∃ t m, exec .reset d = .next t ∧ t.Fresh ∧
      t = ({ d with nodes := m, nextFree := 0x100#14, decPrev := 0x3FFE#14 } : State).delivered
        0x02000000#32 := by
  have hdict := State.dictInv_restored hwf
  have hexec := exec_reset d
  generalize d.nodes.restoreLiterals = m at hdict hexec
  exact ⟨_, m, hexec, ⟨hmode, hdict.congr ⟨rfl, rfl⟩, rfl, rfl⟩, rfl⟩

theorem decodes_reset :
    Decodes (fun d => d.mode = .dec ∧ d.nodes.wf = true) [Config.resetCode] [] State.Fresh := by
  rintro d tail ⟨hmode, hwf⟩ hr
  rw [wordStreamBits_singleton] at hr
  obtain ⟨hstep, hreading⟩ := hr.exec_decStep hmode
  obtain ⟨t, m, hexec, hfresh, rfl⟩ := exec_reset_fresh (d := d.wordTaken) hmode hwf
  exact ⟨_, .one (hstep.trans hexec) (List.append_nil _).symm rfl (by decide) (by decide),
    hreading.congr rfl rfl rfl, hfresh⟩

/-- The word of any position, the root's being Reset's (42_encoder.md R154, R157). -/
theorem decodes_position {e : State} {p : Code} {ph : List Byte} (he : e.DictInv)
    (hp : e.Known p) (hph : e.phrase p = some ph) :
    Decodes (·.Follows e p) [p] ph (·.mode = .dec) := by
  rcases hp with rfl | hp
  · cases e.phrase_root.symm.trans hph
    exact fun d tail hd => decodes_reset.mono (fun _ h => h.mode) d tail ⟨hd.mode, hd.dict.arena⟩
  · exact (decodes_word he hp hph).mono fun _ h => h.mode

/-- DEC_STEP on EOS ends the session and answers KIND 3 (43_decoder.md R172). -/
theorem exec_decStep_eos {d : State} {tail : List Bool} (hmode : d.mode = .dec)
    (hr : d.Reading (msbBits 14 Config.eosCode.toNat ++ tail)) :
    ∃ t, exec .decStep d = .next t ∧ t.Reading tail ∧ t.mode = .decDone ∧ t.outd = d.outd ∧
      t.resp = d.resp ++ [0x03000000#32] := by
  obtain ⟨hstep, hreading⟩ := hr.exec_decStep hmode
  exact ⟨_, hstep.trans (exec_eos _), hreading.congr rfl rfl rfl, rfl, rfl, rfl⟩

/-! ### The words a compression session emits -/

/-- Since OUTW was `base` the packer has taken the words ws: their bits are those of the bytes
appended and then the pending ones. -/
def State.HasPacked (s : State) (base : List Byte) (ws : List Code) : Prop :=
  ∃ bytes, s.outw = base ++ bytes ∧ streamBits bytes ++ s.pendingOutput = wordStreamBits ws

theorem State.HasPacked.packWord {s : State} {base : List Byte} {ws : List Code}
    (h : s.HasPacked base ws) (w : Code) : (s.packWord w).HasPacked base (ws ++ [w]) := by
  obtain ⟨bytes, hout, hbits⟩ := h
  refine ⟨bytes ++ s.packedBytes w, ?_, ?_⟩
  · rw [State.packWord_outw, hout, List.append_assoc]
  · rw [streamBits_append, List.append_assoc, ← State.packWord_bits, ← List.append_assoc, hbits,
      wordStreamBits_append, wordStreamBits_cons, wordStreamBits_nil, List.append_nil]

/-- What ENC_BYTE b does with the trie and the packer in s, and the position it moves to: it descends,
or emits the code of the position and registers a node, counts, or resets (42_encoder.md R152, R153). -/
inductive EncMove (s : State) (b : Byte) : State → Code → Prop
  | descend {c : Code} (hchild : s.IsChild s.encCur b c) : EncMove s b s c
  | register {u : State} (hcur : s.encCur < s.nextFree)
      (hr : (s.packWord s.encCur).register s.encCur b = some u) :
      EncMove s b u (b.setWidth Config.wordBits)
  | count (hcur : s.encCur < s.nextFree) (hfull : ¬ s.nextFree < Config.resetCode) :
      EncMove s b { s.packWord s.encCur with encSat := s.encSat + 1#10 }
        (b.setWidth Config.wordBits)
  | reset (hcur : s.encCur < s.nextFree) :
      EncMove s b
        { ((s.packWord s.encCur).packWord Config.resetCode).trieReset with encSat := 0#10 }
        (b.setWidth Config.wordBits)

theorem State.sameDict_packWord (s : State) (w : Code) : s.SameDict (s.packWord w) :=
  ⟨s.packWord_nodes w, s.packWord_nextFree w⟩

theorem EncMove.dict {s u : State} {b : Byte} {c : Code} (h : EncMove s b u c)
    (hs : s.DictInv) : u.DictInv := by
  have hpacked : (s.packWord s.encCur).DictInv := hs.congr (s.sameDict_packWord _)
  cases h with
  | descend => exact hs
  | register _ hr => exact hpacked.register hr
  | count => exact hpacked.congr ⟨rfl, rfl⟩
  | reset =>
    have hreset := State.dictInv_trieReset
      (s := (s.packWord s.encCur).packWord Config.resetCode) hs.arena
    generalize ((s.packWord s.encCur).packWord Config.resetCode).trieReset = v at hreset ⊢
    exact hreset.congr ⟨rfl, rfl⟩

/-- The position moved to is a defined code. -/
theorem EncMove.lt {s u : State} {b : Byte} {c : Code} (h : EncMove s b u c) (hs : s.DictInv) :
    c < u.nextFree := by
  have hliteral := ((h.dict hs).isChild_literal b).lt
  cases h with
  | descend hchild => exact hchild.lt
  | register | count | reset => exact hliteral

theorem EncMove.frame {s u : State} {b : Byte} {c : Code} (h : EncMove s b u c) :
    u.mode = s.mode ∧ u.resp = s.resp := by
  cases h with
  | descend => exact ⟨rfl, rfl⟩
  | count | reset => simp
  | register _ hr =>
    obtain ⟨m, nf, rfl⟩ := State.register_frame hr
    exact ⟨rfl, rfl⟩

/-- In a compression session with a sound trie every ENC_BYTE is one of these moves. -/
theorem exec_encByte_move {s : State} (hmode : s.mode = .enc) (hs : s.DictInv)
    (hcur : s.Known s.encCur) (b : Byte) :
    ∃ u c v, EncMove s b u c ∧
      exec (.encByte b) s = .next (({ u with encCur := c } : State).respond 0#4 0#4 v) := by
  show ∃ u c v, _ ∧ execEncByte b s = _
  cases hchild : s.child s.encCur b with
  | some c =>
    exact ⟨s, c, _, .descend ((State.child_eq_some_iff c).1 hchild).1,
      execEncByte_of_child hmode hchild⟩
  | none =>
    have hlt : s.encCur < s.nextFree := hcur.resolve_left fun hroot => by
      rw [hroot, hs.child_root] at hchild
      cases hchild
    rw [execEncByte_of_miss hmode hchild, encMiss]
    have hmove {u : State} (h : EncMove s b u (b.setWidth Config.wordBits)) (k : Nat) :=
      encMoveToRootChild_of_inv (h.dict hs) b k
    split
    next hfree =>
      obtain ⟨n, hn⟩ := hs.nodeRead_defined hlt
      have hr := State.register_of (b := b) (s := s.packWord s.encCur) hfree
        (hs.nextFree.ne_root hlt) hn
      rw [State.packWord_encCur, hr]
      exact ⟨_, _, _, .register hlt hr, hmove (.register hlt hr) 1⟩
    next hfull =>
      rcases (s.packWord s.encCur).saturate_cases with ⟨_, e⟩ | e <;> rw [e]
      · exact ⟨_, _, _, .count hlt hfull, hmove (.count hlt hfull) _⟩
      · exact ⟨_, _, _, .reset hlt, hmove (.reset hlt) _⟩

/-! ### What the words emitted decode to -/

/-- The trie of e, with position p, encodes B: the words emitted since OUTW was `base`, and then p's
phrase, are B; a fresh decompressor decodes those words and then follows. -/
def State.Encodes (e : State) (p : Code) (base B : List Byte) : Prop :=
  ∃ ws out ph, e.HasPacked base ws ∧ e.phrase p = some ph ∧ out ++ ph = B ∧
    Decodes State.Fresh ws out (·.Follows e p)

/-- What neither the dictionary nor the packer knows of makes no difference. -/
theorem State.Encodes.congr {e e' : State} {p : Code} {base B : List Byte}
    (h : e.Encodes p base B) (hdict : e.SameDict e') (hout : e'.outw = e.outw)
    (hacc : e'.pkAcc = e.pkAcc) (hn : e'.pkNbits = e.pkNbits) : e'.Encodes p base B := by
  obtain ⟨ws, out, ph, hpacked, hph, hB, hdec⟩ := h
  refine ⟨ws, out, ph, ?_, (hdict.sameTrie.phrase p).symm.trans hph, hB,
    hdec.mono fun _ hd => hd.congr hdict.sameTrie⟩
  rwa [State.HasPacked, State.pendingOutput, hout, hacc, hn]

/-- Emitting the code of the position: the words are then all of B, and the decompressor catches up. -/
theorem State.Encodes.emit {e : State} {p : Code} {base B : List Byte} (h : e.Encodes p base B)
    (he : e.DictInv) (hp : p < e.nextFree) :
    ∃ ws, (e.packWord p).HasPacked base ws ∧ Decodes State.Fresh ws B (·.CaughtUp e p) := by
  obtain ⟨ws, out, ph, hpacked, hph, rfl, hdec⟩ := h
  exact ⟨_, hpacked.packWord p, hdec.append (decodes_word he hp hph)⟩

/-- After an emission the phrase of the new position is the literal b. -/
theorem State.encodes_literal {e : State} {base B : List Byte} {ws : List Code} {b : Byte}
    (he : e.DictInv) (hpacked : e.HasPacked base ws)
    (hdec : Decodes State.Fresh ws B (·.Follows e (b.setWidth Config.wordBits))) :
    e.Encodes (b.setWidth Config.wordBits) base (B ++ [b]) :=
  ⟨ws, B, [b], hpacked, he.phrase_literal b, rfl, hdec⟩

/-- At the beginning nothing is emitted, and the root's phrase is empty. -/
theorem State.encodes_nil {e : State} (he : e.DictInv) (hf : e.nextFree = Config.firstDyn)
    (hn : e.pkNbits = 0#3) : e.Encodes Config.rootCode e.outw [] :=
  ⟨[], [], [], ⟨[], (List.append_nil _).symm, by rw [State.pendingOutput, hn]; rfl⟩, e.phrase_root,
    rfl, .nil fun _ hd => hd.follows he hf _⟩

/-- A move of ENC_BYTE b adds b to what is encoded. -/
theorem EncMove.encodes {s u : State} {b : Byte} {c : Code} {base B : List Byte}
    (hmove : EncMove s b u c) (hs : s.DictInv) (h : s.Encodes s.encCur base B) :
    u.Encodes c base (B ++ [b]) := by
  have hu := hmove.dict hs
  cases hmove with
  | descend hchild =>
    obtain ⟨ws, out, ph, hpacked, hph, rfl, hdec⟩ := h
    obtain ⟨ph', hph', hc⟩ := hs.phrase_child hchild
    cases hph.symm.trans hph'
    exact ⟨ws, out, ph ++ [b], hpacked, hc, (List.append_assoc ..).symm,
      hdec.mono fun _ hd => hd.descend hs hchild⟩
  | register hcur hr =>
    obtain ⟨ws, hpacked, hdec⟩ := h.emit hs hcur
    refine State.encodes_literal hu (ws := ws) ?_ (hdec.mono fun d hd => ?_)
    · obtain ⟨m, nf, rfl⟩ := State.register_frame hr
      exact hpacked
    · have hpacked := s.sameDict_packWord s.encCur
      exact (hd.congr hpacked.sameTrie).register (hs.congr hpacked) hr
  | count hcur hfull =>
    obtain ⟨ws, hpacked, hdec⟩ := h.emit hs hcur
    exact State.encodes_literal hu (ws := ws) hpacked (hdec.mono fun d hd =>
      (hd.follows_of_full hfull _).congr (State.SameDict.sameTrie ⟨rfl, rfl⟩))
  | reset hcur =>
    obtain ⟨ws, hpacked, hdec⟩ := h.emit hs hcur
    have hreset : Decodes State.Fresh (ws ++ [Config.resetCode]) (B ++ []) State.Fresh :=
      hdec.append fun d tail hd => decodes_reset d tail ⟨hd.mode, hd.dict.arena⟩
    rw [List.append_nil] at hreset
    exact State.encodes_literal hu (hpacked.packWord Config.resetCode)
      (hreset.mono fun d hd => hd.follows hu rfl _)

/-! ### A compression session -/

/-- The session that began in s is open in e and has taken the bytes B without an error response. -/
structure State.Compressed (s e : State) (B : List Byte) : Prop where
  mode : e.mode = .enc
  dict : e.DictInv
  known : e.Known e.encCur
  resp : ∃ rs, e.resp = s.resp ++ rs ∧ ∀ r ∈ rs, errField r = 0#4
  encodes : e.Encodes e.encCur s.outw B

theorem exec_encStart_compressed {s : State} (hwf : s.nodes.wf = true) :
    ∃ e, exec .encStart s = .next e ∧ s.Compressed e [] := by
  have hdict := State.dictInv_restored hwf
  have hexec := exec_encStart s
  generalize s.nodes.restoreLiterals = m at hdict hexec
  exact ⟨_, hexec, rfl, hdict.congr ⟨rfl, rfl⟩, .inl rfl,
    ⟨[0x00000000#32], rfl, List.forall_mem_singleton.2 (by decide)⟩,
    State.encodes_nil (hdict.congr ⟨rfl, rfl⟩) rfl rfl⟩

theorem State.Compressed.encByte {s e : State} {B : List Byte} (h : s.Compressed e B) (b : Byte) :
    ∃ t, exec (.encByte b) e = .next t ∧ s.Compressed t (B ++ [b]) := by
  obtain ⟨u, c, v, hmove, hexec⟩ := exec_encByte_move h.mode h.dict h.known b
  obtain ⟨hmode, hresp⟩ := hmove.frame
  obtain ⟨rs, hrs, hgood⟩ := h.resp
  have hencodes := hmove.encodes h.dict h.encodes
  refine ⟨_, hexec, hmode.trans h.mode, (hmove.dict h.dict).congr ⟨rfl, rfl⟩,
    .inr (hmove.lt h.dict), ⟨rs ++ [respWord 0#4 0#4 v], ?_, ?_⟩,
    hencodes.congr ⟨rfl, rfl⟩ rfl rfl rfl⟩
  · rw [State.respond_resp, ← List.append_assoc, ← hrs, ← hresp]
  · exact List.forall_mem_append.2 ⟨hgood, List.forall_mem_singleton.2 (errField_respWord ..)⟩

theorem State.Compressed.encBytes {s e : State} {B : List Byte} (h : s.Compressed e B)
    (bs : List Byte) :
    ∃ t, execAll (bs.map .encByte) e = .next t ∧ s.Compressed t (B ++ bs) := by
  induction bs generalizing e B with
  | nil => exact ⟨e, rfl, by rwa [List.append_nil]⟩
  | cons b bs ih =>
    obtain ⟨u, hu, hcomp⟩ := h.encByte b
    obtain ⟨t, ht, hcomp⟩ := ih hcomp
    exact ⟨t, (execAll_cons_of_next hu).trans ht, by rwa [List.append_assoc] at hcomp⟩

/-- The bytes `packed` are words that decode to B, then EOS, less than a byte of pad and the
sentinel. -/
def StreamOf (packed B : List Byte) : Prop :=
  ∃ ws pad, pad < 8 ∧ Decodes State.Fresh ws B (·.mode = .dec) ∧
    streamBits packed = wordStreamBits ws ++ (msbBits 14 Config.eosCode.toNat ++
      (List.replicate pad false ++ streamBits [Config.sentinel]))

/-- ENC_CLOSE ends the session with a stream of the bytes taken (42_encoder.md R154). -/
theorem State.Compressed.encClose {s e : State} {B : List Byte} (h : s.Compressed e B) :
    ∃ t packed rs, exec .encClose e = .next t ∧ t.outw = s.outw ++ packed ∧
      t.resp = s.resp ++ rs ∧ (∀ r ∈ rs, errField r = 0#4) ∧ t.nodes.wf = true ∧
      StreamOf packed B := by
  obtain ⟨rs, hrs, hgood⟩ := h.resp
  obtain ⟨ws, out, ph, hpacked, hph, rfl, hdec⟩ := h.encodes
  obtain ⟨bytes, hout, hbits⟩ := (hpacked.packWord e.encCur).packWord Config.eosCode
  obtain ⟨padded, pad, hclose, hpad, hpadded⟩ :=
    ((e.packWord e.encCur).packWord Config.eosCode).closeBytes_bits
  refine ⟨_, bytes ++ (padded ++ [Config.sentinel]), rs ++ [0x00000002#32],
    encCloseEndsSession e h.mode, ?_, ?_,
    List.forall_mem_append.2 ⟨hgood, List.forall_mem_singleton.2 (by decide)⟩, h.dict.arena,
    ws ++ [e.encCur], pad, hpad, hdec.append (decodes_position h.dict h.known hph), ?_⟩
  · rw [← hclose, ← List.append_assoc, ← hout]
    rfl
  · rw [← List.append_assoc, ← hrs]
    rfl
  · rw [streamBits_append, streamBits_append, hpadded, ← List.append_assoc, ← List.append_assoc,
      hbits, wordStreamBits_append, List.append_assoc, List.append_assoc,
      wordStreamBits_singleton]

/-! ### The whole way (43_decoder.md R178) -/

/-- DEC_START with a stream in IN begins to read it. -/
theorem exec_decStart_fresh {s : State} (hwf : s.nodes.wf = true) :
    ∃ d, exec .decStart s = .next d ∧ d.Fresh ∧ d.Reading (streamBits s.inq) ∧
      d.outd = s.outd ∧ d.resp = s.resp ++ [0x00000000#32] := by
  have hdict := State.dictInv_restored hwf
  have hexec := exec_decStart s
  generalize s.nodes.restoreLiterals = m at hdict hexec
  exact ⟨_, hexec, ⟨rfl, hdict.congr ⟨rfl, rfl⟩, rfl, rfl⟩, ⟨Nat.zero_lt_succ 7, rfl⟩,
    rfl, rfl⟩

/-- A stream of B in IN is decompressed to B, up to the sentinel. -/
theorem execAll_decompress {s : State} {B : List Byte} (hwf : s.nodes.wf = true)
    (h : StreamOf s.inq B) :
    ∃ u n rs, execAll (.decStart :: List.replicate (n + 1) .decStep) s = .next u ∧
      u.outd = s.outd ++ B ∧ u.mode = .decDone ∧ u.inq = [0x00#8] ∧
      u.resp = s.resp ++ rs ++ [0x03000000#32] ∧
      ∀ r ∈ rs, errField r = 0#4 ∧ kindField r ≠ 3#4 := by
  obtain ⟨ws, pad, hpad, hdec, hbits⟩ := h
  obtain ⟨d, hstart, hfresh, hreading, hdout, hdresp⟩ := exec_decStart_fresh hwf
  rw [hbits] at hreading
  obtain ⟨t, hrun, hleft, hmode⟩ := hdec d _ hfresh hreading
  obtain ⟨rs, hrs, hgood⟩ := hrun.resp
  obtain ⟨u, heos, hend, hdone, huout, huresp⟩ := exec_decStep_eos hmode hleft
  have hunread : u.Unread [] (List.replicate pad false ++ streamBits [Config.sentinel]) :=
    ⟨by rw [hdone]; decide, hend.1, hend.2⟩
  refine ⟨u, ws.length, 0x00000000#32 :: rs, ?_, ?_, hdone,
    hunread.inq_of_pad (by rwa [List.length_replicate]), ?_, ?_⟩
  · rw [execAll_cons_of_next hstart, List.replicate_succ', execAll_append _ _ d t hrun.run,
      execAll_cons_of_next heos, execAll]
  · rw [huout, hrun.outd, hdout]
  · rw [huresp, hrs, hdresp]
    simp only [List.append_assoc, List.cons_append, List.nil_append]
  · exact List.forall_mem_cons.2 ⟨by decide, hgood⟩

/-- Settles O46: the session emits a stream of B, and such a stream is decompressed to B. -/
theorem decompressInvertsCompress : Obligations.DecompressInvertsCompress := by
  intro s B hwf
  obtain ⟨e, hstart, hcomp⟩ := exec_encStart_compressed hwf
  obtain ⟨v, hbytes, hcomp⟩ := hcomp.encBytes B
  obtain ⟨t, packed, rs, hclose, hout, hresp, hgood, harena, hstream⟩ := hcomp.encClose
  obtain ⟨u, n, rs', hdecode⟩ := execAll_decompress
    (s := { t with inq := packed, inEnd := true }) harena hstream
  refine ⟨t, packed, u, n, rs, rs', ?_, hout, hresp, hgood, hdecode⟩
  rw [List.cons_append, execAll_cons_of_next hstart, execAll_append _ _ e v hbytes,
    execAll_cons_of_next hclose, execAll]

end Sys2Proof.Machine

/-! PROOFS. Control and status (44_control.md): neither NOP nor CLR_ERR reads MODE, so each completes
in every state (O15). -/

namespace Sys2Proof.Machine

/-- R190. -/
theorem exec_nop (s : State) : exec .nop s = .next (s.delivered 0x00000000#32) := by
  show execNop s = _
  exact next_respond rfl

/-- R192. -/
theorem exec_clrErr (s : State) :
    exec .clrErr s = .next (({ s with stickyErr := 0#4 } : State).delivered 0x00000000#32) := by
  show execClrErr s = _
  exact next_respond rfl

/-- Settles O15. -/
theorem nopAndClrErrComplete : Obligations.NopAndClrErrComplete := fun s =>
  ⟨exec_nop s, exec_clrErr s⟩

end Sys2Proof.Machine

/-! PROOFS. The errors of 60_exceptions.md: the mode checks of R205 (O47), and what an error response may
change (O50). -/

namespace Sys2Proof.Machine

/-! ### The mode checks (60_exceptions.md R205) -/

theorem exec_packerCommand_of_enc {i : Instr} {s : State} (hmode : s.mode = .enc)
    (hi : i = .pkInit ∨ (∃ w, i = .pkWrite w) ∨ i = .pkClose) :
    exec i s = .next (s.raise .busy 0#16) := by
  have howned : s.packerOwned = true := by simp [State.packerOwned, hmode]
  rcases hi with rfl | ⟨w, rfl⟩ | rfl <;> exact if_pos howned

theorem exec_unpackerCommand_of_dec {i : Instr} {s : State} (hmode : s.mode = .dec)
    (hi : i = .upInit ∨ i = .upRead) : exec i s = .next (s.raise .busy 0#16) := by
  have howned : s.unpackerOwned = true := by simp [State.unpackerOwned, hmode]
  rcases hi with rfl | rfl <;> exact if_pos howned

theorem exec_encCommand_of_not_enc {i : Instr} {s : State} (hmode : s.mode ≠ .enc)
    (hi : (∃ b, i = .encByte b) ∨ i = .encClose) :
    exec i s = .next (s.raise .notActive 0#16) := by
  rcases hi with ⟨b, rfl⟩ | rfl <;> exact if_pos hmode

theorem exec_decStep_of_not_dec {s : State} (hmode : s.mode ≠ .dec) :
    exec .decStep s = .next (s.raise .notActive 0#16) :=
  if_pos hmode

/-- Settles O47, by the unit or session the command belongs to. -/
theorem modeChecksFail : Obligations.ModeChecksFail := by
  intro s i
  refine ⟨fun hmode hi => ?_, fun hmode hi => ?_, fun hmode hi => ?_, fun hmode hi => ?_⟩
  · rw [exec_packerCommand_of_enc hmode hi]
    exact next_raise rfl (by decide)
  · rw [exec_unpackerCommand_of_dec hmode hi]
    exact next_raise rfl (by decide)
  · rw [exec_encCommand_of_not_enc hmode hi]
    exact next_raise rfl (by decide)
  · rw [hi, exec_decStep_of_not_dec hmode]
    exact next_raise rfl (by decide)

/-! ### What an error response changes (60_exceptions.md R201) -/

/-- From s to t no error response is delivered: either no response at all or one with ERR 0. -/
def NoError (s t : State) : Prop :=
  ∀ r : RespWord, t.resp = s.resp ++ [r] → errField r = 0#4

/-- The three ways in which instruction i may fail in s (60_exceptions.md R201). -/
inductive Fails (i : Instr) (s : State) : State → Prop
  /-- ILLEGAL, CLOSED, BUSY or NOT_ACTIVE, found before anything is changed. -/
  | check (e : Err) (v : BitVec 16) (he : e.code < 5#4) : Fails i s (s.raise e v)
  /-- INVALID_CODE, after the word's bits were taken. -/
  | invalidCode (buf : Byte) (avail : BitVec 4) (inq : List Byte) (v : BitVec 16) :
    Fails i s (({ s with upBuf := buf, upAvail := avail, inq := inq,
                         mode := .decErr } : State).raise .invalidCode v)
  /-- TRUNCATED, after the rest of IN was taken. -/
  | truncated (buf : Byte) (m : Mode) (v : BitVec 16)
      (hm : m = if i = .decStep then .decErr else s.mode) :
    Fails i s (({ s with upBuf := buf, upAvail := 0#4, inq := [],
                         mode := m } : State).raise .truncated v)

theorem noError_refl (s : State) : NoError s s := fun r h => by simp at h

/-- A success response to an update u of s that delivered nothing yet is no error. -/
theorem noError_respond {s u : State} {k : BitVec 4} {v : BitVec 16} (hresp : u.resp = s.resp) :
    NoError s (u.respond 0#4 k v) := by
  intro r h
  obtain rfl : respWord 0#4 k v = r := by simpa [hresp] using h
  exact errField_respWord ..

/-- The word that an error response delivers, told from the responses before and after. -/
theorem State.raise_delivers {s u : State} {e : Err} {v : BitVec 16} {r : RespWord}
    (hresp : u.resp = s.resp) (h : (u.raise e v).resp = s.resp ++ [r]) :
    u.raise e v = u.failed (errField r) r ∧ errField r = e.code ∧
      kindField r = if errField r = 5#4 then 1#4 else 0#4 := by
  obtain rfl : respWord e.code (errKind e) v = r := by simpa [hresp] using h
  rw [errField_respWord, kindField_respWord]
  exact ⟨rfl, rfl, errKind_eq e⟩

/-- What O50 says of one instruction from s to t, which delivered the error response r. -/
def ErrorClauses (i : Instr) (s t : State) (r : RespWord) : Prop :=
  t = { s with upBuf := t.upBuf, upAvail := t.upAvail, inq := t.inq,
               mode := t.mode }.failed (errField r) r ∧
  kindField r = (if errField r = 5#4 then 1#4 else 0#4) ∧
  (errField r < 5#4 → t.upBuf = s.upBuf ∧ t.upAvail = s.upAvail ∧ t.inq = s.inq ∧
    t.mode = s.mode) ∧
  (errField r = 5#4 → t.mode = .decErr) ∧
  (errField r = 6#4 → t.upAvail = 0#4 ∧ t.inq = [] ∧
    t.mode = if i = .decStep then .decErr else s.mode)

/-- Each way to fail changes what O50 lists for its error code and nothing else. -/
theorem Fails.clauses {i : Instr} {s t : State} {r : RespWord} (h : Fails i s t)
    (hr : t.resp = s.resp ++ [r]) : ErrorClauses i s t r := by
  cases h with
  | check e v he =>
    obtain ⟨ht, herr, hkind⟩ := State.raise_delivers rfl hr
    rw [← herr] at he
    refine ⟨ht, hkind, fun _ => ⟨rfl, rfl, rfl, rfl⟩, fun h5 => ?_, fun h6 => ?_⟩
    · exact absurd he (by rw [h5]; decide)
    · exact absurd he (by rw [h6]; decide)
  | invalidCode buf avail inq v =>
    obtain ⟨ht, herr, hkind⟩ := State.raise_delivers rfl hr
    refine ⟨ht, hkind, fun h4 => ?_, fun _ => rfl, fun h6 => ?_⟩
    · exact absurd h4 (by rw [herr]; decide)
    · exact absurd (herr.symm.trans h6) (by decide)
  | truncated buf m v hm =>
    obtain ⟨ht, herr, hkind⟩ := State.raise_delivers rfl hr
    refine ⟨ht, hkind, fun h4 => ?_, fun h5 => ?_, fun _ => ⟨rfl, rfl, hm⟩⟩
    · exact absurd h4 (by rw [herr]; decide)
    · exact absurd (herr.symm.trans h5) (by decide)

theorem fails_busy {i : Instr} {s : State} : Fails i s (s.raise .busy 0#16) :=
  .check _ _ (by decide)

theorem fails_closed {i : Instr} {s : State} : Fails i s (s.raise .closed 0#16) :=
  .check _ _ (by decide)

theorem fails_notActive {i : Instr} {s : State} : Fails i s (s.raise .notActive 0#16) :=
  .check _ _ (by decide)

/-! ### Each instruction delivers no error or fails in one of these ways -/

theorem execCode_noError_or_fails {i : Instr} {w : Code} {s t : State}
    (h : execCode w s = .next t) :
    NoError s t ∨ Fails i s t := by
  rcases execCode_frame h with ⟨_, _, _, _, _, _, _, rfl⟩ | rfl
  · exact .inl (noError_respond rfl)
  · exact .inr (.invalidCode ..)

/-- PK_WRITE and PK_CLOSE fail with BUSY, then with CLOSED (60_exceptions.md R206). -/
theorem exec_packerWrite_noError_or_fails {i : Instr} {s t : State}
    (hi : (∃ w, i = .pkWrite w) ∨ i = .pkClose)
    (h : exec i s = .next t) : NoError s t ∨ Fails i s t := by
  by_cases hmode : s.mode = .enc
  · rw [exec_packerCommand_of_enc hmode (.inr hi)] at h
    cases h
    exact .inr fails_busy
  cases hclosed : s.pkClosed with
  | true =>
    refine .inr ?_
    rcases hi with ⟨w, rfl⟩ | rfl
    · rw [exec_pkWrite_of_closed hmode hclosed] at h
      cases h
      exact fails_closed
    · rw [exec_pkClose_of_closed hmode hclosed] at h
      cases h
      exact fails_closed
  | false =>
    refine .inl ?_
    rcases hi with ⟨w, rfl⟩ | rfl
    · rw [exec_pkWrite_of_open hmode hclosed] at h
      cases h
      exact noError_respond rfl
    · rw [exec_pkClose_of_open hmode hclosed] at h
      cases h
      exact noError_respond rfl

theorem execUpRead_noError_or_fails {s t : State} (h : execUpRead s = .next t) :
    NoError s t ∨ Fails .upRead s t := by
  rcases execUpRead_cases h with rfl | rfl | ⟨_, rfl⟩ | ⟨_, _, _, rfl⟩
  · exact .inr fails_busy
  · exact .inl (noError_refl _)
  · exact .inr (.truncated _ _ _ (if_neg (by decide)).symm)
  · exact .inl (noError_respond rfl)

theorem execDecStep_noError_or_fails {s t : State} (h : execDecStep s = .next t) :
    NoError s t ∨ Fails .decStep s t := by
  rcases execDecStep_frame h with ⟨_, rfl⟩ | ⟨_, ⟨_, rfl⟩ | ⟨_, _, rfl⟩ | ⟨_, _, hword⟩⟩
  · exact .inr fails_notActive
  · exact .inl (noError_refl _)
  · exact .inr (.truncated _ _ _ (if_pos rfl).symm)
  · rcases execStreamWord_frame hword with ⟨_, _, _, _, _, _, _, _, _, rfl⟩ | ⟨_, rfl⟩
    · exact .inl (noError_respond rfl)
    · exact .inr (.invalidCode ..)

theorem exec_noError_or_fails {i : Instr} {s t : State} (h : exec i s = .next t) :
    NoError s t ∨ Fails i s t := by
  cases i with
  | lit b => exact execCode_noError_or_fails h
  | dict c => exact execCode_noError_or_fails h
  | pkWrite w => exact exec_packerWrite_noError_or_fails (.inl ⟨w, rfl⟩) h
  | pkClose => exact exec_packerWrite_noError_or_fails (.inr rfl) h
  | upRead => exact execUpRead_noError_or_fails h
  | decStep => exact execDecStep_noError_or_fails h
  | pkInit =>
    rcases execPkInit_cases h with rfl | rfl
    · exact .inr fails_busy
    · exact .inl (noError_respond rfl)
  | upInit =>
    rcases execUpInit_cases h with rfl | rfl
    · exact .inr fails_busy
    · exact .inl (noError_respond rfl)
  | encByte b =>
    rcases execEncByte_frame h with ⟨_, _, _, _, _, _, _, _, _, rfl⟩ | ⟨_, rfl⟩
    · exact .inl (noError_respond rfl)
    · exact .inr fails_notActive
  | encClose =>
    rcases execEncClose_cases h with rfl | rfl
    · exact .inr fails_notActive
    · exact .inl (noError_respond rfl)
  | rdReg idx =>
    rcases execRdReg_cases h with ⟨_, rfl⟩ | rfl
    · exact .inl (noError_respond rfl)
    · exact .inr (.check _ _ (by decide))
  | reset | eos | nop | encStart | decStart | clrErr =>
    cases h
    exact .inl (noError_respond rfl)

/-- Settles O50: the response given is the error of one of the three ways to fail. -/
theorem errorsChangeOnlyListedState : Obligations.ErrorsChangeOnlyListedState := by
  intro i s t r h hr herr
  have hfails : Fails i s t := (exec_noError_or_fails h).resolve_left fun hno => herr (hno r hr)
  exact hfails.clauses hr

end Sys2Proof.Machine

/-! PROOFS. The host's CMD of 70_reset_and_hazards.md (O12): R236's command is taken when none is
pending, and is 93 I13's host error while one holds. -/

namespace Sys2Proof.Machine

/-! ### CMD (70_reset_and_hazards.md R236) -/

/-- CMD only puts its word on CMD; the next step runs it (log 8). -/
theorem hostAction_cmd_of_idle {s : State} (hidle : s.cmd = none) (w : CmdWord) :
    hostAction (.cmd w) s = .next { s with cmd := some w } := by
  simp only [hostAction, hidle]

/-- CMD over a pending command is the host's error (93_implementation_defined.md I13; log 11). -/
theorem hostAction_cmd_of_pending {s : State} {v : CmdWord} (hpending : s.cmd = some v)
    (w : CmdWord) : hostAction (.cmd w) s = .fault .commandWhilePending := by
  simp only [hostAction, hpending]

/-- Settles O12: with no command pending, or with one that holds, the step is the host's CMD, which
leaves only the two cases of what stands on CMD. -/
theorem hostIssuesOneCommand : Obligations.HostIssuesOneCommand := by
  intro s w rest hhost
  refine ⟨fun hidle => ?_, fun v hpending hhold => ?_⟩
  · rw [step_of_hostAction (.inl hidle) hhost]
    exact hostAction_cmd_of_idle (s := { s with host := rest }) hidle w
  · rw [step_of_hostAction (.inr ⟨v, hpending, hhold⟩) hhost]
    exact hostAction_cmd_of_pending (s := { s with host := rest }) hpending w

end Sys2Proof.Machine
